-- ==== Sys2Proof/Word.lean ====
section
/-! DEFINITION. The elements CORE moves (00_scope.md R11, R12, R14; 20_memory.md R71): bytes, bits, tokens, phrases.
Integers are mathematical naturals (R11); only the command word and `STATUS` have a fixed width. -/

namespace Sys2Proof

/-- A byte, "a natural in 0..255" (R11). -/
abbrev Byte := BitVec 8

/-- The 8-bit command and status words (R23, R24). -/
abbrev Word8 := BitVec 8

/-- A bit string, leftmost bit (index 0) first (R12). -/
abbrev Bits := List Bool

/-- A token, "a non-negative integer" (R62): a natural. -/
abbrev Token := Nat

/-- A phrase, a finite sequence of bytes (R14). -/
abbrev Phrase := List Byte

end Sys2Proof
end

