-- ==== Sys2Proof/Config.lean ====
section
/-! DEFINITION. What a build or a platform fixes (00_scope.md R10) and the values the spec leaves unspecified.
The parameters a rule uses are plain data held, never changed, in `State.params` (log 2); their defaults are the
spec's. The open platform parameters no rule uses and the unspecified read values are constants without a body. -/

namespace Sys2Proof

/-- Step granularity of a run, "`parameter` of the model: one step per run, per phase, or per element"
(93_implementation_defined.md U9). -/
inductive Grain where
  | perRun
  | perPhase
  | perElement
  deriving DecidableEq, Repr, Inhabited

/-- The named parameters of R10. `none` is "unbounded", the source's value. -/
structure Params where
  /-- `TOKEN_W`: bits in a token, a dictionary code, the count and `N`. -/
  tokenW : Option Nat
  /-- `LEN_W`: bits in a length register and in a cursor. -/
  lenW : Option Nat
  /-- `DICT_CAP`: largest number of dictionary entries, the 256 initial ones included. -/
  dictCap : Option Nat
  /-- `PHRASE_CAP`: largest phrase length in bytes. -/
  phraseCap : Option Nat
  /-- `IB_CAP`, in bytes. -/
  ibCap : Option Nat
  /-- `OB_CAP`, in bytes. -/
  obCap : Option Nat
  /-- `TK_CAP`, in tokens. -/
  tkCap : Option Nat
  /-- `BS_CAP`, in bits. -/
  bsCap : Option Nat
  /-- `ZERO_COUNT_IS_CORRUPT` (43_stream_assembler.md R208; 90_conflicts.md C2). -/
  zeroCountIsCorrupt : Bool
  /-- The step granularity (U9); not a parameter of the hardware. -/
  grain : Grain
  deriving DecidableEq, Repr, Inhabited

/-- The default column of R10: everything unbounded, `ZERO_COUNT_IS_CORRUPT = true`; one step per run, as
45_host_interface.md R243 recommends (log 3). -/
def Params.default : Params where
  tokenW := none
  lenW := none
  dictCap := none
  phraseCap := none
  ibCap := none
  obCap := none
  tkCap := none
  bsCap := none
  zeroCountIsCorrupt := true
  grain := .perRun

/-- Every width and capacity is unbounded (R10's default); the other two parameters are open. -/
def Params.Unbounded (p : Params) : Prop :=
  p.tokenW = none ∧ p.lenW = none ∧ p.dictCap = none ∧ p.phraseCap = none ∧
    p.ibCap = none ∧ p.obCap = none ∧ p.tkCap = none ∧ p.bsCap = none

/-- `x` does not exceed the capacity `cap`. -/
def atMost (cap : Option Nat) (x : Nat) : Bool :=
  match cap with
  | none => true
  | some c => x ≤ c

/-- `x < 2^w` for a width `w`. -/
def fitsWidth (w : Option Nat) (x : Nat) : Bool :=
  match w with
  | none => true
  | some w => x < 2 ^ w

namespace Config

/-- `PORT_BASE`: open, platform's choice, used by no rule (R10, 20_memory.md R72; log 22). -/
opaque portBase : Nat

/-- `DONE_IRQ`: open, platform's choice, used by no rule (R10, 60_exceptions.md R275; log 22). -/
opaque doneIrq : Bool

/-- What a `READ` of `CMD` while busy returns: "an unspecified value" (70_reset_and_hazards.md R310; log 5). -/
opaque busyReadWord : Nat → Word8

/-- What a `READ` of a length, `N`, `BP` or `NC` while busy returns (R310; log 5). -/
opaque busyReadNat : Nat → Nat

/-- What a `READ` of `IB` or `OB` while busy returns (R310; log 5). -/
opaque busyReadBytes : Nat → List Byte

/-- What a `READ` of `TK` while busy returns (R310; log 5). -/
opaque busyReadTokens : Nat → List Token

/-- What a `READ` of `BS` while busy returns (R310; log 5). -/
opaque busyReadBits : Nat → Bits

end Config

end Sys2Proof
end

