-- ==== Sys2Proof/Syntax.lean ====
section
/-! DEFINITION. The commands (one constructor per row of spec/opcode_table.json), the four schemes, the fields of
the command word, and the host's moves in the script syntax of 30_encoding.md R125. -/

namespace Sys2Proof

/-- The four code schemes, in the source's order (00_scope.md R16). -/
inductive Scheme where
  | gamma
  | delta
  | omega
  | fibonacci
  deriving DecidableEq, Repr, Inhabited

/-- The complete command set, 28 legal words (30_encoding.md R96). The scheme is part of the command (R92). -/
inductive Instr where
  | compressG
  | compressD
  | compressO
  | compressF
  | decompressG
  | decompressD
  | decompressO
  | decompressF
  | lzwe
  | lzwd
  | serG
  | serD
  | serO
  | serF
  | desG
  | desD
  | desO
  | desF
  | uencG
  | uencD
  | uencO
  | uencF
  | udecG
  | udecD
  | udecO
  | udecF
  | pack
  | unpack
  deriving DecidableEq, Repr, Inhabited

/-- The fields of format `C`, the only command format (30_encoding.md R91): `oooo00ss`. -/
structure Fields where
  /-- Bits 7:4. -/
  op : BitVec 4
  /-- Bits 3:2, reserved. -/
  rsv : BitVec 2
  /-- Bits 1:0. -/
  scheme : BitVec 2
  deriving DecidableEq, Repr, Inhabited

/-- The nine host-visible registers, in the order of their numbers 0 to 8 (10_state.md R22). -/
inductive Reg where
  | cmd
  | status
  | ibLen
  | obLen
  | tkLen
  | bsLen
  | n
  | bp
  | nc
  deriving DecidableEq, Repr, Inhabited

/-- What a `READ` names: a register, or a whole buffer of `IB`, `OB`, `TK`, `BS` (45_host_interface.md R248). -/
inductive Target where
  | reg (r : Reg)
  | ib
  | ob
  | tk
  | bs
  deriving DecidableEq, Repr, Inhabited

/-- One host move, one script line (30_encoding.md R125; 45_host_interface.md R240). `EXPECT` is no move. -/
inductive HostMove where
  /-- `RESET` (R241). -/
  | reset
  /-- `LOAD IB, data` (R245). -/
  | loadIB (data : List Byte)
  /-- `LOAD TK, data` (R245). -/
  | loadTK (data : List Token)
  /-- `LOAD BS, data` (R245). -/
  | loadBS (data : Bits)
  /-- A write of register `r`: `SET N, v` (R246) when `r` is `N`; R22 says what a write of another register does. -/
  | set (r : Reg) (v : Nat)
  /-- `START c`: write the word `c` to `CMD` (R243). -/
  | start (c : Word8)
  /-- `WAIT`: poll `STATUS` until `DONE = 1` (R247). -/
  | wait
  /-- `READ x` (R248). -/
  | read (x : Target)
  /-- `MOVE OB, IB`: `READ OB`, then `LOAD IB` with what was read (30_encoding.md R125, R126). -/
  | moveObIb
  deriving DecidableEq, Repr, Inhabited

end Sys2Proof
end

