-- ==== Sys2Proof/WellFormed.lean ====
section
/-! DEFINITION. Which command-word fields are a legal command (30_encoding.md R95, R97, R98) and which host moves a
build can carry out (45_host_interface.md R245, R246). A term of `Instr` has no operand, so every one is well formed. -/

namespace Sys2Proof

/-- `RSV` must be `00` (30_encoding.md R91). -/
def Fields.rsvZero (f : Fields) : Bool := f.rsv == 0

/-- `OP` is one of the assigned numbers 1 to 10 (R93). -/
def Fields.opAssigned (f : Fields) : Bool := 1 ≤ f.op.toNat && f.op.toNat ≤ 10

/-- The operations that take a scheme: 1, 2, 5, 6, 7, 8 (R93). -/
def Fields.takesScheme (f : Fields) : Bool :=
  f.op == 1 || f.op == 2 || f.op == 5 || f.op == 6 || f.op == 7 || f.op == 8

/-- Where no scheme is taken, `SCHEME` must be `00` (R95). -/
def Fields.schemeAllowed (f : Fields) : Bool := f.takesScheme || f.scheme == 0

/-- The fields are one of the 28 legal words (R96, R97). -/
def Fields.wf (f : Fields) : Bool := f.rsvZero && f.opAssigned && f.schemeAllowed

/-- A sequence of `len` elements can be held by a buffer of capacity `cap` whose length register is `lenW` wide
(00_scope.md R10). -/
def lengthFits (cap lenW : Option Nat) (len : Nat) : Bool := atMost cap len && fitsWidth lenW len

/-- The build can carry the move out: a `LOAD` within the capacity, tokens and `SET N` values below `2^TOKEN_W`
(45_host_interface.md R245, R246). -/
def HostMove.wf (p : Params) : HostMove → Bool
  | .reset => true
  | .loadIB data => lengthFits p.ibCap p.lenW data.length
  | .loadTK data => lengthFits p.tkCap p.lenW data.length && data.all (fitsWidth p.tokenW)
  | .loadBS data => lengthFits p.bsCap p.lenW data.length
  | .set .n v => fitsWidth p.tokenW v
  | .set _ _ => true
  | .start _ => true
  | .wait => true
  | .read _ => true
  | .moveObIb => true

end Sys2Proof
end

