-- ==== Sys2Proof/Decode.lean ====
section
/-! DEFINITION. Decoding a command word (30_encoding.md R98), total on all 256 words and rejecting the 228 illegal
ones by name (R97), and the encoder written from R91 to R96. -/

namespace Sys2Proof

/-- Why a word is illegal (30_encoding.md R97). -/
inductive IllegalWord where
  /-- `RSV != 00`. -/
  | reservedBits
  /-- `OP` in {0x0, 0xB .. 0xF}. -/
  | reservedOp
  /-- `SCHEME != 00` on `LZWE`, `LZWD`, `PACK` or `UNPACK` (R95). -/
  | schemeNotZero
  deriving DecidableEq, Repr, Inhabited

/-- `SCHEME` values (30_encoding.md R92). -/
def Scheme.ofBits (b : BitVec 2) : Scheme :=
  match b.toNat with
  | 0 => .gamma
  | 1 => .delta
  | 2 => .omega
  | _ => .fibonacci

/-- `SCHEME` values (30_encoding.md R92). -/
def Scheme.bits : Scheme → BitVec 2
  | .gamma => 0
  | .delta => 1
  | .omega => 2
  | .fibonacci => 3

/-- The three fields of a word (30_encoding.md R91; 10_state.md R23). -/
def Fields.ofWord (c : Word8) : Fields where
  op := c.extractLsb' 4 4
  rsv := c.extractLsb' 2 2
  scheme := c.extractLsb' 0 2

/-- The word of three fields, `OP` in the high bits (30_encoding.md R91). -/
def Fields.toWord (f : Fields) : Word8 := f.op ++ f.rsv ++ f.scheme

/-- The variant of a scheme-taking operation that a scheme selects. -/
def bySchemeOf (s : Scheme) (g d o f : Instr) : Instr :=
  match s with
  | .gamma => g
  | .delta => d
  | .omega => o
  | .fibonacci => f

/-- A command that takes no scheme: `SCHEME` must be `00` (30_encoding.md R95). -/
def withoutScheme (f : Fields) (i : Instr) : Except IllegalWord Instr :=
  if f.scheme = 0 then .ok i else .error .schemeNotZero

/-- The tests of 30_encoding.md R98 in their order, with the operations of R93. -/
def decodeFields (f : Fields) : Except IllegalWord Instr :=
  if f.rsv ≠ 0 then .error .reservedBits
  else
    let s := Scheme.ofBits f.scheme
    match f.op.toNat with
    | 1 => .ok (bySchemeOf s .compressG .compressD .compressO .compressF)
    | 2 => .ok (bySchemeOf s .decompressG .decompressD .decompressO .decompressF)
    | 3 => withoutScheme f .lzwe
    | 4 => withoutScheme f .lzwd
    | 5 => .ok (bySchemeOf s .serG .serD .serO .serF)
    | 6 => .ok (bySchemeOf s .desG .desD .desO .desF)
    | 7 => .ok (bySchemeOf s .uencG .uencD .uencO .uencF)
    | 8 => .ok (bySchemeOf s .udecG .udecD .udecO .udecF)
    | 9 => withoutScheme f .pack
    | 10 => withoutScheme f .unpack
    | _ => .error .reservedOp

/-- Decoding a command word `c` (30_encoding.md R98). -/
def decode (c : Word8) : Except IllegalWord Instr := decodeFields (Fields.ofWord c)

/-- The fields of a command whose operation takes a scheme (30_encoding.md R91). -/
def schemeFields (op : BitVec 4) (s : Scheme) : Fields where
  op := op
  rsv := 0
  scheme := s.bits

/-- The fields of a command whose operation takes no scheme (30_encoding.md R95). -/
def plainFields (op : BitVec 4) : Fields where
  op := op
  rsv := 0
  scheme := 0

/-- The fields of each command, from 30_encoding.md R92, R93 and R96. -/
def Instr.fields : Instr → Fields
  | .compressG => schemeFields 1 .gamma
  | .compressD => schemeFields 1 .delta
  | .compressO => schemeFields 1 .omega
  | .compressF => schemeFields 1 .fibonacci
  | .decompressG => schemeFields 2 .gamma
  | .decompressD => schemeFields 2 .delta
  | .decompressO => schemeFields 2 .omega
  | .decompressF => schemeFields 2 .fibonacci
  | .lzwe => plainFields 3
  | .lzwd => plainFields 4
  | .serG => schemeFields 5 .gamma
  | .serD => schemeFields 5 .delta
  | .serO => schemeFields 5 .omega
  | .serF => schemeFields 5 .fibonacci
  | .desG => schemeFields 6 .gamma
  | .desD => schemeFields 6 .delta
  | .desO => schemeFields 6 .omega
  | .desF => schemeFields 6 .fibonacci
  | .uencG => schemeFields 7 .gamma
  | .uencD => schemeFields 7 .delta
  | .uencO => schemeFields 7 .omega
  | .uencF => schemeFields 7 .fibonacci
  | .udecG => schemeFields 8 .gamma
  | .udecD => schemeFields 8 .delta
  | .udecO => schemeFields 8 .omega
  | .udecF => schemeFields 8 .fibonacci
  | .pack => plainFields 9
  | .unpack => plainFields 10

/-- The command word of a command (30_encoding.md R96). -/
def encode (i : Instr) : Word8 := i.fields.toWord

/-- The command this decoder reads from a table row's bits: the low 8 bits of `w`, bits above `nbits` zero (the
command word is the only instruction length, 30_encoding.md R90). -/
def decodeTableWord (nbits w : Nat) : Option Instr :=
  match decode (BitVec.ofNat 8 (w % 2 ^ nbits)) with
  | .ok i => some i
  | .error _ => none

end Sys2Proof
end

