-- ==== Sys2Proof/Machine/State.lean ====
section
/-! DEFINITION. The state of one CORE instance (10_state.md R20), its reset values (R40), the error kinds
(60_exceptions.md R261), and the two ways a step of the model can stop. -/

namespace Sys2Proof.Machine

/-- The sequencer register's values (10_state.md R31). -/
inductive Phase where
  | idle
  | lzwe
  | lzwd
  | ser
  | des
  | pack
  | unpack
  | uenc
  | udec
  deriving DecidableEq, Repr, Inhabited

/-- The error kinds, in the order of their codes 1 to 6 (60_exceptions.md R261). -/
inductive ErrKind where
  | invalidArgument
  | invalidCode
  | truncatedStream
  | corruptHeader
  | illegalCommand
  | capacityExceeded
  deriving DecidableEq, Repr, Inhabited

/-- What a `READ` returns: a command or status word, a natural register, or a whole buffer (45_host_interface.md R248). -/
inductive ReadValue where
  | word (v : Word8)
  | nat (v : Nat)
  | bytes (v : List Byte)
  | tokens (v : List Token)
  | bits (v : Bits)
  deriving DecidableEq, Repr, Inhabited

/-- Why a step stops outside the spec. No command and no error kind of the spec stops the machine: an error ends the
run in a next state (60_exceptions.md R268). -/
inductive Fault where
  /-- Raised by `step` alone, when `BUSY = 1` but `CMD` and `PHASE` are not those of a run in progress. No run reaches
  such a state (Safety.lean, `State.Coherent`). Safe: the model stops where the spec describes nothing (log 6). -/
  | strayPhase
  deriving DecidableEq, Repr

/-- Why an instruction has no meaning. -/
inductive Refusal where
  /-- Raised by an arm of `exec` whose command has no meaning yet; no arm of this model does. Safe. -/
  | notModelled (mnemonic : String)
  deriving DecidableEq, Repr

/-- The complete state of one instance: the host-visible registers (10_state.md R22), the working registers (R27), the
sequencer registers (R31) and the five buffers (R36). The length registers `IB_LEN`, `OB_LEN`, `TK_LEN`, `BS_LEN` and
`NC` are the lengths of their buffers (log 7). The last four fields are the model's own. -/
structure State where
  /-- `CMD`: the command word of the last started run (R23). -/
  cmd : Word8
  /-- `STATUS` (R24). -/
  status : Word8
  /-- `N`: the integer port of the codec (R25). -/
  n : Nat
  /-- `BP`: index of the next bit of `BS` to consume (R22, R31). -/
  bp : Nat
  /-- `IB`: the input byte buffer (R36; 20_memory.md R60). -/
  ib : List Byte
  /-- `OB`: the output byte buffer (R36; 20_memory.md R61). -/
  ob : List Byte
  /-- `TK`: the token buffer (R36; 20_memory.md R62). -/
  tk : List Token
  /-- `BS`: the bit-string buffer (R36; 20_memory.md R63). -/
  bs : Bits
  /-- `DICT`: the phrases, by code (R37; 20_memory.md R64). -/
  dict : List Phrase
  /-- `W`: the current match (R27). -/
  w : Phrase
  /-- `PREV`: the previous phrase (R27). -/
  prev : Phrase
  /-- `ENTRY`: the phrase of the token being decoded (R27). -/
  entry : Phrase
  /-- `ACC`: the omega accumulator (R27, R28; log 9). -/
  acc : Nat
  /-- `L`: a bit length (R27, R28; log 9). -/
  l : Nat
  /-- `HV`: the header value (R27). -/
  hv : Nat
  /-- `CNT`: the expected token count (R27). -/
  cnt : Nat
  /-- `PHASE`: the component now working (R31). -/
  phase : Phase
  /-- `IP`: index of the next byte of `IB` to consume (R31). -/
  ip : Nat
  /-- `TP`: index of the next token of `TK` to consume (R31). -/
  tp : Nat
  /-- The build's parameters (00_scope.md R10); no step changes them (log 2). -/
  params : Params
  /-- The host's pending moves, first to come first (45_host_interface.md R240; log 1). -/
  hostIn : List HostMove
  /-- What `READ` has returned to the host, oldest first (log 1). -/
  hostOut : List ReadValue
  /-- How many unspecified values `READ` has returned (log 5). -/
  freeCtr : Nat
  deriving DecidableEq, Repr

/-- The machine right after reset (10_state.md R40; 70_reset_and_hazards.md R300), built with the default parameters
of 00_scope.md R10 and with a host that has nothing to do. -/
def State.reset : State where
  cmd := 0x00
  status := 0x00
  n := 0
  bp := 0
  ib := []
  ob := []
  tk := []
  bs := []
  dict := []
  w := []
  prev := []
  entry := []
  acc := 0
  l := 0
  hv := 0
  cnt := 0
  phase := .idle
  ip := 0
  tp := 0
  params := Params.default
  hostIn := []
  hostOut := []
  freeCtr := 0

end Sys2Proof.Machine
end

