-- ==== Sys2Proof/Machine/Flags.lean ====
section
/-! DEFINITION. The fields of `STATUS` (10_state.md R24) and every value a run gives it (R41; 60_exceptions.md R261,
R268). -/

namespace Sys2Proof.Machine

/-- Bit 0: a run is in progress. -/
def statusBusy (st : Word8) : Bool := st.getLsbD 0

/-- Bit 1: the last run has ended. -/
def statusDone (st : Word8) : Bool := st.getLsbD 1

/-- Bit 2: the last run stopped with an error. -/
def statusErr (st : Word8) : Bool := st.getLsbD 2

/-- Bit 3: "nothing to do". -/
def statusNtd (st : Word8) : Bool := st.getLsbD 3

/-- Bits 6:4: the error kind. -/
def statusErrCode (st : Word8) : BitVec 3 := st.extractLsb' 4 3

/-- Bit 7: reserved, reads 0. -/
def statusReserved (st : Word8) : Bool := st.getLsbD 7

/-- The code of an error kind (60_exceptions.md R261). -/
def ErrKind.code : ErrKind → Word8
  | .invalidArgument => 1
  | .invalidCode => 2
  | .truncatedStream => 3
  | .corruptHeader => 4
  | .illegalCommand => 5
  | .capacityExceeded => 6

/-- `BUSY=1`, all else 0: what `FreshState` writes (10_state.md R33). -/
def statusStarted : Word8 := 0x01

/-- `NTD <- 1` (44_pipeline.md R220, R222). -/
def setNtd (st : Word8) : Word8 := st ||| 0x08

/-- `BUSY <- 0; DONE <- 1`: the normal end of a run (45_host_interface.md R243). -/
def statusEnded (st : Word8) : Word8 := (st &&& 0xFE) ||| 0x02

/-- `0x06 | (code(E) << 4)`: the error stop (60_exceptions.md R268). -/
def statusError (e : ErrKind) : Word8 := 0x06 ||| (e.code <<< 4)

/-- `BUSY <- 0` and nothing else, for `State.withFetchWord`. -/
def clearBusy (st : Word8) : Word8 := st &&& 0xFE

end Sys2Proof.Machine
end

