-- ==== Sys2Proof/Machine/Operands.lean ====
section
/-! DEFINITION. Bit strings and numbers (00_scope.md R12, R13), bytes as bits (20_memory.md R67), and the Fibonacci
numbers (41_universal_codec.md R170). -/

namespace Sys2Proof.Machine

/-- `blen(n)`, the bit length: the unique `L >= 1` with `2^(L-1) <= n < 2^L` for `n >= 1` (00_scope.md R13); 0 for 0. -/
def blen (n : Nat) : Nat := if n = 0 then 0 else Nat.log2 n + 1

/-- The low `k` bits of `n`, most significant first. -/
def lowBits : Nat → Nat → Bits
  | 0, _ => []
  | k + 1, n => lowBits k (n / 2) ++ [n % 2 == 1]

/-- `bin(n)`, the `blen(n)`-bit string of `n` in base 2, most significant bit first (00_scope.md R13). -/
def bin (n : Nat) : Bits := lowBits (blen n) n

/-- `val(s)`: `val("") = 0`, `val(s ++ "b") = 2 * val(s) + b` (00_scope.md R13). -/
def val (s : Bits) : Nat := s.foldl (fun a b => 2 * a + b.toNat) 0

/-- `zeros(k)` (00_scope.md R12). -/
def zeros (k : Nat) : Bits := List.replicate k false

/-- `s[i .. j)`: bits `i` to `j - 1` (00_scope.md R12). -/
def slice (s : Bits) (i j : Nat) : Bits := (s.drop i).take (j - i)

/-- The eight bits of a byte, bit 7 first (20_memory.md R67; 42_bit_byte_packer.md R193). -/
def byteBits (b : Byte) : Bits := (List.range 8).map fun i => b.getLsbD (7 - i)

/-- The byte of eight bits, the first its bit 7 (20_memory.md R67; 42_bit_byte_packer.md R191). -/
def byteOfBits (s : Bits) : Byte := BitVec.ofNat 8 (val s)

/-- `(F(k), F(k+1))`, with `F(0) = 1` so that `F(2) = F(1) + F(0)`. -/
def fibPair : Nat → Nat × Nat
  | 0 => (1, 1)
  | k + 1 => ((fibPair k).2, (fibPair k).1 + (fibPair k).2)

/-- `F(k)` for `k >= 1`: `F(1) = 1`, `F(2) = 2`, `F(k) = F(k-1) + F(k-2)` (41_universal_codec.md R170; 30_encoding.md
R104; PRESUMED by the spec itself, log 16). -/
def fibF (k : Nat) : Nat := (fibPair k).1

/-- Raise `m` while the next Fibonacci number is still at most `n`. -/
def fibTopFrom : Nat → Nat → Nat → Nat
  | 0, m, _ => m
  | fuel + 1, m, n => if fibF (m + 1) ≤ n then fibTopFrom fuel (m + 1) n else m

/-- `top(n)` for `n >= 1`: the largest `m` with `F(m) <= n` (41_universal_codec.md R170). -/
def fibTop (n : Nat) : Nat := fibTopFrom n 1 n

/-- The greedy digits `d[1] .. d[m]` of `r`, chosen from `F(m)` down (41_universal_codec.md R171). -/
def fibDigits : Nat → Nat → Bits
  | 0, _ => []
  | k + 1, r =>
    if fibF (k + 1) ≤ r then fibDigits k (r - fibF (k + 1)) ++ [true] else fibDigits k r ++ [false]

end Sys2Proof.Machine
end

