-- ==== Sys2Proof/Machine/Ops.lean ====
section
/-! DEFINITION. The operations every command shares: the length registers, the primitives of 00_scope.md R15 with the
capacity test of 60_exceptions.md R283, `FreshState`, the write sets, the normal end of a run, and taking an error
(60_exceptions.md R268). There is no return from an error (R276). -/

namespace Sys2Proof.Machine

/-! ## Length registers (10_state.md R22, R36; log 7) -/

/-- `IB_LEN`. -/
def State.ibLen (s : State) : Nat := s.ib.length

/-- `OB_LEN`. -/
def State.obLen (s : State) : Nat := s.ob.length

/-- `TK_LEN`. -/
def State.tkLen (s : State) : Nat := s.tk.length

/-- `BS_LEN`. -/
def State.bsLen (s : State) : Nat := s.bs.length

/-- `NC`: the next free dictionary code, equal to the dictionary size (R26). -/
def State.nc (s : State) : Nat := s.dict.length

/-- `STATUS.BUSY`. -/
def State.busy (s : State) : Bool := statusBusy s.status

/-! ## A run in progress -/

/-- What a piece of a run leaves: the state to go on from, or the error it raised and the state at that point
(00_scope.md R15, `raise`). -/
inductive Run where
  | ok (s : State)
  | raised (e : ErrKind) (s : State)
  deriving DecidableEq, Repr

/-- Go on after a piece of a run; a raised error ends the run (60_exceptions.md R269, R272). -/
def Run.bind (r : Run) (f : State → Run) : Run :=
  match r with
  | .ok s => f s
  | .raised e s => .raised e s

/-- `k` iterations of a loop body. -/
def Run.times : Nat → (State → Run) → State → Run
  | 0, _, s => .ok s
  | k + 1, f, s => (f s).bind (Run.times k f)

/-! ## Appending (00_scope.md R15; 60_exceptions.md R283)

An `Append` of several elements is one `Append` per element in the spec; here one test is made for all of them, which
ends every run in the same state (log 14). -/

/-- `Append(OB, b)` for the bytes `v` in order (40_lzw_engine.md R139 `AppendPhrase`). -/
def appendOB (v : List Byte) (s : State) : Run :=
  if lengthFits s.params.obCap s.params.lenW (s.obLen + v.length) then .ok { s with ob := s.ob ++ v }
  else .raised .capacityExceeded s

/-- `Append(TK, t)` for the tokens `v` in order. -/
def appendTK (v : List Token) (s : State) : Run :=
  if lengthFits s.params.tkCap s.params.lenW (s.tkLen + v.length) then .ok { s with tk := s.tk ++ v }
  else .raised .capacityExceeded s

/-- `Append(BS, v)` for the bit string `v`, leftmost bit first. -/
def appendBS (v : Bits) (s : State) : Run :=
  if lengthFits s.params.bsCap s.params.lenW (s.bsLen + v.length) then .ok { s with bs := s.bs ++ v }
  else .raised .capacityExceeded s

/-! ## The dictionary (10_state.md R37; 40_lzw_engine.md R131, R132) -/

/-- The 256 single-byte phrases of codes 0 to 255. -/
def seedDict : List Phrase := (List.range 256).map fun c => [BitVec.ofNat 8 c]

/-- `InitDict` (40_lzw_engine.md R131). A finite build that cannot hold 256 entries of length 1 stops (60_exceptions.md
R283; log 13). -/
def initDict (s : State) : Run :=
  if atMost s.params.dictCap 256 && (s.params.tokenW.elim true fun w => 256 ≤ 2 ^ w) && atMost s.params.phraseCap 1 then
    .ok { s with dict := seedDict }
  else .raised .capacityExceeded s

/-- `Find(p)`: the code `c < NC` with `MemRead(DICT, c) = p`, or none (10_state.md R37). -/
def findCode (d : List Phrase) (p : Phrase) : Option Nat := d.findIdx? fun q => q == p

/-- `Insert(p)`: `p` becomes the phrase of code `NC`, then `NC` grows by one (40_lzw_engine.md R132). -/
def insertPhrase (p : Phrase) (s : State) : Run :=
  if atMost s.params.dictCap (s.nc + 1) && fitsWidth s.params.tokenW s.nc && atMost s.params.phraseCap p.length then
    .ok { s with dict := s.dict ++ [p] }
  else .raised .capacityExceeded s

/-! ## Write sets (20_memory.md R65) -/

/-- What a command writes, besides `STATUS`, `CMD` and its own working state. -/
inductive Dest where
  | ob
  | tk
  | bs
  | dict
  | nc
  | n
  | bp
  deriving DecidableEq, Repr, Inhabited

/-- The "Writes (cleared first)" column of 20_memory.md R65. -/
def writeSet : Instr → List Dest
  | .compressG | .compressD | .compressO | .compressF => [.tk, .bs, .ob, .dict, .nc]
  | .decompressG | .decompressD | .decompressO | .decompressF => [.bs, .tk, .ob, .dict, .nc, .bp]
  | .lzwe => [.tk, .dict, .nc]
  | .lzwd => [.ob, .dict, .nc]
  | .serG | .serD | .serO | .serF => [.bs, .ob]
  | .desG | .desD | .desO | .desF => [.bs, .tk, .bp]
  | .uencG | .uencD | .uencO | .uencF => [.bs]
  | .udecG | .udecD | .udecO | .udecF => [.n, .bp]
  | .pack => [.ob]
  | .unpack => [.bs]

/-- `Clear(B)` for every buffer of the write set; a register of it is not cleared here (20_memory.md R65). -/
def clearBuffers (ws : List Dest) (s : State) : State :=
  { s with
    ob := if ws.contains .ob then [] else s.ob
    tk := if ws.contains .tk then [] else s.tk
    bs := if ws.contains .bs then [] else s.bs
    dict := if ws.contains .dict then [] else s.dict }

/-! ## The start and the normal end of a run -/

/-- The working and sequencer values `FreshState`, the error stop and reset share (10_state.md R33; 60_exceptions.md
R268; 70_reset_and_hazards.md R302). `PHASE` and `STATUS` are not among them. -/
def freshWorking (s : State) : State :=
  { s with
    w := [], prev := [], entry := [], dict := [], acc := 0, l := 0, hv := 0, cnt := 0, ip := 0, tp := 0, bp := 0 }

/-- `FreshState` (10_state.md R33). -/
def freshState (s : State) : State := { freshWorking s with status := statusStarted }

/-- `CMD <- c; FreshState`: the first two lines of `START c` (45_host_interface.md R243). -/
def startRun (c : Word8) (s : State) : State := freshState { s with cmd := c }

/-- The last two lines of `START c`: `BUSY <- 0; DONE <- 1; PHASE <- IDLE` (45_host_interface.md R243). -/
def endRun (s : State) : State := { s with status := statusEnded s.status, phase := .idle }

/-! ## Taking an error (60_exceptions.md R268) -/

/-- `raise E` in a run whose write set is `ws`: the outputs emptied, the fresh working state, `STATUS` with the code,
the engine idle. -/
def errorStop (ws : List Dest) (e : ErrKind) (s : State) : State :=
  let cleared := clearBuffers ws s
  { freshWorking cleared with
    n := if ws.contains .n then 0 else s.n
    status := statusError e
    phase := .idle }

/-- The state a finished run leaves: its normal end, or the error stop. -/
def finishRun (ws : List Dest) : Run → State
  | .ok s => endRun s
  | .raised e s => errorStop ws e s

/-- The state a run of command `i` starts its rule from: `CMD` written, fresh, its write set cleared
(45_host_interface.md R243; 20_memory.md R65). -/
def beginCommand (i : Instr) (s : State) : State := clearBuffers (writeSet i) (startRun (encode i) s)

/-- One whole run of command `i`, whose rule is `rule`, as one transition (45_host_interface.md R243; 20_memory.md
R76). A run always ends, so the outcome is always a next state. -/
def runCommand (i : Instr) (rule : State → Run) (s : State) : Host.Outcome State Fault Refusal :=
  .next (finishRun (writeSet i) (rule (beginCommand i s)))

/-- `START c` of an illegal word: `IllegalCommand` right after `FreshState`, with the empty write set
(30_encoding.md R97; 60_exceptions.md R266, R268). -/
def illegalCommand (c : Word8) (s : State) : State := errorStop [] .illegalCommand (startRun c s)

end Sys2Proof.Machine
end

