-- ==== Sys2Proof/Machine/Packer.lean ====
section
/-! DEFINITION. The Bit/Byte Packer (42_bit_byte_packer.md): the commands `PACK` (R191) and `UNPACK` (R193). -/

namespace Sys2Proof.Machine

/-! ## PACK -/

/-- `ceil(BS_LEN / 8)`, "(BS_LEN + 7) div 8" (42_bit_byte_packer.md R191). -/
def packedLen (bits : Nat) : Nat := (bits + 7) / 8

/-- Bits `8j .. 8j+7` of `BS`, a pad bit being 0 (42_bit_byte_packer.md R191). -/
def paddedGroup (bs : Bits) (j : Nat) : Bits := (List.range 8).map fun i => bs.getD (8 * j + i) false

/-- `PHASE <- PACK; Clear(OB)` (42_bit_byte_packer.md R191). -/
def enterPack (s : State) : Run := .ok { s with phase := .pack, ob := [] }

/-- One byte of the loop of 42_bit_byte_packer.md R191: byte `j = OB_LEN`. -/
def packByte (s : State) : Run := appendOB [byteOfBits (paddedGroup s.bs s.obLen)] s

/-- The loop, from the entered phase. -/
def packWork (s : State) : Run := Run.times (packedLen s.bsLen - s.obLen) packByte s

/-- `PACK` (42_bit_byte_packer.md R191). -/
def packPhase (s : State) : Run := (enterPack s).bind packWork

/-- `PACK`. -/
def execPack (s : State) : Host.Outcome State Fault Refusal := runCommand .pack packPhase s

/-! ## UNPACK -/

/-- `PHASE <- UNPACK; Clear(BS); IP <- 0` (42_bit_byte_packer.md R193). -/
def enterUnpack (s : State) : Run := .ok { s with phase := .unpack, bs := [], ip := 0 }

/-- One iteration of the loop of 42_bit_byte_packer.md R193: one byte expanded, bit 7 first. -/
def unpackByte (s : State) : Run :=
  match s.ib[s.ip]? with
  | none => .ok s
  | some b => appendBS (byteBits b) { s with ip := s.ip + 1 }

/-- The loop, from the entered phase. -/
def unpackWork (s : State) : Run := Run.times (s.ibLen - s.ip) unpackByte s

/-- `UNPACK` (42_bit_byte_packer.md R193). -/
def unpackPhase (s : State) : Run := (enterUnpack s).bind unpackWork

/-- `UNPACK`. -/
def execUnpack (s : State) : Host.Outcome State Fault Refusal := runCommand .unpack unpackPhase s

end Sys2Proof.Machine
end

