-- ==== Sys2Proof/Machine/UniversalCodec.lean ====
section
/-! DEFINITION. The Universal Integer Codec (41_universal_codec.md): the functions `enc` and `dec` of the four schemes
and the commands `UENC.s` (R153) and `UDEC.s` (R154). -/

namespace Sys2Proof.Machine

/-! ## Encoding -/

/-- The gamma code word of `n >= 1`: `zeros(L-1) ++ bin(n)` (41_universal_codec.md R155). -/
def gammaWord (n : Nat) : Bits := zeros (blen n - 1) ++ bin n

/-- The delta code word of `n >= 1`: `enc(G, L) ++ bin(n)[1 .. L)` (41_universal_codec.md R160). -/
def deltaWord (n : Nat) : Bits := gammaWord (blen n) ++ slice (bin n) 1 (blen n)

/-- The loop of 41_universal_codec.md R165, the test before each prepend; `cur` falls at every turn, so `fuel = n`
suffices. -/
def omegaGroups : Nat → Nat → Bits → Bits
  | 0, _, code => code
  | fuel + 1, cur, code => if cur = 1 then code else omegaGroups fuel (blen cur - 1) (bin cur ++ code)

/-- The omega code word of `n >= 1` (41_universal_codec.md R165). -/
def omegaWord (n : Nat) : Bits := omegaGroups n n [] ++ [false]

/-- The Fibonacci code word of `n >= 1`: the digits, smallest Fibonacci number first, then `1` (41_universal_codec.md
R171; 90_conflicts.md C1). -/
def fibWord (n : Nat) : Bits := fibDigits (fibTop n) n ++ [true]

/-- The code word of `n >= 1` under a scheme. -/
def codeWord (sch : Scheme) (n : Nat) : Bits :=
  match sch with
  | .gamma => gammaWord n
  | .delta => deltaWord n
  | .omega => omegaWord n
  | .fibonacci => fibWord n

/-- `enc(s, n)` (41_universal_codec.md R151, R152): `n = 0` raises `InvalidArgumentError` before any bit; with a finite
`TOKEN_W` a value not below `2^TOKEN_W` is not accepted (R178; log 12). -/
def enc (tokenW : Option Nat) (sch : Scheme) (n : Nat) : Except ErrKind Bits :=
  if n = 0 then .error .invalidArgument
  else if fitsWidth tokenW n then .ok (codeWord sch n)
  else .error .capacityExceeded

/-! ## Decoding

Each decoder reads the bits `r` from its start position on, and answers the value and how many bits it consumed. -/

/-- `dec` "raises `CapacityExceeded` instead of returning a value >= `2^TOKEN_W`" (41_universal_codec.md R178; log 12). -/
def returnValue (tokenW : Option Nat) (v used : Nat) : Except ErrKind (Nat × Nat) :=
  if fitsWidth tokenW v then .ok (v, used) else .error .capacityExceeded

/-- The number of leading `0` bits. -/
def leadingZeros : Bits → Nat
  | false :: r => leadingZeros r + 1
  | _ => 0

/-- `dec(G, p)` (41_universal_codec.md R157): the `1` that ends the zero run is the first of the next `L` bits. -/
def decGamma (tokenW : Option Nat) (r : Bits) : Except ErrKind (Nat × Nat) :=
  let z := leadingZeros r
  if r.length ≤ z then .error .truncatedStream
  else
    let len := z + 1
    if r.length < z + len then .error .truncatedStream
    else returnValue tokenW (val (slice r z (z + len))) (z + len)

/-- `dec(D, p)` (41_universal_codec.md R162). -/
def decDelta (tokenW : Option Nat) (r : Bits) : Except ErrKind (Nat × Nat) :=
  match decGamma tokenW r with
  | .error e => .error e
  | .ok (len, p) =>
    if r.length < p + (len - 1) then .error .truncatedStream
    else returnValue tokenW (2 ^ (len - 1) + val (slice r p (p + (len - 1)))) (p + (len - 1))

/-- The loop of 41_universal_codec.md R167: the tested `1` is the first bit of its group (R168). Every group consumes
a bit, so `fuel` above the number of bits suffices. -/
def decOmegaFrom (tokenW : Option Nat) : Nat → Nat → Nat → Bits → Except ErrKind (Nat × Nat)
  | 0, _, _, _ => .error .truncatedStream
  | _ + 1, _, _, [] => .error .truncatedStream
  | _ + 1, acc, used, false :: _ => returnValue tokenW acc (used + 1)
  | fuel + 1, acc, used, true :: r =>
    let k := acc + 1
    if (true :: r).length < k then .error .truncatedStream
    else decOmegaFrom tokenW fuel (val ((true :: r).take k)) (used + k) ((true :: r).drop k)

/-- `dec(O, p)` (41_universal_codec.md R167). -/
def decOmega (tokenW : Option Nat) (r : Bits) : Except ErrKind (Nat × Nat) :=
  decOmegaFrom tokenW (r.length + 1) 1 0 r

/-- The loop of 41_universal_codec.md R173: `k` the index of the next digit, `sum` so far, the bit before. -/
def decFibFrom (tokenW : Option Nat) : Nat → Nat → Bool → Bits → Except ErrKind (Nat × Nat)
  | _, _, _, [] => .error .truncatedStream
  | k, sum, prevbit, b :: r =>
    if b && prevbit then returnValue tokenW sum k
    else decFibFrom tokenW (k + 1) (if b then sum + fibF k else sum) b r

/-- `dec(F, p)` (41_universal_codec.md R173). At digit index `k` it has consumed `k` bits. -/
def decFib (tokenW : Option Nat) (r : Bits) : Except ErrKind (Nat × Nat) := decFibFrom tokenW 1 0 false r

/-- `dec(s, p)` on the bit string `bits` (41_universal_codec.md R151): the value and the index of the first bit after
the code word. -/
def dec (tokenW : Option Nat) (sch : Scheme) (bits : Bits) (p : Nat) : Except ErrKind (Nat × Nat) :=
  let r := bits.drop p
  let result :=
    match sch with
    | .gamma => decGamma tokenW r
    | .delta => decDelta tokenW r
    | .omega => decOmega tokenW r
    | .fibonacci => decFib tokenW r
  match result with
  | .ok (v, used) => .ok (v, p + used)
  | .error e => .error e

/-! ## The codec on the machine's registers -/

/-- What encoding `n` leaves in `ACC` and `L` (10_state.md R27, R28; log 9): gamma and delta set `L`. -/
def noteEncoded (sch : Scheme) (n : Nat) (s : State) : State :=
  match sch with
  | .gamma | .delta => { s with l := blen n }
  | .omega | .fibonacci => s

/-- What decoding the value `v` leaves in `ACC` and `L` (10_state.md R27, R28; log 9): gamma and delta set `L`, omega
sets `ACC`. -/
def noteDecoded (sch : Scheme) (v : Nat) (s : State) : State :=
  match sch with
  | .gamma | .delta => { s with l := blen v }
  | .omega => { s with acc := v }
  | .fibonacci => s

/-- `Append(BS, enc(s, n))`. -/
def appendCode (sch : Scheme) (n : Nat) (s : State) : Run :=
  match enc s.params.tokenW sch n with
  | .ok code => appendBS code (noteEncoded sch n s)
  | .error e => .raised e s

/-- `(v, BP) <- dec(s, BP)`, then `f v`. -/
def readCode (sch : Scheme) (f : Nat → State → Run) (s : State) : Run :=
  match dec s.params.tokenW sch s.bs s.bp with
  | .ok (v, p) => f v (noteDecoded sch v { s with bp := p })
  | .error e => .raised e s

/-! ## UENC.s -/

/-- The first lines of `UENC.s` (41_universal_codec.md R153): `PHASE <- UENC; Clear(BS)`. -/
def enterUenc (s : State) : Run := .ok { s with phase := .uenc, bs := [] }

/-- `Append(BS, enc(s, N))`: `N` itself, no shift (41_universal_codec.md R153; 30_encoding.md R112). -/
def uencNumber (sch : Scheme) (s : State) : Run := appendCode sch s.n s

/-- `UENC.s` (41_universal_codec.md R153). -/
def uencPhase (sch : Scheme) (s : State) : Run := (enterUenc s).bind (uencNumber sch)

/-- `UENC.G`. -/
def execUencG (s : State) : Host.Outcome State Fault Refusal := runCommand .uencG (uencPhase .gamma) s

/-- `UENC.D`. -/
def execUencD (s : State) : Host.Outcome State Fault Refusal := runCommand .uencD (uencPhase .delta) s

/-- `UENC.O`. -/
def execUencO (s : State) : Host.Outcome State Fault Refusal := runCommand .uencO (uencPhase .omega) s

/-- `UENC.F`. -/
def execUencF (s : State) : Host.Outcome State Fault Refusal := runCommand .uencF (uencPhase .fibonacci) s

/-! ## UDEC.s -/

/-- `PHASE <- UDEC` (41_universal_codec.md R154). -/
def enterUdec (s : State) : Run := .ok { s with phase := .udec }

/-- `(v, p') <- dec(s, 0); N <- v; BP <- p'` (41_universal_codec.md R154); `BP` is 0 since `FreshState`. -/
def udecNumber (sch : Scheme) (s : State) : Run := readCode sch (fun v t => .ok { t with n := v }) s

/-- `UDEC.s` (41_universal_codec.md R154). -/
def udecPhase (sch : Scheme) (s : State) : Run := (enterUdec s).bind (udecNumber sch)

/-- `UDEC.G`. -/
def execUdecG (s : State) : Host.Outcome State Fault Refusal := runCommand .udecG (udecPhase .gamma) s

/-- `UDEC.D`. -/
def execUdecD (s : State) : Host.Outcome State Fault Refusal := runCommand .udecD (udecPhase .delta) s

/-- `UDEC.O`. -/
def execUdecO (s : State) : Host.Outcome State Fault Refusal := runCommand .udecO (udecPhase .omega) s

/-- `UDEC.F`. -/
def execUdecF (s : State) : Host.Outcome State Fault Refusal := runCommand .udecF (udecPhase .fibonacci) s

end Sys2Proof.Machine
end

