-- ==== Sys2Proof/Machine/Assembler.lean ====
section
/-! DEFINITION. The Stream Assembler (43_stream_assembler.md): the commands `SER.s` (R201) and `DES.s` (R206). -/

namespace Sys2Proof.Machine

/-! ## SER.s -/

/-- `PHASE <- SER; Clear(BS); Clear(OB); TP <- 0` (43_stream_assembler.md R201). -/
def enterSer (s : State) : Run := .ok { s with phase := .ser, bs := [], ob := [], tp := 0 }

/-- `Append(BS, enc(s, TK_LEN + 1))`, the header (43_stream_assembler.md R201; 30_encoding.md R110). -/
def serHeader (sch : Scheme) (s : State) : Run := appendCode sch (s.tkLen + 1) s

/-- One iteration of the loop of 43_stream_assembler.md R201: the code word of token + 1 (30_encoding.md R109). -/
def serToken (sch : Scheme) (s : State) : Run :=
  match s.tk[s.tp]? with
  | none => .ok s
  | some t => appendCode sch (t + 1) { s with tp := s.tp + 1 }

/-- One step of the phase: the header, or a token (43_stream_assembler.md R203). Nothing is in `BS` before the header. -/
def serUnit (sch : Scheme) (s : State) : Run := if s.bs = [] then serHeader sch s else serToken sch s

/-- The header and the loop, from the entered phase. -/
def serWork (sch : Scheme) (s : State) : Run := (serHeader sch s).bind (Run.times s.tkLen (serToken sch))

/-- The `SER` phase of 43_stream_assembler.md R201. -/
def serPhase (sch : Scheme) (s : State) : Run := (enterSer s).bind (serWork sch)

/-- `SER.s`: the `SER` phase, then `PACK` (43_stream_assembler.md R201). -/
def serRule (sch : Scheme) (s : State) : Run := (serPhase sch s).bind packPhase

/-- `SER.G`. -/
def execSerG (s : State) : Host.Outcome State Fault Refusal := runCommand .serG (serRule .gamma) s

/-- `SER.D`. -/
def execSerD (s : State) : Host.Outcome State Fault Refusal := runCommand .serD (serRule .delta) s

/-- `SER.O`. -/
def execSerO (s : State) : Host.Outcome State Fault Refusal := runCommand .serO (serRule .omega) s

/-- `SER.F`. -/
def execSerF (s : State) : Host.Outcome State Fault Refusal := runCommand .serF (serRule .fibonacci) s

/-! ## DES.s -/

/-- `PHASE <- DES; Clear(TK); BP <- 0` (43_stream_assembler.md R206). -/
def enterDes (s : State) : Run := .ok { s with phase := .des, tk := [], bp := 0 }

/-- The header of 43_stream_assembler.md R206: both tests of the count, in their order (R208). -/
def desHeader (sch : Scheme) (s : State) : Run :=
  readCode sch (fun v s =>
    let s := { s with hv := v }
    if s.hv < 1 then .raised .corruptHeader s
    else
      let s := { s with cnt := s.hv - 1 }
      if s.cnt < 1 && s.params.zeroCountIsCorrupt then .raised .corruptHeader s else .ok s) s

/-- One iteration of the loop of 43_stream_assembler.md R206: one code word, less 1, appended to `TK`. -/
def desToken (sch : Scheme) (s : State) : Run := readCode sch (fun v s => appendTK [v - 1] s) s

/-- One step of the phase: the header, or a token (43_stream_assembler.md R214). `HV` is 0 before the header only. -/
def desUnit (sch : Scheme) (s : State) : Run := if s.hv = 0 then desHeader sch s else desToken sch s

/-- The header and the loop of `CNT` tokens, from the entered phase (43_stream_assembler.md R206, R207). -/
def desWork (sch : Scheme) (s : State) : Run :=
  (desHeader sch s).bind fun s => Run.times s.cnt (desToken sch) s

/-- The `DES` phase of 43_stream_assembler.md R206. -/
def desPhase (sch : Scheme) (s : State) : Run := (enterDes s).bind (desWork sch)

/-- `DES.s`: `UNPACK`, then the `DES` phase (43_stream_assembler.md R206). -/
def desRule (sch : Scheme) (s : State) : Run := (unpackPhase s).bind (desPhase sch)

/-- `DES.G`. -/
def execDesG (s : State) : Host.Outcome State Fault Refusal := runCommand .desG (desRule .gamma) s

/-- `DES.D`. -/
def execDesD (s : State) : Host.Outcome State Fault Refusal := runCommand .desD (desRule .delta) s

/-- `DES.O`. -/
def execDesO (s : State) : Host.Outcome State Fault Refusal := runCommand .desO (desRule .omega) s

/-- `DES.F`. -/
def execDesF (s : State) : Host.Outcome State Fault Refusal := runCommand .desF (desRule .fibonacci) s

end Sys2Proof.Machine
end

