-- ==== Sys2Proof/Machine/LzwEngine.lean ====
section
/-! DEFINITION. The LZW Dictionary Engine (40_lzw_engine.md): the commands `LZWE` (R133) and `LZWD` (R139). -/

namespace Sys2Proof.Machine

/-! ## LZWE -/

/-- `PHASE <- LZWE; Clear(TK); InitDict; W <- []; IP <- 0` (40_lzw_engine.md R133). -/
def enterLzwe (s : State) : Run :=
  (initDict { s with phase := .lzwe, tk := [] }).bind fun s => .ok { s with w := [], ip := 0 }

/-- `Append(TK, Find(W))`. `W` is always in the dictionary here (40_lzw_engine.md R135 (d), R136 (a)); in a state no
run reaches where it is not, nothing is appended (log 15). -/
def emitMatch (s : State) : Run := appendTK (findCode s.dict s.w).toList s

/-- One iteration of the loop of 40_lzw_engine.md R133: one byte of `IB` consumed (R137). -/
def lzweByte (s : State) : Run :=
  match s.ib[s.ip]? with
  | none => .ok s
  | some b =>
    let s := { s with ip := s.ip + 1 }
    let wx := s.w ++ [b]
    match findCode s.dict wx with
    | some _ => .ok { s with w := wx }
    | none => ((emitMatch s).bind (insertPhrase wx)).bind fun s => .ok { s with w := [b] }

/-- The final flush: `if W != []: Append(TK, Find(W))` (40_lzw_engine.md R133). -/
def lzweFlush (s : State) : Run := if s.w = [] then .ok s else emitMatch s

/-- The loop and the flush, from the entered phase. -/
def lzweWork (s : State) : Run := (Run.times (s.ibLen - s.ip) lzweByte s).bind lzweFlush

/-- `LZWE` (40_lzw_engine.md R133). -/
def lzwePhase (s : State) : Run := (enterLzwe s).bind lzweWork

/-- `LZWE`. -/
def execLzwe (s : State) : Host.Outcome State Fault Refusal := runCommand .lzwe lzwePhase s

/-! ## LZWD -/

/-- `PHASE <- LZWD; Clear(OB); InitDict; TP <- 0` (40_lzw_engine.md R139). -/
def enterLzwd (s : State) : Run :=
  (initDict { s with phase := .lzwd, ob := [] }).bind fun s => .ok { s with tp := 0 }

/-- The first-token block of 40_lzw_engine.md R139: nothing when there is no token (R143); a first token that is no
literal is `InvalidCodeError` (R142). -/
def lzwdFirst (s : State) : Run :=
  match s.tk[s.tp]? with
  | none => .ok s
  | some t =>
    let s := { s with tp := s.tp + 1 }
    match s.dict[t]? with
    | none => .raised .invalidCode s
    | some p => appendOB p { s with prev := p }

/-- `PREV ++ [PREV[0]]`; `PREV` is never empty inside the loop (40_lzw_engine.md R140; log 15). -/
def selfReferential (prev : Phrase) : Phrase := prev ++ prev.take 1

/-- The three-way test of 40_lzw_engine.md R140: the phrase of token `t`, or none for an invalid token. -/
def tokenPhrase (dict : List Phrase) (prev : Phrase) (t : Token) : Option Phrase :=
  if t < dict.length then dict[t]?
  else if t = dict.length then some (selfReferential prev)
  else none

/-- One iteration of the loop of 40_lzw_engine.md R139: one token after the first consumed (R149). -/
def lzwdNext (s : State) : Run :=
  match s.tk[s.tp]? with
  | none => .ok s
  | some t =>
    let s := { s with tp := s.tp + 1 }
    match tokenPhrase s.dict s.prev t with
    | none => .raised .invalidCode s
    | some p =>
      ((appendOB p { s with entry := p }).bind (insertPhrase (s.prev ++ p.take 1))).bind fun s =>
        .ok { s with prev := s.entry }

/-- One step of the phase: the first token, or a later one (40_lzw_engine.md R149). -/
def lzwdToken (s : State) : Run := if s.tp = 0 then lzwdFirst s else lzwdNext s

/-- The first-token block and the loop, from the entered phase. -/
def lzwdWork (s : State) : Run := (lzwdFirst s).bind (Run.times (s.tkLen - 1) lzwdNext)

/-- `LZWD` (40_lzw_engine.md R139). -/
def lzwdPhase (s : State) : Run := (enterLzwd s).bind lzwdWork

/-- `LZWD`. -/
def execLzwd (s : State) : Host.Outcome State Fault Refusal := runCommand .lzwd lzwdPhase s

end Sys2Proof.Machine
end

