-- ==== Sys2Proof/Machine/Pipeline.lean ====
section
/-! DEFINITION. The whole pipeline (44_pipeline.md): the commands `COMPRESS.s` (R220) and `DECOMPRESS.s` (R225). -/

namespace Sys2Proof.Machine

/-- `COMPRESS.s` after its write set is cleared (44_pipeline.md R220): the "nothing to do" signal on empty input (R222),
else `LZWE`, `SER`, `PACK` in that order (R221). -/
def compressRule (sch : Scheme) (s : State) : Run :=
  if s.ib = [] then .ok { s with status := setNtd s.status }
  else (lzwePhase s).bind (serRule sch)

/-- `COMPRESS.G`. -/
def execCompressG (s : State) : Host.Outcome State Fault Refusal := runCommand .compressG (compressRule .gamma) s

/-- `COMPRESS.D`. -/
def execCompressD (s : State) : Host.Outcome State Fault Refusal := runCommand .compressD (compressRule .delta) s

/-- `COMPRESS.O`. -/
def execCompressO (s : State) : Host.Outcome State Fault Refusal := runCommand .compressO (compressRule .omega) s

/-- `COMPRESS.F`. -/
def execCompressF (s : State) : Host.Outcome State Fault Refusal := runCommand .compressF (compressRule .fibonacci) s

/-- `DECOMPRESS.s` after its write set is cleared (44_pipeline.md R225): nothing on empty input (R227), else `UNPACK`,
`DES`, `LZWD` in that order (R226). -/
def decompressRule (sch : Scheme) (s : State) : Run :=
  if s.ib = [] then .ok s
  else (desRule sch s).bind lzwdPhase

/-- `DECOMPRESS.G`. -/
def execDecompressG (s : State) : Host.Outcome State Fault Refusal := runCommand .decompressG (decompressRule .gamma) s

/-- `DECOMPRESS.D`. -/
def execDecompressD (s : State) : Host.Outcome State Fault Refusal := runCommand .decompressD (decompressRule .delta) s

/-- `DECOMPRESS.O`. -/
def execDecompressO (s : State) : Host.Outcome State Fault Refusal := runCommand .decompressO (decompressRule .omega) s

/-- `DECOMPRESS.F`. -/
def execDecompressF (s : State) : Host.Outcome State Fault Refusal :=
  runCommand .decompressF (decompressRule .fibonacci) s

end Sys2Proof.Machine
end

