-- ==== Sys2Proof/Machine/Dispatch.lean ====
section
/-! DEFINITION. One arm per command. -/

namespace Sys2Proof.Machine

def exec (i : Instr) (s : State) : Host.Outcome State Fault Refusal :=
  match i with
  -- 44_pipeline.md R220
  | .compressG => Sys2Proof.Machine.execCompressG s
  | .compressD => Sys2Proof.Machine.execCompressD s
  | .compressO => Sys2Proof.Machine.execCompressO s
  | .compressF => Sys2Proof.Machine.execCompressF s
  -- 44_pipeline.md R225
  | .decompressG => Sys2Proof.Machine.execDecompressG s
  | .decompressD => Sys2Proof.Machine.execDecompressD s
  | .decompressO => Sys2Proof.Machine.execDecompressO s
  | .decompressF => Sys2Proof.Machine.execDecompressF s
  -- 40_lzw_engine.md R133, R139
  | .lzwe => Sys2Proof.Machine.execLzwe s
  | .lzwd => Sys2Proof.Machine.execLzwd s
  -- 43_stream_assembler.md R201
  | .serG => Sys2Proof.Machine.execSerG s
  | .serD => Sys2Proof.Machine.execSerD s
  | .serO => Sys2Proof.Machine.execSerO s
  | .serF => Sys2Proof.Machine.execSerF s
  -- 43_stream_assembler.md R206
  | .desG => Sys2Proof.Machine.execDesG s
  | .desD => Sys2Proof.Machine.execDesD s
  | .desO => Sys2Proof.Machine.execDesO s
  | .desF => Sys2Proof.Machine.execDesF s
  -- 41_universal_codec.md R153
  | .uencG => Sys2Proof.Machine.execUencG s
  | .uencD => Sys2Proof.Machine.execUencD s
  | .uencO => Sys2Proof.Machine.execUencO s
  | .uencF => Sys2Proof.Machine.execUencF s
  -- 41_universal_codec.md R154
  | .udecG => Sys2Proof.Machine.execUdecG s
  | .udecD => Sys2Proof.Machine.execUdecD s
  | .udecO => Sys2Proof.Machine.execUdecO s
  | .udecF => Sys2Proof.Machine.execUdecF s
  -- 42_bit_byte_packer.md R191, R193
  | .pack => Sys2Proof.Machine.execPack s
  | .unpack => Sys2Proof.Machine.execUnpack s

end Sys2Proof.Machine
end

