-- ==== Sys2Proof/Machine/Engine.lean ====
section
/-! DEFINITION. The engine one step at a time: the step forms of 40_lzw_engine.md R137, R149, 43_stream_assembler.md
R203, R214 and 44_pipeline.md R233, and one step per phase (93_implementation_defined.md U9). The loop bodies are those
of the command rules; where a run stands is read from `CMD`, `PHASE`, the cursors and the lengths (10_state.md R30). -/

namespace Sys2Proof.Machine

/-- The phases of each command, in order (20_memory.md R65; 10_state.md R32; 44_pipeline.md R221, R226). -/
def phasesOf : Instr → List Phase
  | .compressG | .compressD | .compressO | .compressF => [.lzwe, .ser, .pack]
  | .decompressG | .decompressD | .decompressO | .decompressF => [.unpack, .des, .lzwd]
  | .lzwe => [.lzwe]
  | .lzwd => [.lzwd]
  | .serG | .serD | .serO | .serF => [.ser, .pack]
  | .desG | .desD | .desO | .desF => [.unpack, .des]
  | .uencG | .uencD | .uencO | .uencF => [.uenc]
  | .udecG | .udecD | .udecO | .udecF => [.udec]
  | .pack => [.pack]
  | .unpack => [.unpack]

/-- The phase after `ph` in a command's order, if there is one. -/
def nextPhase (i : Instr) (ph : Phase) : Option Phase := ((phasesOf i).dropWhile (· != ph)).tail.head?

/-- The scheme of the run in progress: the `SCHEME` field of the latched word (45_host_interface.md R244). -/
def runScheme (s : State) : Scheme := Scheme.ofBits (Fields.ofWord s.cmd).scheme

/-- The assignments a phase opens with. -/
def enterPhase : Phase → State → Run
  | .idle => .ok
  | .lzwe => enterLzwe
  | .lzwd => enterLzwd
  | .ser => enterSer
  | .des => enterDes
  | .pack => enterPack
  | .unpack => enterUnpack
  | .uenc => enterUenc
  | .udec => enterUdec

/-- The phase has an element left to work on. -/
def phaseMore : Phase → State → Bool
  | .idle, _ => false
  | .lzwe, s => s.ip < s.ibLen
  | .lzwd, s => s.tp < s.tkLen
  | .ser, s => s.bsLen = 0 || s.tp < s.tkLen
  | .des, s => s.hv = 0 || s.tkLen < s.cnt
  | .pack, s => s.obLen < packedLen s.bsLen
  | .unpack, s => s.ip < s.ibLen
  | .uenc, s => s.bsLen = 0
  | .udec, s => s.bp = 0

/-- One element of a phase: a byte, a token, a header or an integer. -/
def phaseUnit (sch : Scheme) : Phase → State → Run
  | .idle => .ok
  | .lzwe => lzweByte
  | .lzwd => lzwdToken
  | .ser => serUnit sch
  | .des => desUnit sch
  | .pack => packByte
  | .unpack => unpackByte
  | .uenc => uencNumber sch
  | .udec => udecNumber sch

/-- What a phase does after its last element: the flush of `LZWE` (40_lzw_engine.md R137), nothing elsewhere. -/
def leavePhase : Phase → State → Run
  | .lzwe, s => lzweFlush s
  | _, s => .ok s

/-- A whole entered phase. -/
def phaseWork (sch : Scheme) : Phase → State → Run
  | .idle => .ok
  | .lzwe => lzweWork
  | .lzwd => lzwdWork
  | .ser => serWork sch
  | .des => desWork sch
  | .pack => packWork
  | .unpack => unpackWork
  | .uenc => uencNumber sch
  | .udec => udecNumber sch

/-- Still in the run, or stopped by an error. -/
def settle (ws : List Dest) : Run → State
  | .ok s => s
  | .raised e s => errorStop ws e s

/-- A phase is over: enter the command's next one, or end the run (45_host_interface.md R243; log 17). -/
def advance (i : Instr) (ph : Phase) (r : Run) : State :=
  match nextPhase i ph with
  | none => finishRun (writeSet i) r
  | some ph' => settle (writeSet i) (r.bind (enterPhase ph'))

/-- The empty-input cases of 44_pipeline.md R222 and R227, which run no phase. -/
def emptyInput (i : Instr) (s : State) : Option State :=
  match i with
  | .compressG | .compressD | .compressO | .compressF =>
    if s.ib = [] then some { s with status := setNtd s.status } else none
  | .decompressG | .decompressD | .decompressO | .decompressF => if s.ib = [] then some s else none
  | _ => none

/-- `START` of a legal word under a granularity finer than a run: the run is begun and its first phase entered. -/
def beginStepped (i : Instr) (s : State) : State :=
  let s := beginCommand i s
  match emptyInput i s with
  | some s => endRun s
  | none => settle (writeSet i) (enterPhase ((phasesOf i).headD .idle) s)

/-- One step of command `i`'s run, whose phase is `s.phase`: one element, or one phase. -/
def runStep (i : Instr) (s : State) : State :=
  match s.params.grain with
  | .perPhase => advance i s.phase (phaseWork (runScheme s) s.phase s)
  | _ =>
    if phaseMore s.phase s then settle (writeSet i) (phaseUnit (runScheme s) s.phase s)
    else advance i s.phase (leavePhase s.phase s)

/-- One step of the engine while `BUSY = 1`. A `CMD` and a `PHASE` that are not those of a run in progress, which no run
reaches, stop the model (log 6). -/
def engineStep (s : State) : Host.Outcome State Fault Refusal :=
  match decode s.cmd with
  | .ok i => if (phasesOf i).contains s.phase then .next (runStep i s) else .fault .strayPhase
  | .error _ => .fault .strayPhase

end Sys2Proof.Machine
end

