-- ==== Sys2Proof/Machine/HostMoves.lean ====
section
/-! DEFINITION. The host's moves (45_host_interface.md R240 to R248) with their behaviour while busy
(70_reset_and_hazards.md R310), and which agent moves next (log 4). -/

namespace Sys2Proof.Machine

/-- `RESET`: every register and length at its reset value, always obeyed (45_host_interface.md R241;
70_reset_and_hazards.md R300, R310). The build and the host are not reset (log 20). -/
def hostReset (s : State) : State :=
  { State.reset with params := s.params, hostIn := s.hostIn, hostOut := s.hostOut, freeCtr := s.freeCtr }

/-- `LOAD IB, data` (45_host_interface.md R245): ignored while busy (R310); what the buffer cannot hold is not loaded
(60_exceptions.md R283; log 11). -/
def hostLoadIB (data : List Byte) (s : State) : State :=
  if s.busy then s
  else if lengthFits s.params.ibCap s.params.lenW data.length then { s with ib := data } else s

/-- `LOAD TK, data` (45_host_interface.md R245): as `LOAD IB`, and every token below `2^TOKEN_W`. -/
def hostLoadTK (data : List Token) (s : State) : State :=
  if s.busy then s
  else if lengthFits s.params.tkCap s.params.lenW data.length && data.all (fitsWidth s.params.tokenW) then
    { s with tk := data }
  else s

/-- `LOAD BS, data` (45_host_interface.md R245): as `LOAD IB`. -/
def hostLoadBS (data : Bits) (s : State) : State :=
  if s.busy then s
  else if lengthFits s.params.bsCap s.params.lenW data.length then { s with bs := data } else s

/-- `SET N, v` (45_host_interface.md R246): ignored while busy (R310); only a value below `2^TOKEN_W` (log 11). -/
def hostSetN (v : Nat) (s : State) : State :=
  if s.busy then s
  else if fitsWidth s.params.tokenW v then { s with n := v } else s

/-- `START c` (45_host_interface.md R243): ignored while busy (R310); an illegal word stops with `IllegalCommand`
(60_exceptions.md R266); a legal one runs, in one step or step by step (93_implementation_defined.md U9). -/
def hostStart (c : Word8) (s : State) : Host.Outcome State Fault Refusal :=
  if s.busy then .next s
  else
    match decode c with
    | .error _ => .next (illegalCommand c s)
    | .ok i =>
      match s.params.grain with
      | .perRun => exec i s
      | _ => .next (beginStepped i s)

/-- A write of register `r` (10_state.md R22): `N` is set, a write of `CMD` starts a run, every other register is
read-only and the write is ignored (log 21). -/
def hostSet (r : Reg) (v : Nat) (s : State) : Host.Outcome State Fault Refusal :=
  match r with
  | .n => .next (hostSetN v s)
  | .cmd => hostStart (BitVec.ofNat 8 v) s
  | .status | .ibLen | .obLen | .tkLen | .bsLen | .bp | .nc => .next s

/-- The value of a register or the elements of a buffer (45_host_interface.md R248). -/
def targetValue (x : Target) (s : State) : ReadValue :=
  match x with
  | .reg .cmd => .word s.cmd
  | .reg .status => .word s.status
  | .reg .ibLen => .nat s.ibLen
  | .reg .obLen => .nat s.obLen
  | .reg .tkLen => .nat s.tkLen
  | .reg .bsLen => .nat s.bsLen
  | .reg .n => .nat s.n
  | .reg .bp => .nat s.bp
  | .reg .nc => .nat s.nc
  | .ib => .bytes s.ib
  | .ob => .bytes s.ob
  | .tk => .tokens s.tk
  | .bs => .bits s.bs

/-- "An unspecified value" of the read target's kind (70_reset_and_hazards.md R310; log 5). -/
def unspecifiedValue (x : Target) (k : Nat) : ReadValue :=
  match x with
  | .reg .cmd | .reg .status => .word (Config.busyReadWord k)
  | .reg .ibLen | .reg .obLen | .reg .tkLen | .reg .bsLen | .reg .n | .reg .bp | .reg .nc => .nat (Config.busyReadNat k)
  | .ib | .ob => .bytes (Config.busyReadBytes k)
  | .tk => .tokens (Config.busyReadTokens k)
  | .bs => .bits (Config.busyReadBits k)

/-- What a `READ x` returns, and the counter after it (45_host_interface.md R247, R248; 70_reset_and_hazards.md R310):
`STATUS` is readable at any time, anything else while busy is unspecified. -/
def readResult (x : Target) (s : State) : ReadValue × Nat :=
  if s.busy && x != .reg .status then (unspecifiedValue x s.freeCtr, s.freeCtr + 1)
  else (targetValue x s, s.freeCtr)

/-- `READ x` (45_host_interface.md R248): the value goes to the host; nothing else changes. -/
def hostRead (x : Target) (s : State) : State :=
  { s with hostOut := s.hostOut ++ [(readResult x s).1], freeCtr := (readResult x s).2 }

/-- `MOVE OB, IB`: `READ OB`, then `LOAD IB` with what was read (30_encoding.md R125, R126; log 18). -/
def hostMoveObIb (s : State) : State :=
  match (readResult .ob s).1 with
  | .bytes data => hostLoadIB data (hostRead .ob s)
  | _ => hostRead .ob s

/-- One host move other than `WAIT`. -/
def hostMove (m : HostMove) (s : State) : Host.Outcome State Fault Refusal :=
  match m with
  | .reset => .next (hostReset s)
  | .loadIB data => .next (hostLoadIB data s)
  | .loadTK data => .next (hostLoadTK data s)
  | .loadBS data => .next (hostLoadBS data s)
  | .set r v => hostSet r v s
  | .start c => hostStart c s
  | .wait => .next s
  | .read x => .next (hostRead x s)
  | .moveObIb => .next (hostMoveObIb s)

/-- The host has nothing to do, or polls `STATUS`: a run in progress goes on; an idle engine stays idle
(20_memory.md R76; 70_reset_and_hazards.md R301). -/
def engineTurn (s : State) : Host.Outcome State Fault Refusal :=
  if s.busy then engineStep s else .next s

/-- The next event (log 4): the host's next move, if it has one. A `WAIT` is over when `DONE = 1`; until then the host
polls and the engine works (45_host_interface.md R247; log 19). -/
def nextEvent (s : State) : Host.Outcome State Fault Refusal :=
  match s.hostIn with
  | [] => engineTurn s
  | .wait :: rest => if statusDone s.status then .next { s with hostIn := rest } else engineTurn s
  | m :: rest => hostMove m { s with hostIn := rest }

end Sys2Proof.Machine
end

