-- ==== Sys2Proof/Machine/Step.lean ====
section
/-! DEFINITION. One step of the machine, and how a command word is placed before it. -/

namespace Sys2Proof.Machine

/-- One event: a host move, or one step of the engine. -/
def step (s : State) : Host.Outcome State Fault Refusal := nextEvent s

/-- `s` with `START w` as the host's next move, the engine idle and one step per run, so that the very next step runs
that command (30_encoding.md R90: the low 8 bits, those above `nbits` zero; log 1). At reset only `hostIn` changes. -/
def State.withFetchWord (s : State) (nbits w : Nat) : State :=
  { s with
    hostIn := .start (BitVec.ofNat 8 (w % 2 ^ nbits)) :: s.hostIn
    status := clearBusy s.status
    params := { s.params with grain := .perRun } }

end Sys2Proof.Machine
end

