-- ==== Sys2Proof/Safety.lean ====
section
/-! DEFINITION. What claims call a good state: the legal `STATUS` values (10_state.md R41), coherence of a run in
progress (R31, R32, R42), the dictionary invariants (R38), and buffers within the build (R10; 60_exceptions.md R283). -/

namespace Sys2Proof.Machine

/-- The `STATUS` values after a run has ended (10_state.md R41). -/
def endStatuses : List Word8 := [0x02, 0x0A, 0x16, 0x26, 0x36, 0x46, 0x56, 0x66]

/-- `STATUS` while no run is in progress: 0x00 after reset, else that of the run that ended (10_state.md R41). -/
def IdleStatus (st : Word8) : Prop := st = 0x00 ∨ st ∈ endStatuses

/-- The dictionary invariants of 10_state.md R38 (a), (b), (e), once there is a dictionary. -/
def DictSound (d : List Phrase) : Prop :=
  256 ≤ d.length ∧ d.take 256 = seedDict ∧ ∀ p ∈ d.drop 256, 2 ≤ p.length

/-- No dictionary, or a sound one (10_state.md R26, R38). -/
def DictOk (d : List Phrase) : Prop := d = [] ∨ DictSound d

/-- What holds between any two events: an idle engine, or a run in progress that its command word, its phase and its
cursors describe. -/
structure State.Coherent (s : State) : Prop where
  /-- Idle: a legal status (R41) and `PHASE = IDLE` (R31). -/
  idle : s.busy = false → IdleStatus s.status ∧ s.phase = .idle
  /-- Busy: `STATUS = 0x01` (R41), and `PHASE` is one of the latched command's phases (R32). -/
  busy : s.busy = true → s.status = statusStarted ∧ ∃ i, decode s.cmd = .ok i ∧ s.phase ∈ phasesOf i
  /-- Busy: no cursor is beyond its buffer (R42). -/
  cursors : s.busy = true → s.ip ≤ s.ibLen ∧ s.tp ≤ s.tkLen ∧ s.bp ≤ s.bsLen
  /-- Busy: the token cursor is 0 outside the phases that follow a pass over `TK`, and the bit cursor is 0 outside those
  that follow a pass over `BS` (R31, R33). -/
  fresh : s.busy = true →
    (s.phase ≠ .ser → s.phase ≠ .pack → s.phase ≠ .lzwd → s.tp = 0) ∧
      (s.phase ≠ .des → s.phase ≠ .lzwd → s.phase ≠ .udec → s.bp = 0)
  /-- The dictionary invariants (R38). -/
  dict : DictOk s.dict
  /-- In the engine's phases the dictionary exists (R131). -/
  hasDict : s.busy = true → s.phase = .lzwe ∨ s.phase = .lzwd → DictSound s.dict
  /-- After the first token `PREV` is never empty (40_lzw_engine.md R140). -/
  prevReady : s.busy = true → s.phase = .lzwd → 0 < s.tp → s.prev ≠ []

/-- Every buffer, token, phrase and integer register is within the build's capacities and widths (00_scope.md R10;
60_exceptions.md R283). The buffers themselves are lists of exactly their length, so this is all that memory's form
asks (log 7). -/
def Memory.wf (s : State) : Bool :=
  lengthFits s.params.ibCap s.params.lenW s.ibLen &&
  lengthFits s.params.obCap s.params.lenW s.obLen &&
  lengthFits s.params.tkCap s.params.lenW s.tkLen &&
  lengthFits s.params.bsCap s.params.lenW s.bsLen &&
  s.tk.all (fitsWidth s.params.tokenW) &&
  fitsWidth s.params.tokenW s.n &&
  atMost s.params.dictCap s.nc &&
  (s.params.tokenW.elim true fun w => s.nc ≤ 2 ^ w) &&
  s.dict.all fun p => atMost s.params.phraseCap p.length

end Sys2Proof.Machine
end

