-- ==== Sys2Proof/Certificates/Slice0/Obligations.lean ====
section
/-! DEFINITION. The statements for the provers. Each docstring names the rule of spec/ it formalises. -/

open Sys2Proof Sys2Proof.Machine

namespace Sys2Proof.Claims

/-! ## Command families -/

/-- `COMPRESS.s`. -/
def compressOf (s : Scheme) : Instr := bySchemeOf s .compressG .compressD .compressO .compressF

/-- `DECOMPRESS.s`. -/
def decompressOf (s : Scheme) : Instr := bySchemeOf s .decompressG .decompressD .decompressO .decompressF

/-- `SER.s`. -/
def serOf (s : Scheme) : Instr := bySchemeOf s .serG .serD .serO .serF

/-- `DES.s`. -/
def desOf (s : Scheme) : Instr := bySchemeOf s .desG .desD .desO .desF

/-- `UENC.s`. -/
def uencOf (s : Scheme) : Instr := bySchemeOf s .uencG .uencD .uencO .uencF

/-- `UDEC.s`. -/
def udecOf (s : Scheme) : Instr := bySchemeOf s .udecG .udecD .udecO .udecF

/-- The table of 30_encoding.md R96. -/
def commandTable : List (Word8 × Instr) :=
  [(0x10, .compressG), (0x11, .compressD), (0x12, .compressO), (0x13, .compressF),
   (0x20, .decompressG), (0x21, .decompressD), (0x22, .decompressO), (0x23, .decompressF),
   (0x30, .lzwe), (0x40, .lzwd), (0x90, .pack), (0xA0, .unpack),
   (0x50, .serG), (0x51, .serD), (0x52, .serO), (0x53, .serF),
   (0x60, .desG), (0x61, .desD), (0x62, .desO), (0x63, .desF)] ++
  [(0x70, .uencG), (0x71, .uencD), (0x72, .uencO), (0x73, .uencF),
   (0x80, .udecG), (0x81, .udecD), (0x82, .udecO), (0x83, .udecF)]

/-! ## States -/

/-- The host's next move is `m`, `rest` after it. -/
def nextMove (m : HostMove) (rest : List HostMove) (s : State) : State := { s with hostIn := m :: rest }

/-- The same with `m` made. -/
def afterMove (rest : List HostMove) (s : State) : State := { s with hostIn := rest }

/-- The same state in a build with another step granularity. -/
def withGrain (g : Grain) (s : State) : State := { s with params := { s.params with grain := g } }

/-- The state `raise E` leaves in a run of the word `c` with write set `ws`, begun in `s` (60_exceptions.md R268):
outputs empty, `BP`, `NC`, `DICT` and the working registers fresh, `STATUS` the code, all else as before. -/
def errorState (c : Word8) (ws : List Dest) (e : ErrKind) (s : State) : State :=
  { s with
    cmd := c
    status := 0x06 ||| (e.code <<< 4)
    n := if Dest.n ∈ ws then 0 else s.n
    bp := 0
    ob := if Dest.ob ∈ ws then [] else s.ob
    tk := if Dest.tk ∈ ws then [] else s.tk
    bs := if Dest.bs ∈ ws then [] else s.bs
    dict := [], w := [], prev := [], entry := [], acc := 0, l := 0, hv := 0, cnt := 0
    phase := .idle, ip := 0, tp := 0 }

/-- What a run of `i` from `s` to `t` leaves alone: every buffer and `N` outside the write set (20_memory.md R65), the
fresh value of everything else no phase of the command touches (10_state.md R33), the build and the host. -/
def Frame (i : Instr) (s t : State) : Prop :=
  t.cmd = encode i ∧ t.ib = s.ib ∧
  (.ob ∉ writeSet i → t.ob = s.ob) ∧ (.tk ∉ writeSet i → t.tk = s.tk) ∧ (.bs ∉ writeSet i → t.bs = s.bs) ∧
  (.n ∉ writeSet i → t.n = s.n) ∧ (.bp ∉ writeSet i → t.bp = 0) ∧
  (.nc ∉ writeSet i → t.dict = [] ∧ t.nc = 0) ∧
  (Phase.lzwe ∉ phasesOf i → t.w = []) ∧ (Phase.lzwd ∉ phasesOf i → t.prev = [] ∧ t.entry = []) ∧
  (Phase.des ∉ phasesOf i → t.hv = 0 ∧ t.cnt = 0) ∧
  (Phase.lzwe ∉ phasesOf i → Phase.unpack ∉ phasesOf i → t.ip = 0) ∧
  (Phase.ser ∉ phasesOf i → Phase.lzwd ∉ phasesOf i → t.tp = 0) ∧
  (Phase.ser ∉ phasesOf i → Phase.des ∉ phasesOf i → Phase.uenc ∉ phasesOf i → Phase.udec ∉ phasesOf i →
    t.acc = 0 ∧ t.l = 0) ∧
  t.phase = .idle ∧ t.params = s.params ∧ t.hostIn = s.hostIn ∧ t.hostOut = s.hostOut ∧ t.freeCtr = s.freeCtr

/-- The two states give a run of `i` the same input: the "Reads" column of 20_memory.md R65, and the same build. -/
def SameInput (i : Instr) (s t : State) : Prop :=
  s.params = t.params ∧
  match i with
  | .compressG | .compressD | .compressO | .compressF | .decompressG | .decompressD | .decompressO | .decompressF
  | .lzwe | .desG | .desD | .desO | .desF | .unpack => s.ib = t.ib
  | .lzwd | .serG | .serD | .serO | .serF => s.tk = t.tk
  | .uencG | .uencD | .uencO | .uencF => s.n = t.n
  | .udecG | .udecD | .udecO | .udecF | .pack => s.bs = t.bs

/-- The two states agree on everything a run of `i` writes (20_memory.md R65), `STATUS` and the registers `FreshState`
resets included. -/
def SameOutput (i : Instr) (s t : State) : Prop :=
  s.cmd = t.cmd ∧ s.status = t.status ∧ s.bp = t.bp ∧ s.dict = t.dict ∧
  (.ob ∈ writeSet i → s.ob = t.ob) ∧ (.tk ∈ writeSet i → s.tk = t.tk) ∧ (.bs ∈ writeSet i → s.bs = t.bs) ∧
  (.n ∈ writeSet i → s.n = t.n)

/-- The error kinds a command can raise in an unbounded build (60_exceptions.md R267). -/
def errorsOf : Instr → List ErrKind
  | .decompressG | .decompressD | .decompressO | .decompressF => [.invalidCode, .truncatedStream, .corruptHeader]
  | .lzwd => [.invalidCode]
  | .desG | .desD | .desO | .desF => [.truncatedStream, .corruptHeader]
  | .uencG | .uencD | .uencO | .uencF => [.invalidArgument]
  | .udecG | .udecD | .udecO | .udecF => [.truncatedStream]
  | .compressG | .compressD | .compressO | .compressF | .lzwe | .serG | .serD | .serO | .serF | .pack | .unpack => []

/-! ## Bits, code words, phrases -/

/-- `b` is `bin(n)`: `val(b) = n` and the first bit is 1 (00_scope.md R13). -/
def IsBin (n : Nat) (b : Bits) : Prop := val b = n ∧ ∃ r, b = true :: r

/-- `g` is the gamma code word of `n`: `L - 1` zeros and `bin(n)` (30_encoding.md R100). -/
def IsGamma (n : Nat) (g : Bits) : Prop := ∃ b, IsBin n b ∧ g = List.replicate (b.length - 1) false ++ b

/-- `d` are Zeckendorf digits of `n`, smallest Fibonacci number first: they sum to `n`, the last is 1, no two neighbours
are (30_encoding.md R103). -/
def IsZeckendorf (n : Nat) (d : Bits) : Prop :=
  ((List.range d.length).map fun k => if d.getD k false then fibF (k + 1) else 0).sum = n ∧
  (∃ r, d = r ++ [true]) ∧ ∀ k, ¬(d.getD k false = true ∧ d.getD (k + 1) false = true)

/-- `ob` is `bs` zero-padded to whole bytes, bit `8j` the bit 7 of byte `j` (42_bit_byte_packer.md R191). -/
def IsPacked (bs : Bits) (ob : List Byte) : Prop :=
  ob.length = (bs.length + 7) / 8 ∧
  ∀ j k, j < ob.length → k < 8 → (ob.getD j 0).getLsbD (7 - k) = bs.getD (8 * j + k) false

/-- `bs` is the bytes of `ib` expanded, bit 7 first (42_bit_byte_packer.md R193). -/
def IsUnpacked (ib : List Byte) (bs : Bits) : Prop :=
  bs.length = 8 * ib.length ∧
  ∀ j k, j < ib.length → k < 8 → bs.getD (8 * j + k) false = (ib.getD j 0).getLsbD (7 - k)

/-- The bits of a stream of `tokens` without its pad: the header `enc(s, count + 1)`, then `enc(s, t + 1)` per token
(30_encoding.md R118). -/
def streamBits (sch : Scheme) (tokens : List Token) : Bits :=
  codeWord sch (tokens.length + 1) ++ (tokens.map fun t => codeWord sch (t + 1)).flatten

/-- The phrase of code `c`. -/
def phraseOf (d : List Phrase) (c : Token) : Phrase := d.getD c []

/-- `dict` is the dictionary that a pass over `tokens` builds: the 256 literals, then for each token but the last its
phrase and the first byte of the next one's (40_lzw_engine.md R131, R133, R139). -/
def BuiltBy (tokens : List Token) (dict : List Phrase) : Prop :=
  dict.length = 256 + (tokens.length - 1) ∧
  (∀ c, c < 256 → phraseOf dict c = [BitVec.ofNat 8 c]) ∧
  ∀ k, k + 1 < tokens.length →
    phraseOf dict (256 + k) =
      phraseOf dict (tokens.getD k 0) ++ (phraseOf dict (tokens.getD (k + 1) 0)).take 1

/-- Every token passes the tests of 40_lzw_engine.md R140 and R142: the first is a literal, and token `k` is at most
`NC = 255 + k`. -/
def ValidTokens (tokens : List Token) : Prop := ∀ k, k < tokens.length → tokens.getD k 0 ≤ 255 + k

end Sys2Proof.Claims

open Sys2Proof.Claims

/-! ## Decoding and one step -/

/-- 30_encoding.md R96: each of the 28 words decodes to its command and is that command's word, and no other word is
legal. -/
def Obligations.TwentyEightWordsDecode : Prop :=
  commandTable.length = 28 ∧ (∀ p ∈ commandTable, decode p.1 = .ok p.2 ∧ encode p.2 = p.1) ∧
    ∀ c i, decode c = .ok i → (c, i) ∈ commandTable

/-- 30_encoding.md R98: the order of the tests, and which words are legal. -/
def Obligations.LegalWordsAreThoseOfTheTests : Prop :=
  ∀ c : Word8, (∃ i, decode c = .ok i) ↔
    c.extractLsb' 2 2 = 0 ∧
      (c.extractLsb' 4 4 ∈ [1, 2, 5, 6, 7, 8] ∨ (c.extractLsb' 4 4 ∈ [3, 4, 9, 10] ∧ c.extractLsb' 0 2 = 0))

/-- Decode and encode are inverse to each other (30_encoding.md R96). -/
def Obligations.DecodeEncodeInverse : Prop :=
  (∀ i, decode (encode i) = .ok i) ∧ ∀ c i, decode c = .ok i → encode i = c

/-- A step runs the decoded command: `START c` by an idle engine, one step per run (45_host_interface.md R243). -/
def Obligations.StepRunsDecodedCommand : Prop :=
  ∀ (s : State) (c : Word8) (i : Instr) (rest : List HostMove), s.busy = false → s.params.grain = .perRun →
    decode c = .ok i → step (nextMove (.start c) rest s) = exec i (afterMove rest s)

/-- 60_exceptions.md R266: an illegal word stops with code 5; all buffers and `N` keep their contents, `BP` and `NC` are
0. -/
def Obligations.IllegalWordStopsWithCodeFive : Prop :=
  ∀ (s : State) (c : Word8) (why : IllegalWord) (rest : List HostMove), s.busy = false → decode c = .error why →
    step (nextMove (.start c) rest s) = .next (errorState c [] .illegalCommand (afterMove rest s)) ∧
      (errorState c [] .illegalCommand (afterMove rest s)).status = 0x56

/-- A placed command word is the very next step's command (log 1). -/
def Obligations.PlacedWordRunsNext : Prop :=
  ∀ (s : State) (w : Nat) (i : Instr), decodeTableWord 8 w = some i →
    step (s.withFetchWord 8 w) =
      exec i { s with status := clearBusy s.status, params := { s.params with grain := .perRun } }

/-! ## Reset and the host's moves -/

/-- 10_state.md R40: every register and length after reset; no buffer has an element; the engine is idle and a step
without a host move changes nothing. -/
def Obligations.ResetStateValues : Prop :=
  let s := State.reset
  step s = .next s ∧ s.ib = [] ∧ s.ob = [] ∧ s.tk = [] ∧ s.bs = [] ∧ s.dict = [] ∧
  s.cmd = 0x00 ∧ s.status = 0x00 ∧ s.ibLen = 0 ∧ s.obLen = 0 ∧ s.tkLen = 0 ∧ s.bsLen = 0 ∧ s.n = 0 ∧ s.bp = 0 ∧
    s.nc = 0 ∧ s.phase = .idle ∧ s.ip = 0 ∧ s.tp = 0 ∧ s.w = [] ∧ s.prev = [] ∧ s.entry = [] ∧ s.acc = 0 ∧ s.l = 0 ∧
    s.hv = 0 ∧ s.cnt = 0

/-- 70_reset_and_hazards.md R300: `RESET`, at any time, a run in progress included; the build and the host are not
reset (the model's reading, log 20). -/
def Obligations.ResetMovePutsResetValues : Prop :=
  ∀ (s : State) (rest : List HostMove), step (nextMove .reset rest s) =
    .next { State.reset with params := s.params, hostIn := rest, hostOut := s.hostOut, freeCtr := s.freeCtr }

/-- 45_host_interface.md R245: `LOAD` while idle replaces the whole buffer and nothing else, in a build that can hold
the data. -/
def Obligations.LoadReplacesTheBuffer : Prop :=
  ∀ (s : State) (rest : List HostMove), s.busy = false →
    (∀ d, (HostMove.loadIB d).wf s.params = true →
      step (nextMove (.loadIB d) rest s) = .next { afterMove rest s with ib := d }) ∧
    (∀ d, (HostMove.loadTK d).wf s.params = true →
      step (nextMove (.loadTK d) rest s) = .next { afterMove rest s with tk := d }) ∧
    (∀ d, (HostMove.loadBS d).wf s.params = true →
      step (nextMove (.loadBS d) rest s) = .next { afterMove rest s with bs := d })

/-- What a finite build cannot hold is not loaded and not set (the model's reading of 60_exceptions.md R283, log 11). -/
def Obligations.LoadBeyondTheBuildDoesNotHappen : Prop :=
  ∀ (s : State) (rest : List HostMove) (m : HostMove), m.wf s.params = false →
    step (nextMove m rest s) = .next (afterMove rest s)

/-- 45_host_interface.md R246: `SET N, v` while idle, for `v < 2^TOKEN_W`. -/
def Obligations.SetNWritesNAlone : Prop :=
  ∀ (s : State) (rest : List HostMove) (v : Nat), s.busy = false → fitsWidth s.params.tokenW v = true →
    step (nextMove (.set .n v) rest s) = .next { afterMove rest s with n := v }

/-- 10_state.md R22, the host access column: a write of `CMD` starts a run, a write of a read-only register is
ignored (log 21). -/
def Obligations.RegisterWritesByAccessColumn : Prop :=
  ∀ (s : State) (rest : List HostMove) (v : Nat),
    (step (nextMove (.set .cmd v) rest s) = step (nextMove (.start (BitVec.ofNat 8 v)) rest s)) ∧
    ∀ r ∈ [Reg.status, .ibLen, .obLen, .tkLen, .bsLen, .bp, .nc],
      step (nextMove (.set r v) rest s) = .next (afterMove rest s)

/-- 45_host_interface.md R248: `READ x` while idle returns the register or the whole buffer, and changes nothing else. -/
def Obligations.ReadReturnsTheValue : Prop :=
  ∀ (s : State) (rest : List HostMove) (x : Target), s.busy = false →
    step (nextMove (.read x) rest s) =
      .next { afterMove rest s with
        hostOut := s.hostOut ++
          [match x with
            | .reg .cmd => .word s.cmd
            | .reg .status => .word s.status
            | .reg .ibLen => .nat s.ib.length
            | .reg .obLen => .nat s.ob.length
            | .reg .tkLen => .nat s.tk.length
            | .reg .bsLen => .nat s.bs.length
            | .reg .n => .nat s.n
            | .reg .bp => .nat s.bp
            | .reg .nc => .nat s.dict.length
            | .ib => .bytes s.ib
            | .ob => .bytes s.ob
            | .tk => .tokens s.tk
            | .bs => .bits s.bs] }

/-- `MOVE OB, IB` while idle is `READ OB`, then `LOAD IB` with what was read (30_encoding.md R126; one step, log 18). -/
def Obligations.MoveIsReadThenLoad : Prop :=
  ∀ (s t : State) (rest : List HostMove), s.busy = false →
    step (nextMove (.read .ob) (.loadIB s.ob :: rest) s) = .next t →
    step (nextMove .moveObIb rest s) = step t

/-- `WAIT` is over at once when `DONE = 1`, and changes nothing; until then it lets the engine work, and an idle engine
the host waits for, or leaves alone, stays as it is (45_host_interface.md R247; 70_reset_and_hazards.md R301). That the
engine moves while `WAIT` is pending is the model's choice (log 4); that `WAIT` on an idle engine with `DONE = 0` stays
pending for ever is the model's reading (log 19). -/
def Obligations.WaitPollsUntilDone : Prop :=
  ∀ (s : State) (rest : List HostMove),
    (statusDone s.status = true → step (nextMove .wait rest s) = .next (afterMove rest s)) ∧
    (s.busy = false → statusDone s.status = false → step (nextMove .wait rest s) = .next (nextMove .wait rest s)) ∧
    (s.busy = false → step (afterMove [] s) = .next (afterMove [] s)) ∧
    (∀ t, s.busy = true → statusDone s.status = false → step (afterMove [] s) = .next t →
      step (nextMove .wait rest s) = .next (nextMove .wait rest t))

/-- 70_reset_and_hazards.md R310, while a run is in progress: `LOAD`, `SET`, `START` are ignored; a `READ` of anything
but `STATUS` gives the host some value and changes nothing else (the value's form is the model's, log 5); `STATUS` reads 0x01; `RESET` is obeyed. -/
def Obligations.BusyHostAccess : Prop :=
  ∀ (s : State) (rest : List HostMove), s.Coherent → s.busy = true →
    (∀ d, step (nextMove (.loadIB d) rest s) = .next (afterMove rest s)) ∧
    (∀ d, step (nextMove (.loadTK d) rest s) = .next (afterMove rest s)) ∧
    (∀ d, step (nextMove (.loadBS d) rest s) = .next (afterMove rest s)) ∧
    (∀ r v, step (nextMove (.set r v) rest s) = .next (afterMove rest s)) ∧
    (∀ c, step (nextMove (.start c) rest s) = .next (afterMove rest s)) ∧
    (∀ x, x ≠ .reg .status → ∃ v k, step (nextMove (.read x) rest s) =
      .next { afterMove rest s with hostOut := s.hostOut ++ [v], freeCtr := k }) ∧
    (step (nextMove (.read (.reg .status)) rest s) =
      .next { afterMove rest s with hostOut := s.hostOut ++ [.word 0x01] }) ∧
    (step (nextMove .reset rest s) =
      .next { State.reset with params := s.params, hostIn := rest, hostOut := s.hostOut, freeCtr := s.freeCtr })

/-! ## What every run does -/

/-- Every command runs to its end from every state: `CMD` holds its word, `STATUS` is one of the end values, the engine
is idle (45_host_interface.md R243; 10_state.md R41). -/
def Obligations.EveryRunEnds : Prop :=
  ∀ (i : Instr) (s : State), ∃ t, exec i s = .next t ∧ t.cmd = encode i ∧ t.phase = .idle ∧
    t.status ∈ [0x02, 0x0A, 0x16, 0x26, 0x36, 0x46, 0x66]

/-- 20_memory.md R65: the frame of every command. -/
def Obligations.RunChangesOnlyItsWriteSet : Prop :=
  ∀ (i : Instr) (s : State), ∃ t, exec i s = .next t ∧ Frame i s t

/-- 60_exceptions.md R268: a run that stops with an error leaves exactly the error state of its write set; for an illegal
word the write set is empty. -/
def Obligations.ErrorStopLeavesTheErrorState : Prop :=
  (∀ (i : Instr) (s t : State), exec i s = .next t → statusErr t.status = true →
    ∃ e, t = errorState (encode i) (writeSet i) e s) ∧
  ∀ (c : Word8) (s t : State), (∀ i, decode c ≠ .ok i) → s.busy = false → hostStart c s = .next t →
    t = errorState c [] .illegalCommand s

/-- No result depends on an earlier run or on a `RESET` before it: a run's outputs are a function of the command, the
build and the command's input (10_state.md R21; 70_reset_and_hazards.md R302). -/
def Obligations.ResultDependsOnInputAlone : Prop :=
  ∀ (i : Instr) (s s' : State), SameInput i s s' →
    ∃ t t', exec i s = .next t ∧ exec i s' = .next t' ∧ SameOutput i t t'

/-- In an unbounded build a command raises only the errors of its row in the table of 60_exceptions.md R267. -/
def Obligations.CommandRaisesOnlyItsErrors : Prop :=
  ∀ (i : Instr) (s t : State), s.params.Unbounded → exec i s = .next t → statusErr t.status = true →
    ∃ e ∈ errorsOf i, t.status = statusError e

/-- "Nothing to do" is signalled by `COMPRESS.s` on empty input, and by nothing else (10_state.md R24). -/
def Obligations.NothingToDoOnlyOnEmptyCompress : Prop :=
  ∀ (i : Instr) (s t : State), exec i s = .next t →
    (statusNtd t.status = true ↔ (∃ sch, i = compressOf sch) ∧ s.ib = [])

/-! ## The Universal Integer Codec -/

/-- 41_universal_codec.md R152: `enc(s, 0)` raises `InvalidArgumentError` for every scheme. -/
def Obligations.EncodeZeroIsInvalidArgument : Prop :=
  ∀ (sch : Scheme) (s : State), s.n = 0 →
    exec (uencOf sch) s = .next (errorState (encode (uencOf sch)) [.bs] .invalidArgument s)

/-- 30_encoding.md R100, 41_universal_codec.md R155: `UENC.G` of `N >= 1` writes `zeros(L-1) ++ bin(N)`. -/
def Obligations.GammaLayout : Prop :=
  ∀ s : State, s.params.Unbounded → 1 ≤ s.n →
    ∃ t, exec .uencG s = .next t ∧ t.status = 0x02 ∧ t.n = s.n ∧ IsGamma s.n t.bs

/-- 30_encoding.md R101, 41_universal_codec.md R160: `UENC.D` of `N >= 1` writes the gamma code word of `L`, then
`bin(N)` without its first bit. -/
def Obligations.DeltaLayout : Prop :=
  ∀ s : State, s.params.Unbounded → 1 ≤ s.n →
    ∃ t b g, exec .uencD s = .next t ∧ t.status = 0x02 ∧ t.n = s.n ∧ IsBin s.n b ∧ IsGamma b.length g ∧
      t.bs = g ++ b.tail

/-- 30_encoding.md R102, 41_universal_codec.md R165: `UENC.O` of 1 writes `"0"`; of `N >= 2` it writes what it writes of
`L - 1`, with `bin(N)` put before the stop bit. -/
def Obligations.OmegaLayout : Prop :=
  ∀ s : State, s.params.Unbounded →
    (s.n = 1 → ∃ t, exec .uencO s = .next t ∧ t.status = 0x02 ∧ t.n = 1 ∧ t.bs = [false]) ∧
    (2 ≤ s.n → ∃ t u b g, exec .uencO s = .next t ∧ t.status = 0x02 ∧ t.n = s.n ∧ IsBin s.n b ∧
      exec .uencO { s with n := b.length - 1 } = .next u ∧ u.bs = g ++ [false] ∧ t.bs = g ++ b ++ [false])

/-- 30_encoding.md R103, R104, 41_universal_codec.md R171: `UENC.F` of `N >= 1` writes the Zeckendorf digits of `N`,
smallest first, then `1`. -/
def Obligations.FibonacciLayout : Prop :=
  (fibF 1 = 1 ∧ fibF 2 = 2 ∧ ∀ k, fibF (k + 3) = fibF (k + 2) + fibF (k + 1)) ∧
  ∀ s : State, s.params.Unbounded → 1 ≤ s.n →
    ∃ t d, exec .uencF s = .next t ∧ t.status = 0x02 ∧ t.n = s.n ∧ IsZeckendorf s.n d ∧ t.bs = d ++ [true]

/-- 41_universal_codec.md R175: when `BS` begins with the code word of `n >= 1`, whatever follows, `UDEC.s` writes `n` into
`N` and the code word's length into `BP`; `dec` at any position that holds the code word returns `n` and the first index
after it; and that code word is what `UENC.s` writes for `N = n`. -/
def Obligations.DecodeOfEncodeIsIdentity : Prop :=
  ∀ (sch : Scheme) (s : State) (n : Nat) (rest : Bits), s.params.Unbounded → 1 ≤ n → s.bs = codeWord sch n ++ rest →
    (∃ u, exec (udecOf sch) s = .next u ∧ u.status = 0x02 ∧ u.n = n ∧ u.bp = (codeWord sch n).length ∧ u.bs = s.bs) ∧
    (∃ t, exec (uencOf sch) { s with n := n } = .next t ∧ t.status = 0x02 ∧ t.bs = codeWord sch n) ∧
    ∀ before, dec s.params.tokenW sch (before ++ codeWord sch n ++ rest) before.length =
      .ok (n, before.length + (codeWord sch n).length)

/-- 41_universal_codec.md R178: with a finite `TOKEN_W` alone, `UDEC.s` of a code word gives its value when that is below
`2^TOKEN_W`, and stops with `CapacityExceeded` when it is not (for delta the model's reading of log 12). -/
def Obligations.TokenWidthLimitsDecoding : Prop :=
  ∀ (sch : Scheme) (s : State) (w n : Nat) (rest : Bits), s.params.tokenW = some w → 1 ≤ n →
    s.bs = codeWord sch n ++ rest →
    (n < 2 ^ w → ∃ u, exec (udecOf sch) s = .next u ∧ u.status = 0x02 ∧ u.n = n ∧ u.bp = (codeWord sch n).length) ∧
    (2 ^ w ≤ n → exec (udecOf sch) s = .next (errorState (encode (udecOf sch)) [.n, .bp] .capacityExceeded s))

/-- `UDEC.s` of any bit string either reads a code word of some value of at least 1, or stops with
`TruncatedStreamError`; there is no third outcome (41_universal_codec.md R177). -/
def Obligations.DecodeIsComplete : Prop :=
  ∀ (sch : Scheme) (s : State), s.params.Unbounded →
    (∃ t, exec (udecOf sch) s = .next t ∧ t.status = 0x02 ∧ 1 ≤ t.n ∧ t.bp ≤ s.bs.length ∧
      ∃ u, exec (uencOf sch) t = .next u ∧ u.bs = s.bs.take t.bp) ∨
    exec (udecOf sch) s = .next (errorState (encode (udecOf sch)) [.n, .bp] .truncatedStream s)

/-- 41_universal_codec.md R176: no code word is a prefix of another of the same scheme; across schemes this fails
(`enc(G, 1)` is a prefix of `enc(F, 1)`). -/
def Obligations.CodeWordsArePrefixFree : Prop :=
  (∀ (sch : Scheme) (s : State) (n n' : Nat), s.params.Unbounded → 1 ≤ n → 1 ≤ n' → n ≠ n' →
    ∃ t t', exec (uencOf sch) { s with n := n } = .next t ∧ exec (uencOf sch) { s with n := n' } = .next t' ∧
      ¬ t.bs <+: t'.bs) ∧
  codeWord .gamma 1 = [true] ∧ codeWord .fibonacci 1 = [true, true]

/-! ## The Bit/Byte Packer -/

/-- 42_bit_byte_packer.md R191: `PACK`, in every build whose `OB` and lengths have no limit. -/
def Obligations.PackPadsAndGroups : Prop :=
  ∀ s : State, s.params.obCap = none → s.params.lenW = none →
    ∃ t, exec .pack s = .next t ∧ t.cmd = 0x90 ∧ t.status = 0x02 ∧ t.bs = s.bs ∧ IsPacked s.bs t.ob

/-- 42_bit_byte_packer.md R193: `UNPACK`, in every build whose `BS` and lengths have no limit. -/
def Obligations.UnpackExpandsBytes : Prop :=
  ∀ s : State, s.params.bsCap = none → s.params.lenW = none →
    ∃ t, exec .unpack s = .next t ∧ t.cmd = 0xA0 ∧ t.status = 0x02 ∧ t.ib = s.ib ∧ IsUnpacked s.ib t.bs

/-- `UNPACK` after `PACK` gives the bits and the pad zeros; `PACK` after `UNPACK` gives the bytes
(42_bit_byte_packer.md R195). -/
def Obligations.PackUnpackLaws : Prop :=
  ∀ s : State, s.params.Unbounded →
    (∃ t u, exec .pack s = .next t ∧ exec .unpack (hostMoveObIb t) = .next u ∧
      u.bs = s.bs ++ List.replicate (8 * ((s.bs.length + 7) / 8) - s.bs.length) false) ∧
    (∃ t u, exec .unpack s = .next t ∧ exec .pack t = .next u ∧ u.ob = s.ib)

/-- A build with a finite `OB_CAP` packs up to it, and beyond it stops with `CapacityExceeded` (60_exceptions.md R283). -/
def Obligations.PackStopsAtCapacity : Prop :=
  ∀ (s : State) (cap : Nat), s.params.obCap = some cap → s.params.lenW = none →
    (∃ t, exec .pack s = .next t ∧ ((s.bs.length + 7) / 8 ≤ cap → t.status = 0x02 ∧ IsPacked s.bs t.ob)) ∧
    (cap < (s.bs.length + 7) / 8 →
      exec .pack s = .next (errorState (encode .pack) [.ob] .capacityExceeded s))

/-! ## The Stream Assembler -/

/-- 43_stream_assembler.md R201: `SER.s` writes the header and the token code words to `BS`, and their packing to
`OB`. -/
def Obligations.SerializeWritesTheStream : Prop :=
  ∀ (sch : Scheme) (s : State), s.params.Unbounded →
    ∃ t, exec (serOf sch) s = .next t ∧ t.cmd = 0x50 ||| (sch.bits.setWidth 8) ∧ t.status = 0x02 ∧ t.tk = s.tk ∧
      t.bs = streamBits sch s.tk ∧ IsPacked t.bs t.ob

/-- 43_stream_assembler.md R206, R207: when the expanded input begins with the stream of at least one token, `DES.s`
gives back exactly those tokens and the index of the first bit after them; what follows is not read. That `HV` and `CNT`
are kept after the run, and not cleared, is the model's choice (10_state.md R29, log 10). -/
def Obligations.DeserializeReadsTheStream : Prop :=
  ∀ (sch : Scheme) (s : State) (tokens : List Token) (bits rest : Bits), s.params.Unbounded → tokens ≠ [] →
    IsUnpacked s.ib bits → bits = streamBits sch tokens ++ rest →
    ∃ t, exec (desOf sch) s = .next t ∧ t.status = 0x02 ∧ t.tk = tokens ∧ t.hv = tokens.length + 1 ∧
      t.cnt = tokens.length ∧ t.bp = (streamBits sch tokens).length ∧ t.bs = bits ∧ t.ib = s.ib

/-- 43_stream_assembler.md R208: a header of value 1, token count 0, is `CorruptHeaderError`, unless
`ZERO_COUNT_IS_CORRUPT = false`; then it gives no tokens and no error. -/
def Obligations.ZeroCountHeaderIsCorrupt : Prop :=
  ∀ (sch : Scheme) (s : State) (bits rest : Bits), s.params.Unbounded →
    IsUnpacked s.ib bits → bits = codeWord sch 1 ++ rest →
    (s.params.zeroCountIsCorrupt = true →
      exec (desOf sch) s = .next (errorState (encode (desOf sch)) [.bs, .tk, .bp] .corruptHeader s)) ∧
    (s.params.zeroCountIsCorrupt = false →
      ∃ t, exec (desOf sch) s = .next t ∧ t.status = 0x02 ∧ t.tk = [] ∧ t.bp = (codeWord sch 1).length)

/-- When the expanded input does not begin with a whole stream, `DES.s` stops with `TruncatedStreamError`
(43_stream_assembler.md R209, R210). -/
def Obligations.DeserializeTruncation : Prop :=
  ∀ (sch : Scheme) (s : State) (bits : Bits), s.params.Unbounded → IsUnpacked s.ib bits →
    (∀ tokens rest, bits ≠ streamBits sch tokens ++ rest) →
    exec (desOf sch) s = .next (errorState (encode (desOf sch)) [.bs, .tk, .bp] .truncatedStream s)

/-- `SER.s`, `MOVE OB, IB`, `DES.s` gives back the tokens (43_stream_assembler.md R211). -/
def Obligations.SerializeDeserializeRoundTrip : Prop :=
  ∀ (sch : Scheme) (s : State), s.params.Unbounded → s.tk ≠ [] →
    ∃ t u, exec (serOf sch) s = .next t ∧ exec (desOf sch) (hostMoveObIb t) = .next u ∧ u.status = 0x02 ∧
      u.tk = s.tk ∧ u.bp = t.bs.length

/-! ## The LZW Dictionary Engine -/

/-- `LZWE` covers the input by the phrases of its tokens, builds the dictionary of 40_lzw_engine.md R133 from them,
emits only codes of the moment and holds no phrase twice (R134, R135, R136). That `DICT` is kept after the run, and not
dropped, is the model's choice (10_state.md R29, 93_implementation_defined.md U8, log 10). -/
def Obligations.LzwEncodeResult : Prop :=
  ∀ s : State, s.params.Unbounded →
    ∃ t, exec .lzwe s = .next t ∧ t.status = 0x02 ∧ t.ib = s.ib ∧ (t.tk = [] ↔ s.ib = []) ∧
      (t.tk.map (phraseOf t.dict)).flatten = s.ib ∧ BuiltBy t.tk t.dict ∧ ValidTokens t.tk ∧ t.dict.Nodup ∧
      t.nc = 256 + (t.tk.length - 1) ∧ t.tk.length ≤ s.ib.length

/-- `LZWD` of tokens that all pass its tests emits their phrases, in order, and builds the same kind of dictionary
(40_lzw_engine.md R139, R140, R141, R143). That `DICT` is kept after the run, and not dropped, is the model's choice
(93_implementation_defined.md U8, log 10). -/
def Obligations.LzwDecodeResult : Prop :=
  ∀ s : State, s.params.Unbounded → ValidTokens s.tk →
    ∃ t, exec .lzwd s = .next t ∧ t.status = 0x02 ∧ t.tk = s.tk ∧ BuiltBy s.tk t.dict ∧
      t.ob = (s.tk.map (phraseOf t.dict)).flatten ∧ t.nc = 256 + (s.tk.length - 1) ∧ s.tk.length ≤ t.ob.length

/-- 60_exceptions.md R263: a token that is neither known nor, after the first, the next code stops `LZWD` with
`InvalidCodeError`. -/
def Obligations.LzwDecodeInvalidCode : Prop :=
  ∀ s : State, s.params.Unbounded → ¬ ValidTokens s.tk →
    exec .lzwd s = .next (errorState (encode .lzwd) [.ob, .dict, .nc] .invalidCode s)

/-- `LZWD` after `LZWE` gives back the bytes, with the same dictionary size (40_lzw_engine.md R145, R147 (a)). -/
def Obligations.LzwRoundTrip : Prop :=
  ∀ s : State, s.params.Unbounded →
    ∃ t u, exec .lzwe s = .next t ∧ exec .lzwd t = .next u ∧ u.status = 0x02 ∧ u.ob = s.ib ∧ u.nc = t.nc

/-! ## The whole pipeline -/

/-- 44_pipeline.md R222: `COMPRESS.s` of an empty input. -/
def Obligations.CompressEmptyInput : Prop :=
  ∀ (sch : Scheme) (s : State), s.ib = [] →
    ∃ t, exec (compressOf sch) s = .next t ∧ t.status = 0x0A ∧ t.obLen = 0 ∧ t.tkLen = 0 ∧ t.bsLen = 0 ∧ t.nc = 0

/-- 44_pipeline.md R227: `DECOMPRESS.s` of an empty input. -/
def Obligations.DecompressEmptyInput : Prop :=
  ∀ (sch : Scheme) (s : State), s.ib = [] →
    ∃ t, exec (decompressOf sch) s = .next t ∧ t.status = 0x02 ∧ t.obLen = 0 ∧ t.tkLen = 0 ∧ t.bsLen = 0

/-- `COMPRESS.s` of a non-empty input is `LZWE`, then `SER.s` (44_pipeline.md R220, R221; 30_encoding.md R94). -/
def Obligations.CompressIsLzweThenSer : Prop :=
  ∀ (sch : Scheme) (s : State), s.params.Unbounded → s.ib ≠ [] →
    ∃ t u v, exec (compressOf sch) s = .next t ∧ exec .lzwe s = .next u ∧ exec (serOf sch) u = .next v ∧
      t.status = 0x02 ∧ t.tk = u.tk ∧ t.dict = u.dict ∧ t.bs = v.bs ∧ t.ob = v.ob

/-- `DECOMPRESS.s` of a non-empty input is `DES.s`, then `LZWD`; an error of `DES.s` has priority (44_pipeline.md R225,
R226; 60_exceptions.md R273). -/
def Obligations.DecompressIsDesThenLzwd : Prop :=
  ∀ (sch : Scheme) (s : State), s.ib ≠ [] →
    ∃ t u v, exec (decompressOf sch) s = .next t ∧ exec (desOf sch) s = .next u ∧ exec .lzwd u = .next v ∧
      (statusErr u.status = true → t.status = u.status) ∧
      (statusErr u.status = false → t.status = v.status ∧ t.ob = v.ob ∧ t.dict = v.dict ∧
        (statusErr v.status = false → t.tk = u.tk ∧ t.bs = u.bs ∧ t.bp = u.bp))

/-- When the expanded input begins with the stream of at least one token, and the tokens all pass the tests of
40_lzw_engine.md R140, `DECOMPRESS.s` emits their phrases and leaves the tokens, the dictionary size and the bit position
(44_pipeline.md R225; 43_stream_assembler.md R207; 40_lzw_engine.md R141). That `DICT` is kept after the run, and not
dropped, is the model's choice (93_implementation_defined.md U8, log 10). -/
def Obligations.DecompressReadsTheStream : Prop :=
  ∀ (sch : Scheme) (s : State) (tokens : List Token) (bits rest : Bits), s.params.Unbounded → tokens ≠ [] →
    ValidTokens tokens → IsUnpacked s.ib bits → bits = streamBits sch tokens ++ rest →
    ∃ t, exec (decompressOf sch) s = .next t ∧ t.status = 0x02 ∧ t.tk = tokens ∧ BuiltBy tokens t.dict ∧
      t.ob = (tokens.map (phraseOf t.dict)).flatten ∧ t.nc = 256 + (tokens.length - 1) ∧
      t.bp = (streamBits sch tokens).length

/-- Bytes after the stream are never examined (44_pipeline.md R229; 30_encoding.md R120). -/
def Obligations.TrailingBytesIgnored : Prop :=
  ∀ (sch : Scheme) (s t : State) (extra : List Byte), s.params.Unbounded → s.ib ≠ [] →
    exec (decompressOf sch) s = .next t → t.status = 0x02 →
    ∃ u, exec (decompressOf sch) { s with ib := s.ib ++ extra } = .next u ∧ u.status = 0x02 ∧ u.ob = t.ob ∧
      u.tk = t.tk ∧ u.bp = t.bp ∧ u.dict = t.dict

/-- 44_pipeline.md R230: for every buffer and every scheme, `COMPRESS.s`, `MOVE OB, IB`, `DECOMPRESS.s` gives the buffer
back; the empty buffer gives `STATUS = 0x0A` after the first run. -/
def Obligations.CompressDecompressRoundTrip : Prop :=
  ∀ (sch : Scheme) (s : State), s.params.Unbounded →
    ∃ t u, exec (compressOf sch) s = .next t ∧ exec (decompressOf sch) (hostMoveObIb t) = .next u ∧
      (s.ib ≠ [] → t.status = 0x02) ∧ (s.ib = [] → t.status = 0x0A ∧ t.ob = []) ∧
      u.status = 0x02 ∧ u.ob = s.ib

/-! ## Invariants and granularity -/

/-- Every step from a coherent state answers a next state, and that state is coherent: `STATUS` stays legal (10_state.md
R41), the dictionary keeps its invariants (R38), a run in progress keeps its phase and cursors (R32, R42). -/
def Obligations.CoherencePreserved : Prop :=
  ∀ s : State, s.Coherent → ∃ t, step s = .next t ∧ t.Coherent

/-- The reset state is coherent. -/
def Obligations.ResetIsCoherent : Prop := State.reset.Coherent

/-- Memory's form, the build's capacities and widths, is kept by every step (00_scope.md R10; 60_exceptions.md R283). -/
def Obligations.MemoryStaysWithinTheBuild : Prop :=
  ∀ s t : State, Memory.wf s = true → step s = .next t → Memory.wf t = true

/-- The reset state is within its build. -/
def Obligations.ResetIsWithinTheBuild : Prop := Memory.wf State.reset = true

/-- No step changes the build (00_scope.md R18: parameters, not state; log 2). -/
def Obligations.BuildNeverChanges : Prop :=
  ∀ s t : State, step s = .next t → t.params = s.params

/-- The end state of a run does not depend on the step granularity (93_implementation_defined.md U9; 40_lzw_engine.md
R137, R149; 43_stream_assembler.md R203, R214; 44_pipeline.md R233): step by step, the run ends where one step per run
puts it, and stays there. -/
def Obligations.GranularityDoesNotMatter : Prop :=
  ∀ (s t : State) (c : Word8) (g : Grain), s.busy = false →
    step (withGrain .perRun (nextMove (.start c) [] s)) = .next t →
    ∃ k, ∀ j, k ≤ j → Host.Core.run Sys2Proof.core j (withGrain g (nextMove (.start c) [] s)) = .next (withGrain g t)
end

