-- ==== Sys2Proof/Laws/State.lean ====
section
/-! SUPPORT. One lemma per field for each update of the state that the shared operations make (Machine/Ops.lean,
Machine/HostMoves.lean), so that no proof unfolds a record update. -/

namespace Sys2Proof.Machine

/-! ## freshWorking -/

@[simp] theorem freshWorking_cmd (s : State) : (freshWorking s).cmd = s.cmd := rfl
@[simp] theorem freshWorking_status (s : State) : (freshWorking s).status = s.status := rfl
@[simp] theorem freshWorking_n (s : State) : (freshWorking s).n = s.n := rfl
@[simp] theorem freshWorking_bp (s : State) : (freshWorking s).bp = 0 := rfl
@[simp] theorem freshWorking_ib (s : State) : (freshWorking s).ib = s.ib := rfl
@[simp] theorem freshWorking_ob (s : State) : (freshWorking s).ob = s.ob := rfl
@[simp] theorem freshWorking_tk (s : State) : (freshWorking s).tk = s.tk := rfl
@[simp] theorem freshWorking_bs (s : State) : (freshWorking s).bs = s.bs := rfl
@[simp] theorem freshWorking_dict (s : State) : (freshWorking s).dict = [] := rfl
@[simp] theorem freshWorking_w (s : State) : (freshWorking s).w = [] := rfl
@[simp] theorem freshWorking_prev (s : State) : (freshWorking s).prev = [] := rfl
@[simp] theorem freshWorking_entry (s : State) : (freshWorking s).entry = [] := rfl
@[simp] theorem freshWorking_acc (s : State) : (freshWorking s).acc = 0 := rfl
@[simp] theorem freshWorking_l (s : State) : (freshWorking s).l = 0 := rfl
@[simp] theorem freshWorking_hv (s : State) : (freshWorking s).hv = 0 := rfl
@[simp] theorem freshWorking_cnt (s : State) : (freshWorking s).cnt = 0 := rfl
@[simp] theorem freshWorking_phase (s : State) : (freshWorking s).phase = s.phase := rfl
@[simp] theorem freshWorking_ip (s : State) : (freshWorking s).ip = 0 := rfl
@[simp] theorem freshWorking_tp (s : State) : (freshWorking s).tp = 0 := rfl
@[simp] theorem freshWorking_params (s : State) : (freshWorking s).params = s.params := rfl
@[simp] theorem freshWorking_hostIn (s : State) : (freshWorking s).hostIn = s.hostIn := rfl
@[simp] theorem freshWorking_hostOut (s : State) : (freshWorking s).hostOut = s.hostOut := rfl
@[simp] theorem freshWorking_freeCtr (s : State) : (freshWorking s).freeCtr = s.freeCtr := rfl

/-! ## freshState -/

@[simp] theorem freshState_cmd (s : State) : (freshState s).cmd = s.cmd := rfl
@[simp] theorem freshState_status (s : State) : (freshState s).status = statusStarted := rfl
@[simp] theorem freshState_n (s : State) : (freshState s).n = s.n := rfl
@[simp] theorem freshState_bp (s : State) : (freshState s).bp = 0 := rfl
@[simp] theorem freshState_ib (s : State) : (freshState s).ib = s.ib := rfl
@[simp] theorem freshState_ob (s : State) : (freshState s).ob = s.ob := rfl
@[simp] theorem freshState_tk (s : State) : (freshState s).tk = s.tk := rfl
@[simp] theorem freshState_bs (s : State) : (freshState s).bs = s.bs := rfl
@[simp] theorem freshState_dict (s : State) : (freshState s).dict = [] := rfl
@[simp] theorem freshState_w (s : State) : (freshState s).w = [] := rfl
@[simp] theorem freshState_prev (s : State) : (freshState s).prev = [] := rfl
@[simp] theorem freshState_entry (s : State) : (freshState s).entry = [] := rfl
@[simp] theorem freshState_acc (s : State) : (freshState s).acc = 0 := rfl
@[simp] theorem freshState_l (s : State) : (freshState s).l = 0 := rfl
@[simp] theorem freshState_hv (s : State) : (freshState s).hv = 0 := rfl
@[simp] theorem freshState_cnt (s : State) : (freshState s).cnt = 0 := rfl
@[simp] theorem freshState_phase (s : State) : (freshState s).phase = s.phase := rfl
@[simp] theorem freshState_ip (s : State) : (freshState s).ip = 0 := rfl
@[simp] theorem freshState_tp (s : State) : (freshState s).tp = 0 := rfl
@[simp] theorem freshState_params (s : State) : (freshState s).params = s.params := rfl
@[simp] theorem freshState_hostIn (s : State) : (freshState s).hostIn = s.hostIn := rfl
@[simp] theorem freshState_hostOut (s : State) : (freshState s).hostOut = s.hostOut := rfl
@[simp] theorem freshState_freeCtr (s : State) : (freshState s).freeCtr = s.freeCtr := rfl

/-! ## startRun -/

@[simp] theorem startRun_cmd (c : Word8) (s : State) : (startRun c s).cmd = c := rfl
@[simp] theorem startRun_status (c : Word8) (s : State) : (startRun c s).status = statusStarted := rfl
@[simp] theorem startRun_n (c : Word8) (s : State) : (startRun c s).n = s.n := rfl
@[simp] theorem startRun_bp (c : Word8) (s : State) : (startRun c s).bp = 0 := rfl
@[simp] theorem startRun_ib (c : Word8) (s : State) : (startRun c s).ib = s.ib := rfl
@[simp] theorem startRun_ob (c : Word8) (s : State) : (startRun c s).ob = s.ob := rfl
@[simp] theorem startRun_tk (c : Word8) (s : State) : (startRun c s).tk = s.tk := rfl
@[simp] theorem startRun_bs (c : Word8) (s : State) : (startRun c s).bs = s.bs := rfl
@[simp] theorem startRun_dict (c : Word8) (s : State) : (startRun c s).dict = [] := rfl
@[simp] theorem startRun_w (c : Word8) (s : State) : (startRun c s).w = [] := rfl
@[simp] theorem startRun_prev (c : Word8) (s : State) : (startRun c s).prev = [] := rfl
@[simp] theorem startRun_entry (c : Word8) (s : State) : (startRun c s).entry = [] := rfl
@[simp] theorem startRun_acc (c : Word8) (s : State) : (startRun c s).acc = 0 := rfl
@[simp] theorem startRun_l (c : Word8) (s : State) : (startRun c s).l = 0 := rfl
@[simp] theorem startRun_hv (c : Word8) (s : State) : (startRun c s).hv = 0 := rfl
@[simp] theorem startRun_cnt (c : Word8) (s : State) : (startRun c s).cnt = 0 := rfl
@[simp] theorem startRun_phase (c : Word8) (s : State) : (startRun c s).phase = s.phase := rfl
@[simp] theorem startRun_ip (c : Word8) (s : State) : (startRun c s).ip = 0 := rfl
@[simp] theorem startRun_tp (c : Word8) (s : State) : (startRun c s).tp = 0 := rfl
@[simp] theorem startRun_params (c : Word8) (s : State) : (startRun c s).params = s.params := rfl
@[simp] theorem startRun_hostIn (c : Word8) (s : State) : (startRun c s).hostIn = s.hostIn := rfl
@[simp] theorem startRun_hostOut (c : Word8) (s : State) : (startRun c s).hostOut = s.hostOut := rfl
@[simp] theorem startRun_freeCtr (c : Word8) (s : State) : (startRun c s).freeCtr = s.freeCtr := rfl

/-! ## clearBuffers -/

@[simp] theorem clearBuffers_cmd (ws : List Dest) (s : State) : (clearBuffers ws s).cmd = s.cmd := rfl
@[simp] theorem clearBuffers_status (ws : List Dest) (s : State) : (clearBuffers ws s).status = s.status := rfl
@[simp] theorem clearBuffers_n (ws : List Dest) (s : State) : (clearBuffers ws s).n = s.n := rfl
@[simp] theorem clearBuffers_bp (ws : List Dest) (s : State) : (clearBuffers ws s).bp = s.bp := rfl
@[simp] theorem clearBuffers_ib (ws : List Dest) (s : State) : (clearBuffers ws s).ib = s.ib := rfl
@[simp] theorem clearBuffers_ob (ws : List Dest) (s : State) : (clearBuffers ws s).ob = if ws.contains .ob then [] else s.ob := rfl
@[simp] theorem clearBuffers_tk (ws : List Dest) (s : State) : (clearBuffers ws s).tk = if ws.contains .tk then [] else s.tk := rfl
@[simp] theorem clearBuffers_bs (ws : List Dest) (s : State) : (clearBuffers ws s).bs = if ws.contains .bs then [] else s.bs := rfl
@[simp] theorem clearBuffers_dict (ws : List Dest) (s : State) : (clearBuffers ws s).dict = if ws.contains .dict then [] else s.dict := rfl
@[simp] theorem clearBuffers_w (ws : List Dest) (s : State) : (clearBuffers ws s).w = s.w := rfl
@[simp] theorem clearBuffers_prev (ws : List Dest) (s : State) : (clearBuffers ws s).prev = s.prev := rfl
@[simp] theorem clearBuffers_entry (ws : List Dest) (s : State) : (clearBuffers ws s).entry = s.entry := rfl
@[simp] theorem clearBuffers_acc (ws : List Dest) (s : State) : (clearBuffers ws s).acc = s.acc := rfl
@[simp] theorem clearBuffers_l (ws : List Dest) (s : State) : (clearBuffers ws s).l = s.l := rfl
@[simp] theorem clearBuffers_hv (ws : List Dest) (s : State) : (clearBuffers ws s).hv = s.hv := rfl
@[simp] theorem clearBuffers_cnt (ws : List Dest) (s : State) : (clearBuffers ws s).cnt = s.cnt := rfl
@[simp] theorem clearBuffers_phase (ws : List Dest) (s : State) : (clearBuffers ws s).phase = s.phase := rfl
@[simp] theorem clearBuffers_ip (ws : List Dest) (s : State) : (clearBuffers ws s).ip = s.ip := rfl
@[simp] theorem clearBuffers_tp (ws : List Dest) (s : State) : (clearBuffers ws s).tp = s.tp := rfl
@[simp] theorem clearBuffers_params (ws : List Dest) (s : State) : (clearBuffers ws s).params = s.params := rfl
@[simp] theorem clearBuffers_hostIn (ws : List Dest) (s : State) : (clearBuffers ws s).hostIn = s.hostIn := rfl
@[simp] theorem clearBuffers_hostOut (ws : List Dest) (s : State) : (clearBuffers ws s).hostOut = s.hostOut := rfl
@[simp] theorem clearBuffers_freeCtr (ws : List Dest) (s : State) : (clearBuffers ws s).freeCtr = s.freeCtr := rfl

/-! ## endRun -/

@[simp] theorem endRun_cmd (s : State) : (endRun s).cmd = s.cmd := rfl
@[simp] theorem endRun_status (s : State) : (endRun s).status = statusEnded s.status := rfl
@[simp] theorem endRun_n (s : State) : (endRun s).n = s.n := rfl
@[simp] theorem endRun_bp (s : State) : (endRun s).bp = s.bp := rfl
@[simp] theorem endRun_ib (s : State) : (endRun s).ib = s.ib := rfl
@[simp] theorem endRun_ob (s : State) : (endRun s).ob = s.ob := rfl
@[simp] theorem endRun_tk (s : State) : (endRun s).tk = s.tk := rfl
@[simp] theorem endRun_bs (s : State) : (endRun s).bs = s.bs := rfl
@[simp] theorem endRun_dict (s : State) : (endRun s).dict = s.dict := rfl
@[simp] theorem endRun_w (s : State) : (endRun s).w = s.w := rfl
@[simp] theorem endRun_prev (s : State) : (endRun s).prev = s.prev := rfl
@[simp] theorem endRun_entry (s : State) : (endRun s).entry = s.entry := rfl
@[simp] theorem endRun_acc (s : State) : (endRun s).acc = s.acc := rfl
@[simp] theorem endRun_l (s : State) : (endRun s).l = s.l := rfl
@[simp] theorem endRun_hv (s : State) : (endRun s).hv = s.hv := rfl
@[simp] theorem endRun_cnt (s : State) : (endRun s).cnt = s.cnt := rfl
@[simp] theorem endRun_phase (s : State) : (endRun s).phase = .idle := rfl
@[simp] theorem endRun_ip (s : State) : (endRun s).ip = s.ip := rfl
@[simp] theorem endRun_tp (s : State) : (endRun s).tp = s.tp := rfl
@[simp] theorem endRun_params (s : State) : (endRun s).params = s.params := rfl
@[simp] theorem endRun_hostIn (s : State) : (endRun s).hostIn = s.hostIn := rfl
@[simp] theorem endRun_hostOut (s : State) : (endRun s).hostOut = s.hostOut := rfl
@[simp] theorem endRun_freeCtr (s : State) : (endRun s).freeCtr = s.freeCtr := rfl

/-! ## errorStop -/

@[simp] theorem errorStop_cmd (ws : List Dest) (e : ErrKind) (s : State) : (errorStop ws e s).cmd = s.cmd := rfl
@[simp] theorem errorStop_status (ws : List Dest) (e : ErrKind) (s : State) : (errorStop ws e s).status = statusError e := rfl
@[simp] theorem errorStop_n (ws : List Dest) (e : ErrKind) (s : State) : (errorStop ws e s).n = if ws.contains .n then 0 else s.n := rfl
@[simp] theorem errorStop_bp (ws : List Dest) (e : ErrKind) (s : State) : (errorStop ws e s).bp = 0 := rfl
@[simp] theorem errorStop_ib (ws : List Dest) (e : ErrKind) (s : State) : (errorStop ws e s).ib = s.ib := rfl
@[simp] theorem errorStop_ob (ws : List Dest) (e : ErrKind) (s : State) : (errorStop ws e s).ob = if ws.contains .ob then [] else s.ob := rfl
@[simp] theorem errorStop_tk (ws : List Dest) (e : ErrKind) (s : State) : (errorStop ws e s).tk = if ws.contains .tk then [] else s.tk := rfl
@[simp] theorem errorStop_bs (ws : List Dest) (e : ErrKind) (s : State) : (errorStop ws e s).bs = if ws.contains .bs then [] else s.bs := rfl
@[simp] theorem errorStop_dict (ws : List Dest) (e : ErrKind) (s : State) : (errorStop ws e s).dict = [] := rfl
@[simp] theorem errorStop_w (ws : List Dest) (e : ErrKind) (s : State) : (errorStop ws e s).w = [] := rfl
@[simp] theorem errorStop_prev (ws : List Dest) (e : ErrKind) (s : State) : (errorStop ws e s).prev = [] := rfl
@[simp] theorem errorStop_entry (ws : List Dest) (e : ErrKind) (s : State) : (errorStop ws e s).entry = [] := rfl
@[simp] theorem errorStop_acc (ws : List Dest) (e : ErrKind) (s : State) : (errorStop ws e s).acc = 0 := rfl
@[simp] theorem errorStop_l (ws : List Dest) (e : ErrKind) (s : State) : (errorStop ws e s).l = 0 := rfl
@[simp] theorem errorStop_hv (ws : List Dest) (e : ErrKind) (s : State) : (errorStop ws e s).hv = 0 := rfl
@[simp] theorem errorStop_cnt (ws : List Dest) (e : ErrKind) (s : State) : (errorStop ws e s).cnt = 0 := rfl
@[simp] theorem errorStop_phase (ws : List Dest) (e : ErrKind) (s : State) : (errorStop ws e s).phase = .idle := rfl
@[simp] theorem errorStop_ip (ws : List Dest) (e : ErrKind) (s : State) : (errorStop ws e s).ip = 0 := rfl
@[simp] theorem errorStop_tp (ws : List Dest) (e : ErrKind) (s : State) : (errorStop ws e s).tp = 0 := rfl
@[simp] theorem errorStop_params (ws : List Dest) (e : ErrKind) (s : State) : (errorStop ws e s).params = s.params := rfl
@[simp] theorem errorStop_hostIn (ws : List Dest) (e : ErrKind) (s : State) : (errorStop ws e s).hostIn = s.hostIn := rfl
@[simp] theorem errorStop_hostOut (ws : List Dest) (e : ErrKind) (s : State) : (errorStop ws e s).hostOut = s.hostOut := rfl
@[simp] theorem errorStop_freeCtr (ws : List Dest) (e : ErrKind) (s : State) : (errorStop ws e s).freeCtr = s.freeCtr := rfl

/-! ## beginCommand -/

@[simp] theorem beginCommand_cmd (i : Instr) (s : State) : (beginCommand i s).cmd = encode i := rfl
@[simp] theorem beginCommand_status (i : Instr) (s : State) : (beginCommand i s).status = statusStarted := rfl
@[simp] theorem beginCommand_n (i : Instr) (s : State) : (beginCommand i s).n = s.n := rfl
@[simp] theorem beginCommand_bp (i : Instr) (s : State) : (beginCommand i s).bp = 0 := rfl
@[simp] theorem beginCommand_ib (i : Instr) (s : State) : (beginCommand i s).ib = s.ib := rfl
@[simp] theorem beginCommand_ob (i : Instr) (s : State) : (beginCommand i s).ob = if (writeSet i).contains .ob then [] else s.ob := rfl
@[simp] theorem beginCommand_tk (i : Instr) (s : State) : (beginCommand i s).tk = if (writeSet i).contains .tk then [] else s.tk := rfl
@[simp] theorem beginCommand_bs (i : Instr) (s : State) : (beginCommand i s).bs = if (writeSet i).contains .bs then [] else s.bs := rfl
@[simp] theorem beginCommand_dict (i : Instr) (s : State) : (beginCommand i s).dict = [] := by
  simp [beginCommand]
@[simp] theorem beginCommand_w (i : Instr) (s : State) : (beginCommand i s).w = [] := rfl
@[simp] theorem beginCommand_prev (i : Instr) (s : State) : (beginCommand i s).prev = [] := rfl
@[simp] theorem beginCommand_entry (i : Instr) (s : State) : (beginCommand i s).entry = [] := rfl
@[simp] theorem beginCommand_acc (i : Instr) (s : State) : (beginCommand i s).acc = 0 := rfl
@[simp] theorem beginCommand_l (i : Instr) (s : State) : (beginCommand i s).l = 0 := rfl
@[simp] theorem beginCommand_hv (i : Instr) (s : State) : (beginCommand i s).hv = 0 := rfl
@[simp] theorem beginCommand_cnt (i : Instr) (s : State) : (beginCommand i s).cnt = 0 := rfl
@[simp] theorem beginCommand_phase (i : Instr) (s : State) : (beginCommand i s).phase = s.phase := rfl
@[simp] theorem beginCommand_ip (i : Instr) (s : State) : (beginCommand i s).ip = 0 := rfl
@[simp] theorem beginCommand_tp (i : Instr) (s : State) : (beginCommand i s).tp = 0 := rfl
@[simp] theorem beginCommand_params (i : Instr) (s : State) : (beginCommand i s).params = s.params := rfl
@[simp] theorem beginCommand_hostIn (i : Instr) (s : State) : (beginCommand i s).hostIn = s.hostIn := rfl
@[simp] theorem beginCommand_hostOut (i : Instr) (s : State) : (beginCommand i s).hostOut = s.hostOut := rfl
@[simp] theorem beginCommand_freeCtr (i : Instr) (s : State) : (beginCommand i s).freeCtr = s.freeCtr := rfl

/-! ## hostReset -/

@[simp] theorem hostReset_cmd (s : State) : (hostReset s).cmd = 0x00 := rfl
@[simp] theorem hostReset_status (s : State) : (hostReset s).status = 0x00 := rfl
@[simp] theorem hostReset_n (s : State) : (hostReset s).n = 0 := rfl
@[simp] theorem hostReset_bp (s : State) : (hostReset s).bp = 0 := rfl
@[simp] theorem hostReset_ib (s : State) : (hostReset s).ib = [] := rfl
@[simp] theorem hostReset_ob (s : State) : (hostReset s).ob = [] := rfl
@[simp] theorem hostReset_tk (s : State) : (hostReset s).tk = [] := rfl
@[simp] theorem hostReset_bs (s : State) : (hostReset s).bs = [] := rfl
@[simp] theorem hostReset_dict (s : State) : (hostReset s).dict = [] := rfl
@[simp] theorem hostReset_w (s : State) : (hostReset s).w = [] := rfl
@[simp] theorem hostReset_prev (s : State) : (hostReset s).prev = [] := rfl
@[simp] theorem hostReset_entry (s : State) : (hostReset s).entry = [] := rfl
@[simp] theorem hostReset_acc (s : State) : (hostReset s).acc = 0 := rfl
@[simp] theorem hostReset_l (s : State) : (hostReset s).l = 0 := rfl
@[simp] theorem hostReset_hv (s : State) : (hostReset s).hv = 0 := rfl
@[simp] theorem hostReset_cnt (s : State) : (hostReset s).cnt = 0 := rfl
@[simp] theorem hostReset_phase (s : State) : (hostReset s).phase = .idle := rfl
@[simp] theorem hostReset_ip (s : State) : (hostReset s).ip = 0 := rfl
@[simp] theorem hostReset_tp (s : State) : (hostReset s).tp = 0 := rfl
@[simp] theorem hostReset_params (s : State) : (hostReset s).params = s.params := rfl
@[simp] theorem hostReset_hostIn (s : State) : (hostReset s).hostIn = s.hostIn := rfl
@[simp] theorem hostReset_hostOut (s : State) : (hostReset s).hostOut = s.hostOut := rfl
@[simp] theorem hostReset_freeCtr (s : State) : (hostReset s).freeCtr = s.freeCtr := rfl

end Sys2Proof.Machine
end

