-- ==== Sys2Proof/Laws/Ops.lean ====
section
/-! SUPPORT. What each shared operation of Machine/Ops.lean can do, said once: the cases of `Run`, of the loop
combinator, of the appends, of the dictionary operations, and of a whole run. -/

namespace Sys2Proof.Machine

/-! ## Run -/

@[simp] theorem Run.bind_ok (s : State) (f : State → Run) : (Run.ok s).bind f = f s := rfl

@[simp] theorem Run.bind_raised (e : ErrKind) (s : State) (f : State → Run) :
    (Run.raised e s).bind f = .raised e s := rfl

theorem Run.bind_assoc (r : Run) (f g : State → Run) : (r.bind f).bind g = r.bind fun s => (f s).bind g := by
  cases r <;> rfl

/-- A chain goes on exactly when its first piece does. -/
theorem Run.bind_eq_ok {r : Run} {f : State → Run} {t : State} : r.bind f = .ok t ↔ ∃ s, r = .ok s ∧ f s = .ok t := by
  cases r <;> simp

/-- A chain stops in its first piece, or after it. -/
theorem Run.bind_eq_raised {r : Run} {f : State → Run} {e : ErrKind} {t : State} :
    r.bind f = .raised e t ↔ r = .raised e t ∨ ∃ s, r = .ok s ∧ f s = .raised e t := by
  cases r <;> simp

@[simp] theorem Run.times_zero (f : State → Run) (s : State) : Run.times 0 f s = .ok s := rfl

theorem Run.times_succ (k : Nat) (f : State → Run) (s : State) :
    Run.times (k + 1) f s = (f s).bind (Run.times k f) := rfl

/-- Two loops in a row are one loop. -/
theorem Run.times_add (j k : Nat) (f : State → Run) (s : State) :
    Run.times (j + k) f s = (Run.times j f s).bind (Run.times k f) := by
  induction j generalizing s with
  | zero => simp
  | succ j ih =>
    rw [Nat.succ_add, Run.times_succ, Run.times_succ, Run.bind_assoc]
    cases f s <;> simp [ih]

/-- A piece of a run relates its start to where it ends, normally or by an error. -/
def Run.Keeps (R : State → State → Prop) (f : State → Run) : Prop :=
  ∀ s t, (f s = .ok t ∨ ∃ e, f s = .raised e t) → R s t

theorem Run.Keeps.bind {R : State → State → Prop} (trans : ∀ a b c, R a b → R b c → R a c) {f g : State → Run}
    (hf : Run.Keeps R f) (hg : Run.Keeps R g) : Run.Keeps R fun s => (f s).bind g := by
  rintro s t (h | ⟨e, h⟩)
  · obtain ⟨u, hu, h⟩ := Run.bind_eq_ok.1 h
    exact trans _ _ _ (hf s u (.inl hu)) (hg u t (.inl h))
  · obtain h | ⟨u, hu, h⟩ := Run.bind_eq_raised.1 h
    · exact hf s t (.inr ⟨e, h⟩)
    · exact trans _ _ _ (hf s u (.inl hu)) (hg u t (.inr ⟨e, h⟩))

/-- A relation that a loop body keeps is kept by the loop. -/
theorem Run.Keeps.times {R : State → State → Prop} (refl : ∀ a, R a a) (trans : ∀ a b c, R a b → R b c → R a c)
    {f : State → Run} (hf : Run.Keeps R f) (k : Nat) : Run.Keeps R (Run.times k f) := by
  induction k with
  | zero =>
    rintro s t (h | ⟨e, h⟩)
    · cases h; exact refl s
    · cases h
  | succ k ih => exact Run.Keeps.bind trans hf ih

/-- An invariant of a loop body holds after the loop, when it ends normally. -/
theorem Run.times_invariant {P : State → Prop} {f : State → Run} (step : ∀ s t, P s → f s = .ok t → P t) (k : Nat)
    {s t : State} (hs : P s) (h : Run.times k f s = .ok t) : P t := by
  induction k generalizing s with
  | zero => cases h; exact hs
  | succ k ih =>
    obtain ⟨u, hu, h⟩ := Run.bind_eq_ok.1 h
    exact ih (step _ _ hs hu) h

/-! ## Appends and the dictionary -/

/-- `Append(OB, …)` appends within the build's capacity and raises `CapacityExceeded` beyond it. -/
theorem appendOB_cases (v : List Byte) (s : State) :
    (lengthFits s.params.obCap s.params.lenW (s.ob.length + v.length) = true ∧
      appendOB v s = .ok { s with ob := s.ob ++ v }) ∨
    (lengthFits s.params.obCap s.params.lenW (s.ob.length + v.length) = false ∧
      appendOB v s = .raised .capacityExceeded s) := by
  unfold appendOB State.obLen
  split <;> simp_all

/-- `Append(TK, …)`, likewise. -/
theorem appendTK_cases (v : List Token) (s : State) :
    (lengthFits s.params.tkCap s.params.lenW (s.tk.length + v.length) = true ∧
      appendTK v s = .ok { s with tk := s.tk ++ v }) ∨
    (lengthFits s.params.tkCap s.params.lenW (s.tk.length + v.length) = false ∧
      appendTK v s = .raised .capacityExceeded s) := by
  unfold appendTK State.tkLen
  split <;> simp_all

/-- `Append(BS, …)`, likewise. -/
theorem appendBS_cases (v : Bits) (s : State) :
    (lengthFits s.params.bsCap s.params.lenW (s.bs.length + v.length) = true ∧
      appendBS v s = .ok { s with bs := s.bs ++ v }) ∨
    (lengthFits s.params.bsCap s.params.lenW (s.bs.length + v.length) = false ∧
      appendBS v s = .raised .capacityExceeded s) := by
  unfold appendBS State.bsLen
  split <;> simp_all

/-- `InitDict` makes the seed dictionary, or the build cannot hold it. -/
theorem initDict_cases (s : State) :
    initDict s = .ok { s with dict := seedDict } ∨ initDict s = .raised .capacityExceeded s := by
  unfold initDict
  split <;> simp

/-- `Insert(p)` gives `p` the code `NC`, or the build cannot hold it. -/
theorem insertPhrase_cases (p : Phrase) (s : State) :
    insertPhrase p s = .ok { s with dict := s.dict ++ [p] } ∨ insertPhrase p s = .raised .capacityExceeded s := by
  unfold insertPhrase
  split <;> simp

/-! ## Without capacities (00_scope.md R10's default) -/

@[simp] theorem atMost_none (x : Nat) : atMost none x = true := rfl

@[simp] theorem fitsWidth_none (x : Nat) : fitsWidth none x = true := rfl

@[simp] theorem lengthFits_none (x : Nat) : lengthFits none none x = true := rfl

theorem Params.default_unbounded : Params.default.Unbounded := by
  simp [Params.Unbounded, Params.default]

theorem appendOB_unbounded {s : State} (h : s.params.Unbounded) (v : List Byte) :
    appendOB v s = .ok { s with ob := s.ob ++ v } := by
  obtain ⟨-, hl, -, -, -, ho, -, -⟩ := h
  simp [appendOB, hl, ho]

theorem appendTK_unbounded {s : State} (h : s.params.Unbounded) (v : List Token) :
    appendTK v s = .ok { s with tk := s.tk ++ v } := by
  obtain ⟨-, hl, -, -, -, -, ht, -⟩ := h
  simp [appendTK, hl, ht]

theorem appendBS_unbounded {s : State} (h : s.params.Unbounded) (v : Bits) :
    appendBS v s = .ok { s with bs := s.bs ++ v } := by
  obtain ⟨-, hl, -, -, -, -, -, hb⟩ := h
  simp [appendBS, hl, hb]

theorem initDict_unbounded {s : State} (h : s.params.Unbounded) : initDict s = .ok { s with dict := seedDict } := by
  obtain ⟨ht, -, hd, hp, -, -, -, -⟩ := h
  simp [initDict, ht, hd, hp]

theorem insertPhrase_unbounded {s : State} (h : s.params.Unbounded) (p : Phrase) :
    insertPhrase p s = .ok { s with dict := s.dict ++ [p] } := by
  obtain ⟨ht, -, hd, hp, -, -, -, -⟩ := h
  simp [insertPhrase, ht, hd, hp]

/-! ## The dictionary's lookups -/

/-- A found code is a code in use, and its phrase is the one looked for (10_state.md R37). -/
theorem findCode_some {d : List Phrase} {p : Phrase} {c : Nat} (h : findCode d p = some c) : d[c]? = some p := by
  obtain ⟨hc, hp, -⟩ := List.findIdx?_eq_some_iff_getElem.1 h
  rw [List.getElem?_eq_getElem hc, beq_iff_eq.1 hp]

/-- Nothing is found exactly when no code has the phrase (10_state.md R37). -/
theorem findCode_none {d : List Phrase} {p : Phrase} : findCode d p = none ↔ p ∉ d := by
  simp only [findCode, List.findIdx?_eq_none_iff, beq_eq_false_iff_ne]
  exact ⟨fun h hp => h p hp rfl, fun h q hq hqp => h (hqp ▸ hq)⟩

theorem seedDict_length : seedDict.length = 256 := by simp [seedDict]

theorem seedDict_getElem? {c : Nat} (h : c < 256) : seedDict[c]? = some [BitVec.ofNat 8 c] := by
  simp [seedDict, h]

/-! ## A whole run -/

/-- A run ends: `exec` of a command is always a next state, its normal end or its error stop (45_host_interface.md
R243). -/
theorem runCommand_cases (i : Instr) (rule : State → Run) (s : State) :
    (∃ t, rule (beginCommand i s) = .ok t ∧ runCommand i rule s = .next (endRun t)) ∨
    (∃ e t, rule (beginCommand i s) = .raised e t ∧ runCommand i rule s = .next (errorStop (writeSet i) e t)) := by
  unfold runCommand finishRun
  cases rule (beginCommand i s) with
  | ok t => exact .inl ⟨t, rfl, rfl⟩
  | raised e t => exact .inr ⟨e, t, rfl, rfl⟩

/-- The rule each command runs after `beginCommand`. -/
def ruleOf : Instr → State → Run
  | .compressG => compressRule .gamma
  | .compressD => compressRule .delta
  | .compressO => compressRule .omega
  | .compressF => compressRule .fibonacci
  | .decompressG => decompressRule .gamma
  | .decompressD => decompressRule .delta
  | .decompressO => decompressRule .omega
  | .decompressF => decompressRule .fibonacci
  | .lzwe => lzwePhase
  | .lzwd => lzwdPhase
  | .serG => serRule .gamma
  | .serD => serRule .delta
  | .serO => serRule .omega
  | .serF => serRule .fibonacci
  | .desG => desRule .gamma
  | .desD => desRule .delta
  | .desO => desRule .omega
  | .desF => desRule .fibonacci
  | .uencG => uencPhase .gamma
  | .uencD => uencPhase .delta
  | .uencO => uencPhase .omega
  | .uencF => uencPhase .fibonacci
  | .udecG => udecPhase .gamma
  | .udecD => udecPhase .delta
  | .udecO => udecPhase .omega
  | .udecF => udecPhase .fibonacci
  | .pack => packPhase
  | .unpack => unpackPhase

/-- Every arm of `exec` is one whole run of its command's rule. -/
theorem exec_eq_runCommand (i : Instr) (s : State) : exec i s = runCommand i (ruleOf i) s := by
  cases i <;> rfl

end Sys2Proof.Machine
end

