-- ==== Sys2Proof/Laws/Codec.lean ====
section
/-! SUPPORT. The small lemmas of Machine/Operands.lean and Machine/UniversalCodec.lean: bit strings and their values,
bit lengths, bytes as bits, Fibonacci numbers, and what each decoder can answer. -/

namespace Sys2Proof.Machine

/-! ## Values of bit strings (00_scope.md R13) -/

@[simp] theorem val_nil : val [] = 0 := rfl

@[simp] theorem val_concat (s : Bits) (b : Bool) : val (s ++ [b]) = 2 * val s + b.toNat := by
  simp [val]

theorem val_append (s t : Bits) : val (s ++ t) = 2 ^ t.length * val s + val t := by
  induction t using List.reverseRecOn generalizing s with
  | nil => simp
  | append_singleton t b ih =>
    rw [← List.append_assoc, val_concat, ih, val_concat, List.length_append, List.length_singleton, pow_succ]
    ring

theorem val_cons (b : Bool) (s : Bits) : val (b :: s) = 2 ^ s.length * b.toNat + val s := by
  have h := val_append [b] s
  simpa [val] using h

/-- A bit string of length `L` denotes a number below `2^L`. -/
theorem val_lt (s : Bits) : val s < 2 ^ s.length := by
  induction s using List.reverseRecOn with
  | nil => simp
  | append_singleton s b ih =>
    rw [val_concat, List.length_append, List.length_singleton, pow_succ]
    cases b <;> simp <;> omega

@[simp] theorem lowBits_length (k n : Nat) : (lowBits k n).length = k := by
  induction k generalizing n with
  | zero => rfl
  | succ k ih => simp [lowBits, ih]

/-- The low `k` bits of `n` denote `n mod 2^k`. -/
theorem val_lowBits (k n : Nat) : val (lowBits k n) = n % 2 ^ k := by
  induction k generalizing n with
  | zero => simp [lowBits, Nat.mod_one]
  | succ k ih =>
    have hb : (n % 2 == 1).toNat = n % 2 := by rcases Nat.mod_two_eq_zero_or_one n with h | h <;> simp [h]
    rw [lowBits, val_concat, ih, hb, pow_succ, mul_comm (2 ^ k), Nat.mod_mul]
    omega

/-- Two bit strings of one length and one value are one string. -/
theorem eq_of_val_eq {s t : Bits} (hl : s.length = t.length) (hv : val s = val t) : s = t := by
  induction s using List.reverseRecOn generalizing t with
  | nil => exact (List.length_eq_zero_iff.1 hl.symm).symm
  | append_singleton s b ih =>
    rcases List.eq_nil_or_concat t with rfl | ⟨t, c, rfl⟩
    · simp at hl
    · rw [List.concat_eq_append] at hl hv ⊢
      rw [val_concat, val_concat] at hv
      have hbc : b = c := by cases b <;> cases c <;> simp at hv ⊢ <;> omega
      subst hbc
      rw [ih (by simpa using hl) (by omega)]

/-! ## Bit lengths (00_scope.md R13) -/

@[simp] theorem blen_zero : blen 0 = 0 := rfl

@[simp] theorem blen_one : blen 1 = 1 := by decide

theorem blen_pos {n : Nat} (h : 1 ≤ n) : 1 ≤ blen n := by
  unfold blen
  split <;> omega

/-- `2^(L-1) <= n < 2^L`. -/
theorem blen_spec {n : Nat} (h : 1 ≤ n) : 2 ^ (blen n - 1) ≤ n ∧ n < 2 ^ blen n := by
  have hn : n ≠ 0 := by omega
  simp only [blen, hn, if_false, Nat.add_sub_cancel]
  exact ⟨Nat.log2_self_le hn, Nat.lt_log2_self⟩

/-- The bit length is the unique `L` with `2^(L-1) <= n < 2^L`. -/
theorem blen_unique {n k : Nat} (hk : 1 ≤ k) (h1 : 2 ^ (k - 1) ≤ n) (h2 : n < 2 ^ k) : blen n = k := by
  have hn : 1 ≤ n := le_trans Nat.one_le_two_pow h1
  obtain ⟨h3, h4⟩ := blen_spec hn
  have hb := blen_pos hn
  have h5 : k - 1 < blen n := (Nat.pow_lt_pow_iff_right (by omega)).1 (lt_of_le_of_lt h1 h4)
  have h6 : blen n - 1 < k := (Nat.pow_lt_pow_iff_right (by omega)).1 (lt_of_le_of_lt h3 h2)
  omega

theorem blen_lt {n : Nat} (h : 2 ≤ n) : blen n - 1 < n := by
  have h1 := (blen_spec (show 1 ≤ n by omega)).1
  exact lt_of_lt_of_le Nat.lt_two_pow_self h1

@[simp] theorem bin_length (n : Nat) : (bin n).length = blen n := by simp [bin]

/-- `val(bin(n)) = n` (00_scope.md R13). -/
theorem val_bin (n : Nat) : val (bin n) = n := by
  rcases Nat.eq_zero_or_pos n with rfl | h
  · rfl
  · rw [bin, val_lowBits, Nat.mod_eq_of_lt (blen_spec h).2]

/-- `bin(n)[0] = 1` (00_scope.md R13). -/
theorem bin_head {n : Nat} (h : 1 ≤ n) : ∃ r, bin n = true :: r := by
  have hl := bin_length n
  have hv := val_bin n
  have hb := blen_pos h
  cases hbin : bin n with
  | nil => simp [hbin] at hl; omega
  | cons b r =>
    cases b with
    | true => exact ⟨r, rfl⟩
    | false =>
      rw [hbin, val_cons] at hv
      simp only [hbin, List.length_cons] at hl
      have h1 := val_lt r
      have h2 := (blen_spec h).1
      rw [← hl] at h2
      simp at hv h2
      omega

/-! ## Bytes and bits (20_memory.md R67) -/

@[simp] theorem byteBits_length (b : Byte) : (byteBits b).length = 8 := by simp [byteBits]

/-- Bit `k` of a byte's bits is the byte's bit `7 - k`. -/
theorem byteBits_getD (b : Byte) {k : Nat} (hk : k < 8) : (byteBits b).getD k false = b.getLsbD (7 - k) := by
  simp [byteBits, List.getD, hk]

@[simp] theorem paddedGroup_length (bs : Bits) (j : Nat) : (paddedGroup bs j).length = 8 := by simp [paddedGroup]

/-! ## Fibonacci numbers (41_universal_codec.md R170) -/

@[simp] theorem fibF_zero : fibF 0 = 1 := rfl

@[simp] theorem fibF_one : fibF 1 = 1 := rfl

theorem fibF_add_two (k : Nat) : fibF (k + 2) = fibF (k + 1) + fibF k := by
  simp [fibF, fibPair, Nat.add_comm]

theorem fibF_pos (k : Nat) : 1 ≤ fibF k := by
  induction k using Nat.twoStepInduction with
  | zero => simp
  | one => simp
  | more k h1 h2 => rw [fibF_add_two]; omega

theorem fibF_le_succ (k : Nat) : fibF k ≤ fibF (k + 1) := by
  cases k with
  | zero => simp
  | succ k => rw [fibF_add_two]; omega

/-- `F(k) >= k`, so that `top(n) <= n`. -/
theorem le_fibF (k : Nat) : k ≤ fibF k := by
  induction k using Nat.twoStepInduction with
  | zero => simp
  | one => simp
  | more k h1 h2 => rw [fibF_add_two]; have := fibF_pos k; omega

@[simp] theorem fibDigits_length (m r : Nat) : (fibDigits m r).length = m := by
  induction m generalizing r with
  | zero => rfl
  | succ m ih => simp only [fibDigits]; split <;> simp [ih]

/-- The search for `top(n)` ends at an index whose Fibonacci number is at most `n` and whose next one is above. -/
theorem fibTopFrom_spec {fuel m n : Nat} (hm : fibF m ≤ n) (hf : n < m + fuel + 1) :
    fibF (fibTopFrom fuel m n) ≤ n ∧ n < fibF (fibTopFrom fuel m n + 1) := by
  induction fuel generalizing m with
  | zero => exact ⟨hm, lt_of_lt_of_le hf (le_fibF (m + 1))⟩
  | succ fuel ih =>
    simp only [fibTopFrom]
    split
    · exact ih ‹_› (by omega)
    · exact ⟨hm, by omega⟩

/-- `top(n)` is the largest `m` with `F(m) <= n` (41_universal_codec.md R170). -/
theorem fibTop_spec {n : Nat} (h : 1 ≤ n) : fibF (fibTop n) ≤ n ∧ n < fibF (fibTop n + 1) :=
  fibTopFrom_spec (by simpa using h) (by omega)

/-! ## Code words and decoders -/

/-- No code word is empty (41_universal_codec.md R151). -/
theorem codeWord_ne_nil (sch : Scheme) {n : Nat} (h : 1 ≤ n) : codeWord sch n ≠ [] := by
  cases sch with
  | gamma => obtain ⟨r, hr⟩ := bin_head h; simp [codeWord, gammaWord, hr]
  | delta => obtain ⟨r, hr⟩ := bin_head (blen_pos h); simp [codeWord, deltaWord, gammaWord, hr]
  | omega => simp [codeWord, omegaWord]
  | fibonacci => simp [codeWord, fibWord]

/-- `enc` answers the code word, or raises one of its two errors. -/
theorem enc_cases (tokenW : Option Nat) (sch : Scheme) (n : Nat) :
    (n = 0 ∧ enc tokenW sch n = .error .invalidArgument) ∨
    (1 ≤ n ∧ fitsWidth tokenW n = true ∧ enc tokenW sch n = .ok (codeWord sch n)) ∨
    (1 ≤ n ∧ fitsWidth tokenW n = false ∧ enc tokenW sch n = .error .capacityExceeded) := by
  unfold enc
  by_cases h : n = 0
  · simp [h]
  · by_cases hf : fitsWidth tokenW n = true
    · simp [h, hf]; omega
    · simp [h, hf]; omega

/-- `enc` of a value of at least 1 in an unbounded build. -/
theorem enc_unbounded (sch : Scheme) {n : Nat} (h : 1 ≤ n) : enc none sch n = .ok (codeWord sch n) := by
  simp [enc, show n ≠ 0 by omega]

theorem returnValue_ok {tokenW : Option Nat} {v used v' used' : Nat}
    (h : returnValue tokenW v used = .ok (v', used')) : v' = v ∧ used' = used ∧ fitsWidth tokenW v = true := by
  unfold returnValue at h
  split at h
  · cases h; exact ⟨rfl, rfl, ‹_›⟩
  · cases h

theorem leadingZeros_le (r : Bits) : leadingZeros r ≤ r.length := by
  induction r with
  | nil => simp [leadingZeros]
  | cons b r ih => cases b <;> simp [leadingZeros, ih]

/-- The bits after the zero run begin with a `1`. -/
theorem drop_leadingZeros {r : Bits} (h : leadingZeros r < r.length) : ∃ t, r.drop (leadingZeros r) = true :: t := by
  induction r with
  | nil => simp at h
  | cons b r ih =>
    cases b with
    | true => exact ⟨r, rfl⟩
    | false => simpa [leadingZeros] using ih (by simpa [leadingZeros] using h)

/-- What `dec(G, p)` answers consumes at least one bit, none beyond the string, and is at least 1
(41_universal_codec.md R151, R157). -/
theorem decGamma_ok {tokenW : Option Nat} {r : Bits} {v used : Nat} (h : decGamma tokenW r = .ok (v, used)) :
    1 ≤ v ∧ 1 ≤ used ∧ used ≤ r.length ∧ fitsWidth tokenW v = true := by
  unfold decGamma at h
  simp only at h
  split at h
  · cases h
  · split at h
    · cases h
    · obtain ⟨rfl, rfl, hf⟩ := returnValue_ok h
      refine ⟨?_, by omega, by omega, hf⟩
      obtain ⟨t, ht⟩ := drop_leadingZeros (r := r) (by omega)
      have hk : leadingZeros r + (leadingZeros r + 1) - leadingZeros r = leadingZeros r + 1 := by omega
      rw [slice, ht, hk, List.take_succ_cons, val_cons]
      have := Nat.one_le_two_pow (n := (t.take (leadingZeros r)).length)
      simp only [Bool.toNat_true, mul_one]
      omega

/-- The same of `dec(D, p)` (41_universal_codec.md R162). -/
theorem decDelta_ok {tokenW : Option Nat} {r : Bits} {v used : Nat} (h : decDelta tokenW r = .ok (v, used)) :
    1 ≤ v ∧ 1 ≤ used ∧ used ≤ r.length ∧ fitsWidth tokenW v = true := by
  unfold decDelta at h
  split at h
  · cases h
  · rename_i len p hg
    obtain ⟨h1, h2, h3, -⟩ := decGamma_ok hg
    split at h
    · cases h
    · obtain ⟨rfl, rfl, hf⟩ := returnValue_ok h
      have := Nat.one_le_two_pow (n := len - 1)
      exact ⟨by omega, by omega, by omega, hf⟩

/-- The same of the omega loop (41_universal_codec.md R167). -/
theorem decOmegaFrom_ok {tokenW : Option Nat} {fuel acc used : Nat} {r : Bits} {v used' : Nat} (ha : 1 ≤ acc)
    (h : decOmegaFrom tokenW fuel acc used r = .ok (v, used')) :
    1 ≤ v ∧ used + 1 ≤ used' ∧ used' ≤ used + r.length ∧ fitsWidth tokenW v = true := by
  induction fuel generalizing acc used r with
  | zero => cases h
  | succ fuel ih =>
    cases r with
    | nil => cases h
    | cons b r =>
      cases b with
      | false =>
        obtain ⟨rfl, rfl, hf⟩ := returnValue_ok h
        exact ⟨ha, le_rfl, by simp, hf⟩
      | true =>
        simp only [decOmegaFrom] at h
        split at h
        · cases h
        · rename_i hlen
          have hpos : 1 ≤ val ((true :: r).take (acc + 1)) := by
            rw [List.take_succ_cons, val_cons]
            have := Nat.one_le_two_pow (n := (r.take acc).length)
            simp only [Bool.toNat_true, mul_one]
            omega
          obtain ⟨h1, h2, h3, h4⟩ := ih hpos h
          simp only [List.length_drop, List.length_cons] at h3 hlen ⊢
          exact ⟨h1, by omega, by omega, h4⟩

/-- The same of the Fibonacci loop (41_universal_codec.md R173). -/
theorem decFibFrom_ok {tokenW : Option Nat} {k sum : Nat} {prevbit : Bool} {r : Bits} {v used : Nat} (hk : 1 ≤ k)
    (hs : prevbit = true → 1 ≤ sum) (h : decFibFrom tokenW k sum prevbit r = .ok (v, used)) :
    1 ≤ v ∧ k ≤ used ∧ used + 1 ≤ k + r.length ∧ fitsWidth tokenW v = true := by
  induction r generalizing k sum prevbit with
  | nil => cases h
  | cons b r ih =>
    simp only [decFibFrom] at h
    split at h
    · rename_i hb
      obtain ⟨rfl, rfl, hf⟩ := returnValue_ok h
      simp only [Bool.and_eq_true] at hb
      exact ⟨hs hb.2, le_rfl, by simp, hf⟩
    · have := fibF_pos k
      obtain ⟨h1, h2, h3, h4⟩ := ih (by omega) (by intro hb; simp [hb]; omega) h
      simp only [List.length_cons]
      exact ⟨h1, by omega, by omega, h4⟩

/-- What `dec(s, p)` answers: a value of at least 1 that the build holds, and a later index of the string
(41_universal_codec.md R151, R178). -/
theorem dec_ok {tokenW : Option Nat} {sch : Scheme} {bits : Bits} {p v p' : Nat}
    (h : dec tokenW sch bits p = .ok (v, p')) :
    1 ≤ v ∧ p < p' ∧ p' ≤ bits.length ∧ fitsWidth tokenW v = true := by
  unfold dec at h
  simp only at h
  split at h
  · rename_i w used hr
    obtain ⟨rfl, rfl⟩ : w = v ∧ p + used = p' := by simpa using h
    have key : 1 ≤ w ∧ 1 ≤ used ∧ used ≤ (bits.drop p).length ∧ fitsWidth tokenW w = true := by
      cases sch with
      | gamma => exact decGamma_ok hr
      | delta => exact decDelta_ok hr
      | omega => obtain ⟨h1, h2, h3, h4⟩ := decOmegaFrom_ok le_rfl hr; exact ⟨h1, by omega, by omega, h4⟩
      | fibonacci =>
        obtain ⟨h1, h2, h3, h4⟩ := decFibFrom_ok le_rfl (by simp) hr
        exact ⟨h1, by omega, by omega, h4⟩
    obtain ⟨h1, h2, h3, h4⟩ := key
    rw [List.length_drop] at h3
    exact ⟨h1, by omega, by omega, h4⟩
  · cases h

end Sys2Proof.Machine
end

