-- ==== Sys2Proof/Laws/Frames.lean ====
section
/-! SUPPORT. What no phase of any command touches (10_state.md R22, R23; 20_memory.md R60), and that every loop body
keeps it: `CMD`, `IB`, the build and the host. -/

namespace Sys2Proof.Machine

/-- What a run never writes after `START`: `CMD` (10_state.md R23), `IB` (20_memory.md R60), the build, the host. -/
def SameCommand (s t : State) : Prop :=
  t.cmd = s.cmd ∧ t.ib = s.ib ∧ t.params = s.params ∧ t.hostIn = s.hostIn ∧ t.hostOut = s.hostOut ∧
    t.freeCtr = s.freeCtr

theorem SameCommand.refl (s : State) : SameCommand s s := ⟨rfl, rfl, rfl, rfl, rfl, rfl⟩

theorem SameCommand.trans (a b c : State) : SameCommand a b → SameCommand b c → SameCommand a c := by
  rintro ⟨h1, h2, h3, h4, h5, h6⟩ ⟨g1, g2, g3, g4, g5, g6⟩
  exact ⟨g1.trans h1, g2.trans h2, g3.trans h3, g4.trans h4, g5.trans h5, g6.trans h6⟩

/-- A piece of a run that ends where it is said to, in one of its two ways. -/
theorem Run.Keeps.of_cases {R : State → State → Prop} {f : State → Run}
    (h : ∀ s, (∃ t, f s = .ok t ∧ R s t) ∨ ∃ e t, f s = .raised e t ∧ R s t) : Run.Keeps R f := by
  rintro s t (hf | ⟨e, hf⟩) <;> obtain ⟨u, hu, hR⟩ | ⟨e', u, hu, hR⟩ := h s <;> rw [hu] at hf <;> cases hf <;> exact hR

theorem Run.Keeps.ok_const {R : State → State → Prop} {g : State → State} (h : ∀ s, R s (g s)) :
    Run.Keeps R fun s => .ok (g s) :=
  .of_cases fun s => .inl ⟨_, rfl, h s⟩

theorem appendOB_keeps (v : List Byte) : Run.Keeps SameCommand (appendOB v) :=
  .of_cases fun s => by
    obtain ⟨-, h⟩ | ⟨-, h⟩ := appendOB_cases v s
    · exact .inl ⟨_, h, rfl, rfl, rfl, rfl, rfl, rfl⟩
    · exact .inr ⟨_, _, h, .refl s⟩

theorem appendTK_keeps (v : List Token) : Run.Keeps SameCommand (appendTK v) :=
  .of_cases fun s => by
    obtain ⟨-, h⟩ | ⟨-, h⟩ := appendTK_cases v s
    · exact .inl ⟨_, h, rfl, rfl, rfl, rfl, rfl, rfl⟩
    · exact .inr ⟨_, _, h, .refl s⟩

theorem appendBS_keeps (v : Bits) : Run.Keeps SameCommand (appendBS v) :=
  .of_cases fun s => by
    obtain ⟨-, h⟩ | ⟨-, h⟩ := appendBS_cases v s
    · exact .inl ⟨_, h, rfl, rfl, rfl, rfl, rfl, rfl⟩
    · exact .inr ⟨_, _, h, .refl s⟩

theorem initDict_keeps : Run.Keeps SameCommand initDict :=
  .of_cases fun s => by
    obtain h | h := initDict_cases s
    · exact .inl ⟨_, h, rfl, rfl, rfl, rfl, rfl, rfl⟩
    · exact .inr ⟨_, _, h, .refl s⟩

theorem insertPhrase_keeps (p : Phrase) : Run.Keeps SameCommand (insertPhrase p) :=
  .of_cases fun s => by
    obtain h | h := insertPhrase_cases p s
    · exact .inl ⟨_, h, rfl, rfl, rfl, rfl, rfl, rfl⟩
    · exact .inr ⟨_, _, h, .refl s⟩

theorem noteEncoded_same (sch : Scheme) (n : Nat) (s : State) : SameCommand s (noteEncoded sch n s) := by
  cases sch <;> exact ⟨rfl, rfl, rfl, rfl, rfl, rfl⟩

theorem noteDecoded_same (sch : Scheme) (v : Nat) (s : State) : SameCommand s (noteDecoded sch v s) := by
  cases sch <;> exact ⟨rfl, rfl, rfl, rfl, rfl, rfl⟩

/-- A piece of a run applied to a state that already differs from the start in kept ways. -/
theorem Run.Keeps.after {f : State → Run} (hf : Run.Keeps SameCommand f) {g : State → State}
    (hg : ∀ s, SameCommand s (g s)) : Run.Keeps SameCommand fun s => f (g s) :=
  fun s t h => SameCommand.trans _ _ _ (hg s) (hf (g s) t h)

theorem appendCode_keeps (sch : Scheme) (n : Nat) : Run.Keeps SameCommand (appendCode sch n) := by
  intro s t h
  unfold appendCode at h
  split at h
  · exact (appendBS_keeps _).after (noteEncoded_same sch n) s t h
  · exact (Run.Keeps.of_cases fun s => .inr ⟨_, s, rfl, .refl s⟩) s t h

theorem readCode_keeps (sch : Scheme) {f : Nat → State → Run} (hf : ∀ v, Run.Keeps SameCommand (f v)) :
    Run.Keeps SameCommand (readCode sch f) := by
  intro s t h
  unfold readCode at h
  split at h
  · rename_i v p _
    have hg : SameCommand s (noteDecoded sch v { s with bp := p }) :=
      SameCommand.trans s { s with bp := p } _ ⟨rfl, rfl, rfl, rfl, rfl, rfl⟩ (noteDecoded_same sch v _)
    exact SameCommand.trans _ _ _ hg (hf v _ t h)
  · exact (Run.Keeps.of_cases fun s => .inr ⟨_, s, rfl, .refl s⟩) s t h

/-! ## The phases -/

theorem Run.Keeps.raise {R : State → State → Prop} (refl : ∀ s, R s s) (e : ErrKind) : Run.Keeps R (Run.raised e) :=
  .of_cases fun s => .inr ⟨e, s, rfl, refl s⟩

theorem Run.Keeps.idle {R : State → State → Prop} (refl : ∀ s, R s s) : Run.Keeps R Run.ok :=
  .of_cases fun s => .inl ⟨s, rfl, refl s⟩

theorem Run.Keeps.seq {f g : State → Run} (hf : Run.Keeps SameCommand f) (hg : Run.Keeps SameCommand g) :
    Run.Keeps SameCommand fun s => (f s).bind g :=
  Run.Keeps.bind SameCommand.trans hf hg

theorem Run.Keeps.loop {f : State → Run} (hf : Run.Keeps SameCommand f) (k : Nat) :
    Run.Keeps SameCommand (Run.times k f) :=
  Run.Keeps.times SameCommand.refl SameCommand.trans hf k

theorem emitMatch_keeps : Run.Keeps SameCommand emitMatch :=
  fun s t h => appendTK_keeps _ s t h

theorem lzweByte_keeps : Run.Keeps SameCommand lzweByte := by
  intro s t h
  unfold lzweByte at h
  split at h
  · exact Run.Keeps.idle SameCommand.refl s t h
  · rename_i b _
    simp only at h
    split at h
    · exact (Run.Keeps.ok_const (g := fun s => { s with ip := s.ip + 1, w := s.w ++ [b] })
        fun _ => ⟨rfl, rfl, rfl, rfl, rfl, rfl⟩) s t h
    · exact ((emitMatch_keeps.seq (insertPhrase_keeps (s.w ++ [b]))).seq
        (Run.Keeps.ok_const (g := fun s => { s with w := [b] }) fun _ => ⟨rfl, rfl, rfl, rfl, rfl, rfl⟩)).after
        (g := fun s => { s with ip := s.ip + 1 }) (fun _ => ⟨rfl, rfl, rfl, rfl, rfl, rfl⟩) s t h

theorem lzweFlush_keeps : Run.Keeps SameCommand lzweFlush := by
  intro s t h
  unfold lzweFlush at h
  split at h
  · exact Run.Keeps.idle SameCommand.refl s t h
  · exact emitMatch_keeps s t h

theorem enterLzwe_keeps : Run.Keeps SameCommand enterLzwe :=
  (initDict_keeps.seq (Run.Keeps.ok_const (g := fun s => { s with w := [], ip := 0 })
    fun _ => ⟨rfl, rfl, rfl, rfl, rfl, rfl⟩)).after
    (g := fun s => { s with phase := .lzwe, tk := [] }) fun _ => ⟨rfl, rfl, rfl, rfl, rfl, rfl⟩

theorem lzwePhase_keeps : Run.Keeps SameCommand lzwePhase :=
  enterLzwe_keeps.seq fun s => (lzweByte_keeps.loop (s.ibLen - s.ip)).seq lzweFlush_keeps s

theorem lzwdFirst_keeps : Run.Keeps SameCommand lzwdFirst := by
  intro s t h
  unfold lzwdFirst at h
  split at h
  · exact Run.Keeps.idle SameCommand.refl s t h
  · simp only at h
    split at h
    · exact ((Run.Keeps.raise SameCommand.refl _).after (g := fun s => { s with tp := s.tp + 1 })
        fun _ => ⟨rfl, rfl, rfl, rfl, rfl, rfl⟩) s t h
    · rename_i p _
      exact ((appendOB_keeps p).after (g := fun s => { s with tp := s.tp + 1, prev := p })
        fun _ => ⟨rfl, rfl, rfl, rfl, rfl, rfl⟩) s t h

theorem lzwdNext_keeps : Run.Keeps SameCommand lzwdNext := by
  intro s t h
  unfold lzwdNext at h
  split at h
  · exact Run.Keeps.idle SameCommand.refl s t h
  · simp only at h
    split at h
    · exact ((Run.Keeps.raise SameCommand.refl _).after (g := fun s => { s with tp := s.tp + 1 })
        fun _ => ⟨rfl, rfl, rfl, rfl, rfl, rfl⟩) s t h
    · rename_i p _
      exact ((((appendOB_keeps p).seq (insertPhrase_keeps (s.prev ++ p.take 1))).seq
        (Run.Keeps.ok_const fun s => (⟨rfl, rfl, rfl, rfl, rfl, rfl⟩ : SameCommand s { s with prev := s.entry }))).after
        (g := fun s => { s with tp := s.tp + 1, entry := p })
        fun _ => ⟨rfl, rfl, rfl, rfl, rfl, rfl⟩) s t h

theorem enterLzwd_keeps : Run.Keeps SameCommand enterLzwd :=
  (initDict_keeps.seq (Run.Keeps.ok_const (g := fun s => { s with tp := 0 })
    fun _ => ⟨rfl, rfl, rfl, rfl, rfl, rfl⟩)).after
    (g := fun s => { s with phase := .lzwd, ob := [] }) fun _ => ⟨rfl, rfl, rfl, rfl, rfl, rfl⟩

theorem lzwdPhase_keeps : Run.Keeps SameCommand lzwdPhase :=
  enterLzwd_keeps.seq fun s => (lzwdFirst_keeps.seq (lzwdNext_keeps.loop (s.tkLen - 1))) s

theorem packByte_keeps : Run.Keeps SameCommand packByte :=
  fun s t h => appendOB_keeps _ s t h

theorem packPhase_keeps : Run.Keeps SameCommand packPhase :=
  (Run.Keeps.ok_const (g := fun s => { s with phase := .pack, ob := [] })
    fun _ => ⟨rfl, rfl, rfl, rfl, rfl, rfl⟩).seq fun s => packByte_keeps.loop _ s

theorem unpackByte_keeps : Run.Keeps SameCommand unpackByte := by
  intro s t h
  unfold unpackByte at h
  split at h
  · exact Run.Keeps.idle SameCommand.refl s t h
  · exact ((appendBS_keeps _).after (g := fun s => { s with ip := s.ip + 1 })
      fun _ => ⟨rfl, rfl, rfl, rfl, rfl, rfl⟩) s t h

theorem unpackPhase_keeps : Run.Keeps SameCommand unpackPhase :=
  (Run.Keeps.ok_const (g := fun s => { s with phase := .unpack, bs := [], ip := 0 })
    fun _ => ⟨rfl, rfl, rfl, rfl, rfl, rfl⟩).seq fun s => unpackByte_keeps.loop _ s

theorem serToken_keeps (sch : Scheme) : Run.Keeps SameCommand (serToken sch) := by
  intro s t h
  unfold serToken at h
  split at h
  · exact Run.Keeps.idle SameCommand.refl s t h
  · exact ((appendCode_keeps sch _).after (g := fun s => { s with tp := s.tp + 1 })
      fun _ => ⟨rfl, rfl, rfl, rfl, rfl, rfl⟩) s t h

theorem serPhase_keeps (sch : Scheme) : Run.Keeps SameCommand (serPhase sch) :=
  (Run.Keeps.ok_const (g := fun s => { s with phase := .ser, bs := [], ob := [], tp := 0 })
    fun _ => ⟨rfl, rfl, rfl, rfl, rfl, rfl⟩).seq fun s =>
      (Run.Keeps.seq (fun s => appendCode_keeps sch _ s) ((serToken_keeps sch).loop s.tkLen)) s

theorem desHeader_keeps (sch : Scheme) : Run.Keeps SameCommand (desHeader sch) :=
  readCode_keeps sch fun v s t h => by
    simp only at h
    split at h
    · exact ((Run.Keeps.raise SameCommand.refl _).after (g := fun s => { s with hv := v })
        fun _ => ⟨rfl, rfl, rfl, rfl, rfl, rfl⟩) s t h
    · split at h
      · exact ((Run.Keeps.raise SameCommand.refl _).after (g := fun s => { s with hv := v, cnt := v - 1 })
          fun _ => ⟨rfl, rfl, rfl, rfl, rfl, rfl⟩) s t h
      · exact (Run.Keeps.ok_const (g := fun s => { s with hv := v, cnt := v - 1 })
          fun _ => ⟨rfl, rfl, rfl, rfl, rfl, rfl⟩) s t h

theorem desToken_keeps (sch : Scheme) : Run.Keeps SameCommand (desToken sch) :=
  readCode_keeps sch fun v => appendTK_keeps [v - 1]

theorem desPhase_keeps (sch : Scheme) : Run.Keeps SameCommand (desPhase sch) :=
  (Run.Keeps.ok_const (g := fun s => { s with phase := .des, tk := [], bp := 0 })
    fun _ => ⟨rfl, rfl, rfl, rfl, rfl, rfl⟩).seq
    ((desHeader_keeps sch).seq fun s => (desToken_keeps sch).loop s.cnt s)

theorem uencPhase_keeps (sch : Scheme) : Run.Keeps SameCommand (uencPhase sch) :=
  (Run.Keeps.ok_const (g := fun s => { s with phase := .uenc, bs := [] })
    fun _ => ⟨rfl, rfl, rfl, rfl, rfl, rfl⟩).seq fun s => appendCode_keeps sch _ s

theorem udecPhase_keeps (sch : Scheme) : Run.Keeps SameCommand (udecPhase sch) :=
  (Run.Keeps.ok_const (g := fun s => { s with phase := .udec })
    fun _ => ⟨rfl, rfl, rfl, rfl, rfl, rfl⟩).seq
    (readCode_keeps sch fun v => Run.Keeps.ok_const (g := fun s => { s with n := v })
      fun _ => ⟨rfl, rfl, rfl, rfl, rfl, rfl⟩)

theorem serRule_keeps (sch : Scheme) : Run.Keeps SameCommand (serRule sch) := (serPhase_keeps sch).seq packPhase_keeps

theorem desRule_keeps (sch : Scheme) : Run.Keeps SameCommand (desRule sch) := unpackPhase_keeps.seq (desPhase_keeps sch)

theorem compressRule_keeps (sch : Scheme) : Run.Keeps SameCommand (compressRule sch) := by
  intro s t h
  unfold compressRule at h
  split at h
  · exact (Run.Keeps.ok_const (g := fun s => { s with status := setNtd s.status })
      fun _ => ⟨rfl, rfl, rfl, rfl, rfl, rfl⟩) s t h
  · exact (lzwePhase_keeps.seq (serRule_keeps sch)) s t h

theorem decompressRule_keeps (sch : Scheme) : Run.Keeps SameCommand (decompressRule sch) := by
  intro s t h
  unfold decompressRule at h
  split at h
  · exact Run.Keeps.idle SameCommand.refl s t h
  · exact ((desRule_keeps sch).seq lzwdPhase_keeps) s t h

/-- No command's rule writes `CMD`, `IB`, the build or the host's side. -/
theorem ruleOf_keeps (i : Instr) : Run.Keeps SameCommand (ruleOf i) := by
  cases i with
  | compressG | compressD | compressO | compressF => exact compressRule_keeps _
  | decompressG | decompressD | decompressO | decompressF => exact decompressRule_keeps _
  | lzwe => exact lzwePhase_keeps
  | lzwd => exact lzwdPhase_keeps
  | serG | serD | serO | serF => exact serRule_keeps _
  | desG | desD | desO | desF => exact desRule_keeps _
  | uencG | uencD | uencO | uencF => exact uencPhase_keeps _
  | udecG | udecD | udecO | udecF => exact udecPhase_keeps _
  | pack => exact packPhase_keeps
  | unpack => exact unpackPhase_keeps

end Sys2Proof.Machine
end

