-- ==== Sys2Proof/Laws/Memory.lean ====
section
/-! SUPPORT. Every operation over memory keeps memory's form, `Memory.wf` (00_scope.md R10; 60_exceptions.md R283). -/

namespace Sys2Proof.Machine

/-- Memory's form, clause by clause. -/
theorem Memory.wf_iff (s : State) : Memory.wf s = true ↔
    lengthFits s.params.ibCap s.params.lenW s.ib.length = true ∧
    lengthFits s.params.obCap s.params.lenW s.ob.length = true ∧
    lengthFits s.params.tkCap s.params.lenW s.tk.length = true ∧
    lengthFits s.params.bsCap s.params.lenW s.bs.length = true ∧
    (∀ t ∈ s.tk, fitsWidth s.params.tokenW t = true) ∧
    fitsWidth s.params.tokenW s.n = true ∧
    atMost s.params.dictCap s.dict.length = true ∧
    (s.params.tokenW.elim true fun w => s.dict.length ≤ 2 ^ w) = true ∧
    ∀ p ∈ s.dict, atMost s.params.phraseCap p.length = true := by
  simp only [Memory.wf, State.ibLen, State.obLen, State.tkLen, State.bsLen, State.nc, Bool.and_eq_true,
    List.all_eq_true, and_assoc]
  exact Iff.rfl

/-! ## Widths and capacities -/

theorem atMost_zero (cap : Option Nat) : atMost cap 0 = true := by cases cap <;> simp [atMost]

theorem fitsWidth_zero (w : Option Nat) : fitsWidth w 0 = true := by cases w <;> simp [fitsWidth]

/-- Every buffer can be empty. -/
theorem lengthFits_zero (cap lenW : Option Nat) : lengthFits cap lenW 0 = true := by
  simp [lengthFits, atMost_zero, fitsWidth_zero]

/-- No dictionary is within every build. -/
theorem noDict_fits (w : Option Nat) : (w.elim true fun w => ([] : List Phrase).length ≤ 2 ^ w) = true := by
  cases w <;> simp

/-! ## Appends and the dictionary -/

/-- A piece of a run that keeps memory's form. -/
abbrev KeepsWf (f : State → Run) : Prop := Run.Keeps (fun s t => Memory.wf s = true → Memory.wf t = true) f

/-- A piece of a run that either makes one update or raises `CapacityExceeded` where it stands keeps what its update
keeps. -/
theorem KeepsWf.of_update {f : State → Run} (h : ∀ s, (∃ t, f s = .ok t ∧ (Memory.wf s = true → Memory.wf t = true)) ∨
    f s = .raised .capacityExceeded s) : KeepsWf f := by
  rintro s t (hf | ⟨e, hf⟩) <;> obtain ⟨u, hu, hk⟩ | hu := h s <;> rw [hu] at hf <;> cases hf
  · exact hk
  · exact id

theorem appendOB_wf (v : List Byte) : KeepsWf (appendOB v) :=
  .of_update fun s => by
    obtain ⟨hf, h⟩ | ⟨-, h⟩ := appendOB_cases v s
    · refine .inl ⟨_, h, fun hw => ?_⟩
      simp only [Memory.wf_iff, List.length_append] at hw ⊢
      exact ⟨hw.1, hf, hw.2.2⟩
    · exact .inr h

/-- The tokens appended must be tokens of the build (00_scope.md R10, `TOKEN_W`). -/
theorem appendTK_wf (v : List Token) (s t : State) (hv : ∀ k ∈ v, fitsWidth s.params.tokenW k = true)
    (hw : Memory.wf s = true) (h : appendTK v s = .ok t ∨ ∃ e, appendTK v s = .raised e t) : Memory.wf t = true := by
  obtain ⟨hf, hr⟩ | ⟨-, hr⟩ := appendTK_cases v s <;> rw [hr] at h <;> obtain h | ⟨e, h⟩ := h <;> cases h
  · simp only [Memory.wf_iff, List.length_append, List.mem_append] at hw ⊢
    obtain ⟨h1, h2, -, h4, h5, h6⟩ := hw
    exact ⟨h1, h2, hf, h4, fun k hk => hk.elim (h5 k) (hv k), h6⟩
  · exact hw

theorem appendBS_wf (v : Bits) : KeepsWf (appendBS v) :=
  .of_update fun s => by
    obtain ⟨hf, h⟩ | ⟨-, h⟩ := appendBS_cases v s
    · refine .inl ⟨_, h, fun hw => ?_⟩
      simp only [Memory.wf_iff, List.length_append] at hw ⊢
      exact ⟨hw.1, hw.2.1, hw.2.2.1, hf, hw.2.2.2.2⟩
    · exact .inr h

theorem initDict_wf : KeepsWf initDict :=
  .of_update fun s => by
    unfold initDict
    split
    · rename_i hf
      refine .inl ⟨_, rfl, fun hw => ?_⟩
      simp only [Bool.and_eq_true, and_assoc] at hf
      simp only [Memory.wf_iff, seedDict_length] at hw ⊢
      obtain ⟨h1, h2, h3, h4, h5, h6, -⟩ := hw
      refine ⟨h1, h2, h3, h4, h5, h6, hf.1, hf.2.1, fun p hp => ?_⟩
      obtain ⟨c, -, rfl⟩ := List.mem_map.1 hp
      exact hf.2.2
    · exact .inr rfl

theorem insertPhrase_wf (p : Phrase) : KeepsWf (insertPhrase p) :=
  .of_update fun s => by
    unfold insertPhrase State.nc
    split
    · rename_i hf
      refine .inl ⟨_, rfl, fun hw => ?_⟩
      simp only [Bool.and_eq_true, and_assoc] at hf
      simp only [Memory.wf_iff, List.length_append, List.length_singleton, List.mem_append, List.mem_singleton] at hw ⊢
      obtain ⟨h1, h2, h3, h4, h5, h6, -, -, h9⟩ := hw
      refine ⟨h1, h2, h3, h4, h5, h6, hf.1, ?_, fun q hq => hq.elim (h9 q) fun hq => hq ▸ hf.2.2⟩
      have hn := hf.2.1
      cases htw : s.params.tokenW with
      | none => rfl
      | some w =>
        simp only [htw, fitsWidth, decide_eq_true_eq] at hn
        simpa using hn
    · exact .inr rfl

/-! ## The start and the ends of a run -/

theorem clearBuffers_wf (ws : List Dest) (s : State) (hw : Memory.wf s = true) :
    Memory.wf (clearBuffers ws s) = true := by
  simp only [Memory.wf_iff, clearBuffers_params, clearBuffers_ib, clearBuffers_ob, clearBuffers_tk, clearBuffers_bs,
    clearBuffers_n, clearBuffers_dict] at hw ⊢
  obtain ⟨h1, h2, h3, h4, h5, h6, h7, h8, h9⟩ := hw
  refine ⟨h1, ?_, ?_, ?_, ?_, h6, ?_, ?_, ?_⟩
  · split
    · exact lengthFits_zero _ _
    · exact h2
  · split
    · exact lengthFits_zero _ _
    · exact h3
  · split
    · exact lengthFits_zero _ _
    · exact h4
  · split
    · simp
    · exact h5
  · split
    · exact atMost_zero _
    · exact h7
  · split
    · exact noDict_fits _
    · exact h8
  · split
    · simp
    · exact h9

theorem freshWorking_wf (s : State) (hw : Memory.wf s = true) : Memory.wf (freshWorking s) = true := by
  simp only [Memory.wf_iff, freshWorking_params, freshWorking_ib, freshWorking_ob, freshWorking_tk, freshWorking_bs,
    freshWorking_n, freshWorking_dict] at hw ⊢
  exact ⟨hw.1, hw.2.1, hw.2.2.1, hw.2.2.2.1, hw.2.2.2.2.1, hw.2.2.2.2.2.1, atMost_zero _, noDict_fits _, by simp⟩

theorem beginCommand_wf (i : Instr) (s : State) (hw : Memory.wf s = true) : Memory.wf (beginCommand i s) = true :=
  clearBuffers_wf _ _ (freshWorking_wf { s with cmd := encode i } hw)

theorem endRun_wf (s : State) (hw : Memory.wf s = true) : Memory.wf (endRun s) = true := hw

theorem errorStop_wf (ws : List Dest) (e : ErrKind) (s : State) (hw : Memory.wf s = true) :
    Memory.wf (errorStop ws e s) = true := by
  have h := freshWorking_wf _ (clearBuffers_wf ws s hw)
  simp only [Memory.wf_iff] at h ⊢
  obtain ⟨h1, h2, h3, h4, h5, h6, h7⟩ := h
  refine ⟨h1, h2, h3, h4, h5, ?_, h7⟩
  simp only [errorStop_n, errorStop_params]
  split
  · exact fitsWidth_zero _
  · exact h6

/-! ## The host's moves -/

theorem hostLoadIB_wf (data : List Byte) (s : State) (hw : Memory.wf s = true) :
    Memory.wf (hostLoadIB data s) = true := by
  unfold hostLoadIB
  split
  · exact hw
  · split
    · rename_i hf
      simp only [Memory.wf_iff] at hw ⊢
      exact ⟨hf, hw.2⟩
    · exact hw

theorem hostLoadTK_wf (data : List Token) (s : State) (hw : Memory.wf s = true) :
    Memory.wf (hostLoadTK data s) = true := by
  unfold hostLoadTK
  split
  · exact hw
  · split
    · rename_i hf
      simp only [Bool.and_eq_true, List.all_eq_true] at hf
      simp only [Memory.wf_iff] at hw ⊢
      exact ⟨hw.1, hw.2.1, hf.1, hw.2.2.2.1, hf.2, hw.2.2.2.2.2⟩
    · exact hw

theorem hostLoadBS_wf (data : Bits) (s : State) (hw : Memory.wf s = true) : Memory.wf (hostLoadBS data s) = true := by
  unfold hostLoadBS
  split
  · exact hw
  · split
    · rename_i hf
      simp only [Memory.wf_iff] at hw ⊢
      exact ⟨hw.1, hw.2.1, hw.2.2.1, hf, hw.2.2.2.2⟩
    · exact hw

theorem hostSetN_wf (v : Nat) (s : State) (hw : Memory.wf s = true) : Memory.wf (hostSetN v s) = true := by
  unfold hostSetN
  split
  · exact hw
  · split
    · rename_i hf
      simp only [Memory.wf_iff] at hw ⊢
      exact ⟨hw.1, hw.2.1, hw.2.2.1, hw.2.2.2.1, hw.2.2.2.2.1, hf, hw.2.2.2.2.2.2⟩
    · exact hw

theorem hostReset_wf (s : State) : Memory.wf (hostReset s) = true := by
  simp only [Memory.wf_iff, hostReset_params, hostReset_ib, hostReset_ob, hostReset_tk, hostReset_bs, hostReset_n,
    hostReset_dict]
  exact ⟨lengthFits_zero _ _, lengthFits_zero _ _, lengthFits_zero _ _, lengthFits_zero _ _, by simp, fitsWidth_zero _,
    atMost_zero _, noDict_fits _, by simp⟩

theorem hostRead_wf (x : Target) (s : State) (hw : Memory.wf s = true) : Memory.wf (hostRead x s) = true := hw

end Sys2Proof.Machine
end

