-- ==== Sys2Proof/Laws/PerInstr.lean ====
section
/-! SUPPORT. Statements made per command, one lemma per constructor of `Instr`. `LegalWord`: the fields of a command's
word are legal, are what the word holds, and carry a scheme exactly when the operation takes one. -/

namespace Sys2Proof.Laws.LegalWord

/-- The fields of `i` are well formed (30_encoding.md R97), the word of `i` holds them (R91), and `SCHEME` is zero where no
scheme is taken (R95). -/
def Statement (i : Instr) : Prop :=
  i.fields.wf = true ∧ Fields.ofWord (encode i) = i.fields ∧ (i.fields.takesScheme = true ∨ i.fields.scheme = 0)

theorem compressG : Statement .compressG := by unfold Statement; decide
theorem compressD : Statement .compressD := by unfold Statement; decide
theorem compressO : Statement .compressO := by unfold Statement; decide
theorem compressF : Statement .compressF := by unfold Statement; decide
theorem decompressG : Statement .decompressG := by unfold Statement; decide
theorem decompressD : Statement .decompressD := by unfold Statement; decide
theorem decompressO : Statement .decompressO := by unfold Statement; decide
theorem decompressF : Statement .decompressF := by unfold Statement; decide
theorem lzwe : Statement .lzwe := by unfold Statement; decide
theorem lzwd : Statement .lzwd := by unfold Statement; decide
theorem serG : Statement .serG := by unfold Statement; decide
theorem serD : Statement .serD := by unfold Statement; decide
theorem serO : Statement .serO := by unfold Statement; decide
theorem serF : Statement .serF := by unfold Statement; decide
theorem desG : Statement .desG := by unfold Statement; decide
theorem desD : Statement .desD := by unfold Statement; decide
theorem desO : Statement .desO := by unfold Statement; decide
theorem desF : Statement .desF := by unfold Statement; decide
theorem uencG : Statement .uencG := by unfold Statement; decide
theorem uencD : Statement .uencD := by unfold Statement; decide
theorem uencO : Statement .uencO := by unfold Statement; decide
theorem uencF : Statement .uencF := by unfold Statement; decide
theorem udecG : Statement .udecG := by unfold Statement; decide
theorem udecD : Statement .udecD := by unfold Statement; decide
theorem udecO : Statement .udecO := by unfold Statement; decide
theorem udecF : Statement .udecF := by unfold Statement; decide
theorem pack : Statement .pack := by unfold Statement; decide
theorem unpack : Statement .unpack := by unfold Statement; decide

end Sys2Proof.Laws.LegalWord
end

