-- ==== Sys2Proof/Tests/Slice0.lean ====
section
/-! SUPPORT. The model's own tests. Expected values are those of 95_test_vectors.md (V1 to V9) and of the encoding rules
of 30_encoding.md, never the model's output. Then one witness for every statement that has hypotheses. -/

open Sys2Proof Sys2Proof.Machine Sys2Proof.Claims

namespace Sys2Proof.Tests

set_option Elab.async false

/-! ## Small states -/

/-- A bit string, leftmost bit first. -/
def bitsOf (l : List Nat) : Bits := l.map (· == 1)

/-- Bytes from numbers. -/
def bytesOf (l : List Nat) : List Byte := l.map (BitVec.ofNat 8)

/-- After reset, with bytes loaded. -/
def withIB (l : List Nat) : State := { State.reset with ib := bytesOf l }

/-- After reset, with tokens loaded. -/
def withTK (l : List Nat) : State := { State.reset with tk := l }

/-- After reset, with bits loaded. -/
def withBS (l : List Nat) : State := { State.reset with bs := bitsOf l }

/-- After reset, with `N` set. -/
def withN (v : Nat) : State := { State.reset with n := v }

/-- A view of the state a run of `i` leaves, when it leaves one. -/
def afterRun {α : Type} (i : Instr) (s : State) (view : State → α) : Option α :=
  match exec i s with
  | .next t => some (view t)
  | _ => none

/-- A view of the state one step leaves, when it leaves one. -/
def afterStep {α : Type} (s : State) (view : State → α) : Option α :=
  match step s with
  | .next t => some (view t)
  | _ => none

/-! ## Well-formedness: what each check refuses (30_encoding.md R97; 45_host_interface.md R245, R246) -/

/-- Word `0x14`: `RSV != 00`. -/
theorem test_reserved_bits_not_wf : ({ op := 1, rsv := 1, scheme := 0 } : Fields).wf = false := by decide

/-- Words `0x00` and `0xB0`: `OP` not assigned. -/
theorem test_unassigned_op_not_wf : ({ op := 0, rsv := 0, scheme := 0 } : Fields).wf = false ∧
    ({ op := 11, rsv := 0, scheme := 0 } : Fields).wf = false := by decide

/-- Words `0x31`, `0x42`, `0x93`, `0xA1`: a scheme on a command that takes none. -/
theorem test_scheme_on_plain_command_not_wf : ({ op := 3, rsv := 0, scheme := 1 } : Fields).wf = false ∧
    ({ op := 4, rsv := 0, scheme := 2 } : Fields).wf = false ∧
    ({ op := 9, rsv := 0, scheme := 3 } : Fields).wf = false ∧
    ({ op := 10, rsv := 0, scheme := 1 } : Fields).wf = false := by decide

/-- A small build: two bytes, two tokens of four bits, two bits. -/
def smallBuild : Params :=
  { Params.default with tokenW := some 4, ibCap := some 2, tkCap := some 2, bsCap := some 2, obCap := some 1 }

theorem test_load_beyond_capacity_not_wf : (HostMove.loadIB [1, 2, 3]).wf smallBuild = false ∧
    (HostMove.loadTK [1, 2, 3]).wf smallBuild = false ∧
    (HostMove.loadBS [true, true, true]).wf smallBuild = false := by decide

theorem test_wide_values_not_wf : (HostMove.loadTK [16]).wf smallBuild = false ∧
    (HostMove.set .n 16).wf smallBuild = false ∧ (HostMove.set .n 15).wf smallBuild = true := by decide

/-! ## Decoding: words written out from `oooo00ss` (30_encoding.md R91 to R96) -/

theorem test_decode_compress : decode 0b00010000#8 = .ok .compressG ∧
    decode 0b00010001#8 = .ok .compressD ∧
    decode 0b00010010#8 = .ok .compressO ∧
    decode 0b00010011#8 = .ok .compressF := by decide

theorem test_decode_decompress : decode 0b00100000#8 = .ok .decompressG ∧
    decode 0b00100001#8 = .ok .decompressD ∧
    decode 0b00100010#8 = .ok .decompressO ∧
    decode 0b00100011#8 = .ok .decompressF := by decide

theorem test_decode_ser : decode 0b01010000#8 = .ok .serG ∧
    decode 0b01010001#8 = .ok .serD ∧
    decode 0b01010010#8 = .ok .serO ∧
    decode 0b01010011#8 = .ok .serF := by decide

theorem test_decode_des : decode 0b01100000#8 = .ok .desG ∧
    decode 0b01100001#8 = .ok .desD ∧
    decode 0b01100010#8 = .ok .desO ∧
    decode 0b01100011#8 = .ok .desF := by decide

theorem test_decode_uenc : decode 0b01110000#8 = .ok .uencG ∧
    decode 0b01110001#8 = .ok .uencD ∧
    decode 0b01110010#8 = .ok .uencO ∧
    decode 0b01110011#8 = .ok .uencF := by decide

theorem test_decode_udec : decode 0b10000000#8 = .ok .udecG ∧
    decode 0b10000001#8 = .ok .udecD ∧
    decode 0b10000010#8 = .ok .udecO ∧
    decode 0b10000011#8 = .ok .udecF := by decide

theorem test_decode_plain : decode 0b00110000#8 = .ok .lzwe ∧
    decode 0b01000000#8 = .ok .lzwd ∧
    decode 0b10010000#8 = .ok .pack ∧
    decode 0b10100000#8 = .ok .unpack := by decide

/-- The illegal words of V9, each with the test of 30_encoding.md R98 that it fails. -/
theorem test_decode_illegal :
    [0x14, 0x18, 0x1C, 0xFF#8].all (fun c => decode c == .error .reservedBits) = true ∧
    [0x00, 0x03, 0xB0, 0xC0, 0xF3#8].all (fun c => decode c == .error .reservedOp) = true ∧
    [0x31, 0x42, 0x93, 0xA1#8].all (fun c => decode c == .error .schemeNotZero) = true := by decide

/-- The table word of `SER.O`, and bits above the word are not read. -/
theorem test_decodeTableWord : decodeTableWord 8 0x52 = some .serO ∧ decodeTableWord 8 0x152 = some .serO ∧
    decodeTableWord 8 0x04 = none := by decide

/-! ## One run of each command -/

/-- V7. -/
theorem test_compressG_AAA :
    afterRun .compressG (withIB [65, 65, 65]) (fun t => (t.ob, t.tk, t.nc, t.status)) =
      some (bytesOf [0x60, 0x42, 0x00, 0x80, 0x80], [65, 256], 257, 0x02) := by decide +kernel

/-- V7. -/
theorem test_compressD_AAA :
    afterRun .compressD (withIB [65, 65, 65]) (fun t => (t.ob, t.tk, t.nc, t.status)) =
      some (bytesOf [0x53, 0x84, 0x24, 0x04], [65, 256], 257, 0x02) := by decide +kernel

/-- V7. -/
theorem test_compressO_AAA :
    afterRun .compressO (withIB [65, 65, 65]) (fun t => (t.ob, t.tk, t.nc, t.status)) =
      some (bytesOf [0xD6, 0x84, 0xE2, 0x02], [65, 256], 257, 0x02) := by decide +kernel

/-- V7. -/
theorem test_compressF_AAA :
    afterRun .compressF (withIB [65, 65, 65]) (fun t => (t.ob, t.tk, t.nc, t.status)) =
      some (bytesOf [0x32, 0x8C, 0x88, 0x60], [65, 256], 257, 0x02) := by decide +kernel

/-- P6. -/
theorem test_compressO_empty :
    afterRun .compressO State.reset (fun t => (t.ob, t.nc, t.status)) = some ([], 0, 0x0A) := by decide +kernel

/-- V7: the self-referential token, and `BP`. -/
theorem test_decompressG_AAA :
    afterRun .decompressG (withIB [0x60, 0x42, 0x00, 0x80, 0x80]) (fun t => (t.ob, t.bp, t.nc, t.status)) =
      some (bytesOf [65, 65, 65], 33, 257, 0x02) := by decide +kernel

/-- V7: the self-referential token, and `BP`. -/
theorem test_decompressD_AAA :
    afterRun .decompressD (withIB [0x53, 0x84, 0x24, 0x04]) (fun t => (t.ob, t.bp, t.nc, t.status)) =
      some (bytesOf [65, 65, 65], 30, 257, 0x02) := by decide +kernel

/-- V7: the self-referential token, and `BP`. -/
theorem test_decompressO_AAA :
    afterRun .decompressO (withIB [0xD6, 0x84, 0xE2, 0x02]) (fun t => (t.ob, t.bp, t.nc, t.status)) =
      some (bytesOf [65, 65, 65], 32, 257, 0x02) := by decide +kernel

/-- V7: the self-referential token, and `BP`. -/
theorem test_decompressF_AAA :
    afterRun .decompressF (withIB [0x32, 0x8C, 0x88, 0x60]) (fun t => (t.ob, t.bp, t.nc, t.status)) =
      some (bytesOf [65, 65, 65], 27, 257, 0x02) := by decide +kernel

/-- V8: the truncation has priority over the bad token (60_exceptions.md R273). -/
theorem test_decompressG_priority :
    afterRun .decompressG (withIB [0x30, 0x10, 0x80, 0x01, 0x38, 0x80, 0x10, 0xC0]) (fun t => (t.status, t.ob, t.tk, t.bp)) =
      some (0x36, [], [], 0) := by decide +kernel

/-- V7. -/
theorem test_decompressD_zero :
    afterRun .decompressD (withIB [0x48]) (fun t => (t.ob, t.status)) = some (bytesOf [0], 0x02) := by decide +kernel

/-- V8: a pad bit read as a token. -/
theorem test_decompressO_pad_tokens :
    afterRun .decompressO (withIB [0xA1, 0xC4, 0x04]) (fun t => (t.ob, t.tk, t.bp)) =
      some (bytesOf [0, 0, 0, 0], [0, 256, 0], 24) := by decide +kernel

/-- V8. -/
theorem test_decompressF_corrupt :
    afterRun .decompressF (withIB [0xFF]) (fun t => (t.status, t.ob, t.nc)) = some (0x46, [], 0) := by decide +kernel

/-- V1. -/
theorem test_lzwe_ABABABA :
    afterRun .lzwe (withIB [65, 66, 65, 66, 65, 66, 65]) (fun t => (t.tk, t.nc, t.status)) =
      some ([65, 66, 256, 258], 259, 0x02) := by decide +kernel

/-- V1. -/
theorem test_lzwe_empty :
    afterRun .lzwe State.reset (fun t => (t.tk, t.nc, t.status)) = some ([], 256, 0x02) := by decide +kernel

/-- V2. -/
theorem test_lzwd_self_referential :
    afterRun .lzwd (withTK [65, 66, 256, 258]) (fun t => (t.ob, t.nc, t.status)) =
      some (bytesOf [65, 66, 65, 66, 65, 66, 65], 259, 0x02) := by decide +kernel

/-- V2. -/
theorem test_lzwd_invalid :
    afterRun .lzwd (withTK [65, 256, 258]) (fun t => (t.ob, t.nc, t.status)) = some ([], 0, 0x26) := by decide +kernel

/-- V6. -/
theorem test_serG :
    afterRun .serG (withTK [65, 256]) (fun t => (t.bs, t.ob)) =
      some (bitsOf [0, 1, 1, 0, 0, 0, 0, 0, 0, 1, 0, 0, 0, 0, 1, 0, 0, 0, 0, 0, 0, 0, 0, 0, 1, 0, 0, 0, 0, 0, 0, 0, 1],
        bytesOf [0x60, 0x42, 0x00, 0x80, 0x80]) := by decide +kernel

/-- V6. -/
theorem test_serD :
    afterRun .serD (withTK [65, 256]) (fun t => (t.bs, t.ob)) =
      some (bitsOf [0, 1, 0, 1, 0, 0, 1, 1, 1, 0, 0, 0, 0, 1, 0, 0, 0, 0, 1, 0, 0, 1, 0, 0, 0, 0, 0, 0, 0, 1],
        bytesOf [0x53, 0x84, 0x24, 0x04]) := by decide +kernel

/-- V6. -/
theorem test_serO :
    afterRun .serO (withTK [65, 256]) (fun t => (t.bs, t.ob)) =
      some (bitsOf [1, 1, 0, 1, 0, 1, 1, 0, 1, 0, 0, 0, 0, 1, 0, 0, 1, 1, 1, 0, 0, 0, 1, 0, 0, 0, 0, 0, 0, 0, 1, 0],
        bytesOf [0xD6, 0x84, 0xE2, 0x02]) := by decide +kernel

/-- V6. -/
theorem test_serF :
    afterRun .serF (withTK [65, 256]) (fun t => (t.bs, t.ob)) =
      some (bitsOf [0, 0, 1, 1, 0, 0, 1, 0, 1, 0, 0, 0, 1, 1, 0, 0, 1, 0, 0, 0, 1, 0, 0, 0, 0, 1, 1],
        bytesOf [0x32, 0x8C, 0x88, 0x60]) := by decide +kernel

/-- V6. -/
theorem test_serG_empty :
    afterRun .serG State.reset (fun t => (t.ob, t.status)) = some (bytesOf [0x80], 0x02) := by decide +kernel

/-- V6. -/
theorem test_serO_empty :
    afterRun .serO State.reset (fun t => (t.ob, t.status)) = some (bytesOf [0x00], 0x02) := by decide +kernel

/-- V6. -/
theorem test_desG :
    afterRun .desG (withIB [0x40, 0x42, 0xFF, 0x12]) (fun t => (t.tk, t.bp, t.status)) = some ([65], 16, 0x02) := by decide +kernel

/-- V6's `SER.D` row read back; `BP` from V7. -/
theorem test_desD :
    afterRun .desD (withIB [0x53, 0x84, 0x24, 0x04]) (fun t => (t.tk, t.bp, t.status)) = some ([65, 256], 30, 0x02) := by decide +kernel

/-- V6. -/
theorem test_desO :
    afterRun .desO (withIB [0xC0]) (fun t => (t.tk, t.bp, t.status)) = some ([0, 0], 5, 0x02) := by decide +kernel

/-- V6. -/
theorem test_desF :
    afterRun .desF (withIB [0x78]) (fun t => (t.tk, t.bp, t.status)) = some ([0], 5, 0x02) := by decide +kernel

/-- V6. -/
theorem test_desG_truncated :
    afterRun .desG (withIB [0x40]) (fun t => (t.status, t.tk, t.bs)) = some (0x36, [], []) := by decide +kernel

/-- V6. -/
theorem test_desO_corrupt :
    afterRun .desO (withIB [0x40, 0x42]) (fun t => (t.status, t.ib)) = some (0x46, bytesOf [0x40, 0x42]) := by decide +kernel

/-- V3. -/
theorem test_uencG_257 :
    afterRun .uencG (withN 257) (fun t => (t.bs, t.n)) =
      some (bitsOf [0, 0, 0, 0, 0, 0, 0, 0, 1, 0, 0, 0, 0, 0, 0, 0, 1], 257) := by decide +kernel

/-- V3. -/
theorem test_uencD_257 :
    afterRun .uencD (withN 257) (fun t => (t.bs, t.n)) =
      some (bitsOf [0, 0, 0, 1, 0, 0, 1, 0, 0, 0, 0, 0, 0, 0, 1], 257) := by decide +kernel

/-- V3. -/
theorem test_uencO_257 :
    afterRun .uencO (withN 257) (fun t => (t.bs, t.n)) =
      some (bitsOf [1, 1, 1, 0, 0, 0, 1, 0, 0, 0, 0, 0, 0, 0, 1, 0], 257) := by decide +kernel

/-- V3. -/
theorem test_uencF_257 :
    afterRun .uencF (withN 257) (fun t => (t.bs, t.n)) =
      some (bitsOf [0, 0, 1, 0, 0, 0, 1, 0, 0, 0, 0, 1, 1], 257) := by decide +kernel

/-- V3. -/
theorem test_uencG_zero :
    afterRun .uencG { State.reset with bs := [true] } (fun t => (t.status, t.bs)) = some (0x16, []) := by decide +kernel

/-- V3. -/
theorem test_uencO_one :
    afterRun .uencO (withN 1) (fun t => t.bs) = some [false] := by decide +kernel

/-- V4. -/
theorem test_udecG :
    afterRun .udecG (withBS [0, 0, 1, 0, 1, 1, 1]) (fun t => (t.n, t.bp, t.status)) = some (5, 5, 0x02) := by decide +kernel

/-- V4. -/
theorem test_udecD :
    afterRun .udecD (withBS [0, 1, 1, 0, 1]) (fun t => (t.n, t.bp, t.status)) = some (5, 5, 0x02) := by decide +kernel

/-- V4. -/
theorem test_udecO :
    afterRun .udecO (withBS [1, 0, 1, 0, 1, 0]) (fun t => (t.n, t.bp, t.status)) = some (5, 6, 0x02) := by decide +kernel

/-- V4. -/
theorem test_udecF :
    afterRun .udecF (withBS [0, 0, 1, 0, 1, 1, 1]) (fun t => (t.n, t.bp, t.status)) = some (11, 6, 0x02) := by decide +kernel

/-- V4. -/
theorem test_udecD_truncated :
    afterRun .udecD { withBS [0, 0, 1, 0, 1] with n := 9 } (fun t => (t.n, t.bp, t.status)) = some (0, 0, 0x36) := by decide +kernel

/-- V4: a zero bit is a whole omega code word. -/
theorem test_udecO_zero_bit :
    afterRun .udecO (withBS [0, 0, 1, 0, 1]) (fun t => (t.n, t.bp)) = some (1, 1) := by decide +kernel

/-- V5. -/
theorem test_pack_pads :
    afterRun .pack (withBS [1, 0, 1, 0, 1, 0, 1, 0, 1]) (fun t => (t.ob, t.bsLen)) = some (bytesOf [0xAA, 0x80], 9) := by decide +kernel

/-- V5. -/
theorem test_pack_empty :
    afterRun .pack State.reset (fun t => (t.ob, t.status)) = some ([], 0x02) := by decide +kernel

/-- V5: the byte's bit 7 first. -/
theorem test_unpack :
    afterRun .unpack (withIB [0x01]) (fun t => t.bs) = some (bitsOf [0, 0, 0, 0, 0, 0, 0, 1]) := by decide +kernel

/-- V5. -/
theorem test_unpack_two :
    afterRun .unpack (withIB [0xAA, 0x80]) (fun t => t.bs) =
      some (bitsOf [1, 0, 1, 0, 1, 0, 1, 0, 1, 0, 0, 0, 0, 0, 0, 0]) := by decide +kernel

/-! ## One step of the host or of the engine -/

/-- P4: nothing is cleared. -/
theorem test_start_illegal :
    afterStep (nextMove (.start 0x31) [] { withTK [65] with ob := [7], bp := 3 }) (fun t => (t.status, t.cmd, t.tk, t.ob, t.bp)) =
      some (0x56, 0x31, [65], [7], 0) := by decide +kernel

/-- P3's word `0xA0`. -/
theorem test_start_runs_placed_word :
    afterStep ((withIB [0x68]).withFetchWord 8 0xA0) (fun t => (t.bs, t.cmd, t.hostIn)) =
      some (bitsOf [0, 1, 1, 0, 1, 0, 0, 0], 0xA0, []) := by decide +kernel

/-- 45_host_interface.md R245. -/
theorem test_load_keeps_status :
    afterStep (nextMove (.loadIB [1, 2]) [] { State.reset with status := 0x36, ib := [9] }) (fun t => (t.ib, t.status)) =
      some ([1, 2], 0x36) := by decide +kernel

/-- 10_state.md R22. -/
theorem test_set_read_only_register :
    afterStep (nextMove (.set .bp 7) [] State.reset) (fun t => t.bp) = some 0 := by decide +kernel

/-- 45_host_interface.md R248. -/
theorem test_read_nc :
    afterStep (nextMove (.read (.reg .nc)) [] State.reset) (fun t => t.hostOut) = some [.nat 0] := by decide +kernel

/-- 30_encoding.md R126. -/
theorem test_move_ob_ib :
    afterStep (nextMove .moveObIb [] { State.reset with ob := [0x60, 0x42] }) (fun t => (t.ib, t.hostOut)) =
      some ([0x60, 0x42], [.bytes [0x60, 0x42]]) := by decide +kernel

/-- A run of `LZWE` on `[65]` in progress, one element a step. -/
def busyState : State :=
  beginStepped .lzwe { withIB [65] with params := { Params.default with grain := .perElement } }

/-- 40_lzw_engine.md R137. -/
theorem test_engine_consumes_one_byte :
    afterStep busyState (fun t => (t.w, t.ip, t.tk, t.status)) = some ([65], 1, [], 0x01) := by decide +kernel

/-- 70_reset_and_hazards.md R310. -/
theorem test_busy_write_ignored :
    afterStep (nextMove (.loadIB [9]) [] busyState) (fun t => (t.ib, t.status)) = some ([65], 0x01) := by decide +kernel

/-- 70_reset_and_hazards.md R300. -/
theorem test_reset_abandons_run :
    afterStep (nextMove .reset [] busyState) (fun t => (t.ib, t.status, t.dict, t.phase)) = some ([], 0x00, [], .idle) := by decide +kernel

/-! ## Witnesses: every statement's hypotheses can be met -/

/-- `TwentyEightWordsDecode`, `DecodeEncodeInverse`. -/
theorem witness_legal_word :
    decode 0x30 = .ok .lzwe := by decide +kernel

theorem witness_StepRunsDecodedCommand :
    State.reset.busy = false ∧ State.reset.params.grain = .perRun ∧ decode 0x10 = .ok .compressG := by decide +kernel

theorem witness_IllegalWordStopsWithCodeFive :
    State.reset.busy = false ∧ decode 0x31 = .error .schemeNotZero ∧ decode 0xF0 = .error .reservedOp ∧
      decode 0xA4 = .error .reservedBits := by decide +kernel

theorem witness_PlacedWordRunsNext :
    decodeTableWord 8 0xA0 = some .unpack ∧ decodeTableWord 8 0x10 = some .compressG := by decide +kernel

theorem witness_LoadReplacesTheBuffer :
    State.reset.busy = false ∧ (HostMove.loadIB [0, 255]).wf smallBuild = true ∧
      (HostMove.loadTK [0, 15]).wf smallBuild = true ∧ (HostMove.loadBS [true, false]).wf smallBuild = true := by decide +kernel

theorem witness_LoadBeyondTheBuildDoesNotHappen :
    (HostMove.loadIB [0, 1, 2]).wf smallBuild = false ∧ (HostMove.loadTK [16]).wf smallBuild = false ∧
      (HostMove.loadBS [true, false, true]).wf smallBuild = false ∧ (HostMove.set .n 16).wf smallBuild = false := by decide +kernel

theorem witness_SetNWritesNAlone :
    State.reset.busy = false ∧ fitsWidth (some 4) 15 = true ∧ fitsWidth (some 4) 0 = true := by decide +kernel

/-- `ReadReturnsTheValue`, and every statement about an idle or an unbounded machine. -/
theorem witness_idle :
    State.reset.busy = false ∧ State.reset.params.Unbounded := ⟨by decide, by simp [Params.Unbounded, State.reset, Params.default]⟩

theorem witness_MoveIsReadThenLoad :
    step (nextMove (.read .ob) (.loadIB [1] :: []) { State.reset with ob := [1] }) =
      .next { State.reset with ob := [1], hostIn := [.loadIB [1]], hostOut := [.bytes [1]] } := rfl

theorem witness_WaitPollsUntilDone :
    statusDone 0x02 = true ∧ (State.reset.busy = false ∧ statusDone State.reset.status = false) ∧
      (busyState.busy = true ∧ statusDone busyState.status = false ∧ (afterStep (afterMove [] busyState) fun _ => ()) = some ()) := by decide +kernel

/-- The seed dictionary is sound. -/
theorem witness_dictSound : DictSound seedDict := by
  unfold DictSound
  decide +kernel

/-- A run in progress meets `Coherent`: `BusyHostAccess`, `CoherencePreserved`. -/
theorem witness_busy_coherent : busyState.Coherent ∧ busyState.busy = true := by
  have hb : busyState.busy = true := by decide +kernel
  have hp : busyState.phase = .lzwe := by decide +kernel
  have hd : busyState.dict = seedDict := by decide +kernel
  refine ⟨⟨fun h => ?_, fun _ => ⟨by decide +kernel, .lzwe, by decide +kernel, by decide +kernel⟩, fun _ => by decide +kernel,
    fun _ => by decide +kernel, .inr (hd ▸ witness_dictSound), fun _ _ => hd ▸ witness_dictSound, fun _ h => ?_⟩, hb⟩
  · rw [hb] at h; cases h
  · rw [hp] at h; cases h

theorem witness_RunChangesOnlyItsWriteSet :
    Dest.ob ∉ writeSet .lzwe ∧ Dest.tk ∉ writeSet .pack ∧ Dest.bs ∉ writeSet .lzwd ∧ Dest.n ∉ writeSet .uencG ∧
      Dest.bp ∉ writeSet .unpack ∧ Dest.nc ∉ writeSet .serG ∧ Phase.lzwe ∉ phasesOf .lzwd ∧ Phase.lzwd ∉ phasesOf .lzwe ∧
      Phase.des ∉ phasesOf .serG ∧ Phase.unpack ∉ phasesOf .pack ∧ Phase.ser ∉ phasesOf .desG ∧
      Phase.uenc ∉ phasesOf .pack ∧ Phase.udec ∉ phasesOf .pack := by decide +kernel

theorem witness_ErrorStopLeavesTheErrorState :
    (∃ t, exec .uencG State.reset = .next t ∧ statusErr t.status = true) ∧ (∀ i, decode 0x31 ≠ .ok i) ∧
      ∃ t, hostStart 0x31 State.reset = .next t := by
  refine ⟨⟨_, rfl, by decide +kernel⟩, fun i h => ?_, ⟨_, rfl⟩⟩
  rw [show decode 0x31 = .error .schemeNotZero by decide] at h
  cases h

theorem witness_ResultDependsOnInputAlone :
    SameInput .pack (withBS [1]) { withBS [1] with ob := [3], n := 5, bp := 1 } ∧ SameInput .uencF (withN 3) (withN 3) ∧
      SameInput .lzwd (withTK [3]) { withTK [3] with ib := [1] } ∧ SameInput .unpack (withIB [3]) { withIB [3] with tk := [1] } := by
  simp [SameInput, withBS, withN, withTK, withIB]

theorem witness_CommandRaisesOnlyItsErrors :
    State.reset.params.Unbounded ∧ ∃ t, exec .uencD State.reset = .next t ∧ statusErr t.status = true := ⟨witness_idle.2, _, rfl, by decide +kernel⟩

theorem witness_NothingToDoOnlyOnEmptyCompress :
    ∃ t u, exec .compressF State.reset = .next t ∧ exec .pack State.reset = .next u ∧ statusNtd t.status = true ∧
      statusNtd u.status = false := ⟨_, _, rfl, rfl, by decide +kernel, by decide +kernel⟩

theorem witness_EncodeZeroIsInvalidArgument :
    State.reset.n = 0 := rfl

/-- `GammaLayout`, `DeltaLayout`, `OmegaLayout`, `FibonacciLayout`. -/
theorem witness_codec_layouts :
    (withN 5).params.Unbounded ∧ 1 ≤ (withN 5).n ∧ 1 ≤ (withN 1).n ∧ (withN 1).n = 1 ∧ 2 ≤ (withN 2).n := ⟨witness_idle.2, by decide, by decide, rfl, by decide⟩

theorem witness_DecodeOfEncodeIsIdentity :
    (withBS [0, 0, 1, 0, 1, 1]).params.Unbounded ∧ 1 ≤ 5 ∧ (withBS [0, 0, 1, 0, 1, 1]).bs = codeWord .gamma 5 ++ [true] := ⟨witness_idle.2, by decide, by decide +kernel⟩

theorem witness_TokenWidthLimitsDecoding :
    (1 ≤ 7 ∧ 7 < 2 ^ 3 ∧ bitsOf [0, 0, 1, 1, 1] = codeWord .gamma 7 ++ []) ∧
      (1 ≤ 8 ∧ 2 ^ 3 ≤ 8 ∧ bitsOf [0, 0, 0, 1, 0, 0, 0] = codeWord .gamma 8 ++ []) := by decide +kernel

theorem witness_CodeWordsArePrefixFree :
    State.reset.params.Unbounded ∧ 1 ≤ 1 ∧ 1 ≤ 2 ∧ 1 ≠ 2 := ⟨witness_idle.2, by decide, by decide, by decide⟩

theorem witness_PackStopsAtCapacity :
    smallBuild.obCap = some 1 ∧ smallBuild.lenW = none ∧ (8 + 7) / 8 ≤ 1 ∧ 1 < (9 + 7) / 8 := by decide +kernel

/-- `IB = [0x50]` expands to `"01010000"`. -/
theorem witness_unpacked50 : IsUnpacked (bytesOf [0x50]) (bitsOf [0, 1, 0, 1, 0, 0, 0, 0]) := by
  refine ⟨rfl, fun j k hj hk => ?_⟩
  obtain rfl : j = 0 := by simpa [bytesOf] using hj
  interval_cases k <;> rfl

/-- `DeserializeReadsTheStream`, `DecompressReadsTheStream`: the one-token stream of 30_encoding.md R121. -/
theorem witness_DeserializeReadsTheStream : (withIB [0x50]).params.Unbounded ∧ [0] ≠ ([] : List Token) ∧ ValidTokens [0] ∧
    IsUnpacked (withIB [0x50]).ib (bitsOf [0, 1, 0, 1, 0, 0, 0, 0]) ∧
    bitsOf [0, 1, 0, 1, 0, 0, 0, 0] = streamBits .gamma [0] ++ bitsOf [0, 0, 0, 0] := by
  refine ⟨witness_idle.2, by decide, ?_, witness_unpacked50, by decide +kernel⟩
  unfold ValidTokens
  decide

/-- `IB = [0x80]` expands to `"10000000"`, the header of count 0 under gamma; both values of the parameter. -/
theorem witness_ZeroCountHeaderIsCorrupt : (withIB [0x80]).params.Unbounded ∧
    IsUnpacked (withIB [0x80]).ib (bitsOf [1, 0, 0, 0, 0, 0, 0, 0]) ∧
    bitsOf [1, 0, 0, 0, 0, 0, 0, 0] = codeWord .gamma 1 ++ bitsOf [0, 0, 0, 0, 0, 0, 0] ∧
    (withIB [0x80]).params.zeroCountIsCorrupt = true ∧
    ({ Params.default with zeroCountIsCorrupt := false }).Unbounded := by
  refine ⟨witness_idle.2, ⟨rfl, fun j k hj hk => ?_⟩, by decide +kernel, rfl,
    by simp [Params.Unbounded, Params.default]⟩
  obtain rfl : j = 0 := by simpa [withIB, bytesOf] using hj
  interval_cases k <;> rfl

/-- `IB = [0x00]` under gamma: eight zeros, no stream begins with them. -/
theorem witness_DeserializeTruncation : (withIB [0x00]).params.Unbounded ∧
    IsUnpacked (withIB [0x00]).ib (bitsOf [0, 0, 0, 0, 0, 0, 0, 0]) ∧
    ∀ tokens rest, bitsOf [0, 0, 0, 0, 0, 0, 0, 0] ≠ streamBits .gamma tokens ++ rest := by
  refine ⟨witness_idle.2, ⟨rfl, fun j k hj hk => ?_⟩, fun tokens rest h => ?_⟩
  · obtain rfl : j = 0 := by simpa [withIB, bytesOf] using hj
    interval_cases k <;> rfl
  · obtain ⟨r, hr⟩ := bin_head (n := tokens.length + 1) (by omega)
    have hm : true ∈ streamBits .gamma tokens ++ rest := by
      simp [streamBits, codeWord, gammaWord, hr]
    rw [← h] at hm
    revert hm
    decide

theorem witness_SerializeDeserializeRoundTrip :
    (withTK [0]).params.Unbounded ∧ (withTK [0]).tk ≠ [] := ⟨witness_idle.2, by decide⟩

theorem witness_LzwDecodeResult : (withTK [65, 256]).params.Unbounded ∧ ValidTokens (withTK [65, 256]).tk ∧
    ValidTokens (withTK []).tk := by
  refine ⟨witness_idle.2, ?_, ?_⟩ <;> · unfold ValidTokens; decide

/-- The first token 256, and a second token 257 (40_lzw_engine.md R148 (b), (c)). -/
theorem witness_LzwDecodeInvalidCode : (withTK [256]).params.Unbounded ∧ ¬ ValidTokens (withTK [256]).tk ∧
    ¬ ValidTokens (withTK [65, 257]).tk := by
  refine ⟨witness_idle.2, ?_, ?_⟩ <;> · unfold ValidTokens; decide

/-- `CompressEmptyInput`, `DecompressEmptyInput`, and the empty case of `CompressDecompressRoundTrip`. -/
theorem witness_empty_input :
    State.reset.ib = [] := rfl

/-- Also the non-empty case of `CompressDecompressRoundTrip`. -/
theorem witness_CompressIsLzweThenSer :
    (withIB [0]).params.Unbounded ∧ (withIB [0]).ib ≠ [] := ⟨witness_idle.2, by decide⟩

theorem witness_DecompressIsDesThenLzwd :
    (withIB [0x50]).ib ≠ [] ∧ (withIB [0x80]).ib ≠ [] ∧
      afterRun .desG (withIB [0x80]) (fun u => statusErr u.status) = some true ∧
      afterRun .desG (withIB [0x50]) (fun u => statusErr u.status) = some false := by decide +kernel

theorem witness_TrailingBytesIgnored :
    (withIB [0x50]).params.Unbounded ∧ (withIB [0x50]).ib ≠ [] ∧
      ∃ t, exec .decompressG (withIB [0x50]) = .next t ∧ t.status = 0x02 := ⟨witness_idle.2, by decide, _, rfl, by decide +kernel⟩

/-- Two bytes do not unpack into two bits. -/
theorem witness_MemoryStaysWithinTheBuild :
    let s := nextMove (.start 0xA0) [] { withIB [1, 2] with params := smallBuild }
    Memory.wf s = true ∧ afterStep s (fun t => (t.status, Memory.wf t)) = some (0x66, true) := by decide +kernel

theorem witness_BuildNeverChanges :
    ∃ t, step (nextMove .reset [] { State.reset with params := smallBuild }) = .next t := ⟨_, rfl⟩

theorem witness_GranularityDoesNotMatter :
    (withIB [65]).busy = false ∧ ∃ t, step (withGrain .perRun (nextMove (.start 0x10) [] (withIB [65]))) = .next t := ⟨by decide, _, rfl⟩

end Sys2Proof.Tests
end

section
/-! SUPPORT. Invariants of the whole machine, packaged once: a property that every piece of a run (one loop body, one
phase's opening) and every host access keeps is kept by `step`, whatever the command and the granularity. -/

namespace Sys2Proof.Machine

/-- A piece of a run from a state with `P` ends, normally or by an error, in a state with `P`. -/
abbrev Run.Preserves (P : State → Prop) (f : State → Run) : Prop := Run.Keeps (fun s t => P s → P t) f

namespace Run.Preserves

variable {P : State → Prop} {f g : State → Run}

theorem seq (hf : Run.Preserves P f) (hg : Run.Preserves P g) : Run.Preserves P fun s => (f s).bind g :=
  Run.Keeps.bind (fun _ _ _ hab hbc ha => hbc (hab ha)) hf hg

theorem loop (hf : Run.Preserves P f) (k : Nat) : Run.Preserves P (Run.times k f) :=
  Run.Keeps.times (fun _ => id) (fun _ _ _ hab hbc ha => hbc (hab ha)) hf k

theorem done : Run.Preserves P Run.ok := Run.Keeps.idle fun _ => id

theorem update {u : State → State} (hu : ∀ s, P s → P (u s)) : Run.Preserves P fun s => .ok (u s) :=
  Run.Keeps.ok_const hu

end Run.Preserves

/-- `P` is kept by every phase's opening and by every loop body of the command rules. -/
structure KeptByPieces (P : State → Prop) : Prop where
  enter : ∀ ph, Run.Preserves P (enterPhase ph)
  lzweByte : Run.Preserves P lzweByte
  emitMatch : Run.Preserves P emitMatch
  lzwdFirst : Run.Preserves P lzwdFirst
  lzwdNext : Run.Preserves P lzwdNext
  serHeader : ∀ sch, Run.Preserves P (serHeader sch)
  serToken : ∀ sch, Run.Preserves P (serToken sch)
  desHeader : ∀ sch, Run.Preserves P (desHeader sch)
  desToken : ∀ sch, Run.Preserves P (desToken sch)
  packByte : Run.Preserves P packByte
  unpackByte : Run.Preserves P unpackByte
  uencNumber : ∀ sch, Run.Preserves P (uencNumber sch)
  udecNumber : ∀ sch, Run.Preserves P (udecNumber sch)

/-- `P` is also kept by the start and the ends of a run, and by every access of the host. -/
structure KeptByEvents (P : State → Prop) : Prop extends KeptByPieces P where
  startRun : ∀ c s, P s → P (startRun c s)
  clearBuffers : ∀ ws s, P s → P (clearBuffers ws s)
  setNtd : ∀ s : State, P s → P { s with status := setNtd s.status }
  endRun : ∀ s, P s → P (endRun s)
  errorStop : ∀ ws e s, P s → P (errorStop ws e s)
  popMove : ∀ (rest : List HostMove) (s : State), P s → P { s with hostIn := rest }
  reset : ∀ s, P s → P (hostReset s)
  loadIB : ∀ data s, P s → P (hostLoadIB data s)
  loadTK : ∀ data s, P s → P (hostLoadTK data s)
  loadBS : ∀ data s, P s → P (hostLoadBS data s)
  setN : ∀ v s, P s → P (hostSetN v s)
  read : ∀ x s, P s → P (hostRead x s)

/-! ## From the pieces to the phases -/

namespace KeptByPieces

variable {P : State → Prop} (hP : KeptByPieces P)
include hP

theorem lzweFlush : Run.Preserves P lzweFlush := by
  intro s t h
  unfold Machine.lzweFlush at h
  split at h
  · exact Run.Preserves.done s t h
  · exact hP.emitMatch s t h

/-- One element of any phase. -/
theorem phaseUnit (sch : Scheme) (ph : Phase) : Run.Preserves P (phaseUnit sch ph) := by
  cases ph with
  | idle => exact .done
  | lzwe => exact hP.lzweByte
  | lzwd =>
    intro s t h
    simp only [Machine.phaseUnit, lzwdToken] at h
    split at h
    · exact hP.lzwdFirst s t h
    · exact hP.lzwdNext s t h
  | ser =>
    intro s t h
    simp only [Machine.phaseUnit, serUnit] at h
    split at h
    · exact hP.serHeader sch s t h
    · exact hP.serToken sch s t h
  | des =>
    intro s t h
    simp only [Machine.phaseUnit, desUnit] at h
    split at h
    · exact hP.desHeader sch s t h
    · exact hP.desToken sch s t h
  | pack => exact hP.packByte
  | unpack => exact hP.unpackByte
  | uenc => exact hP.uencNumber sch
  | udec => exact hP.udecNumber sch

/-- What any phase does after its last element. -/
theorem leavePhase (ph : Phase) : Run.Preserves P (leavePhase ph) := by
  cases ph with
  | lzwe => exact hP.lzweFlush
  | idle | lzwd | ser | des | pack | unpack | uenc | udec => exact .done

/-- The whole of any phase, once entered: its elements in a loop whose length the entered state fixes. -/
theorem phaseWork (sch : Scheme) (ph : Phase) : Run.Preserves P (phaseWork sch ph) := by
  cases ph with
  | idle => exact .done
  | lzwe => exact fun s => (hP.lzweByte.loop (s.ibLen - s.ip)).seq hP.lzweFlush s
  | lzwd => exact fun s => hP.lzwdFirst.seq (hP.lzwdNext.loop (s.tkLen - 1)) s
  | ser => exact fun s => (hP.serHeader sch).seq ((hP.serToken sch).loop s.tkLen) s
  | des => exact (hP.desHeader sch).seq fun s => (hP.desToken sch).loop s.cnt s
  | pack => exact fun s => hP.packByte.loop (packedLen s.bsLen - s.obLen) s
  | unpack => exact fun s => hP.unpackByte.loop (s.ibLen - s.ip) s
  | uenc => exact hP.uencNumber sch
  | udec => exact hP.udecNumber sch

/-- A phase from its opening to its end. -/
theorem phase (sch : Scheme) (ph : Phase) :
    Run.Preserves P fun s => (enterPhase ph s).bind (Machine.phaseWork sch ph) :=
  (hP.enter ph).seq (hP.phaseWork sch ph)

end KeptByPieces

/-! ## From the phases to a step -/

namespace KeptByEvents

variable {P : State → Prop} (hP : KeptByEvents P)
include hP

theorem serRule (sch : Scheme) : Run.Preserves P (serRule sch) := (hP.phase sch .ser).seq (hP.phase sch .pack)

theorem desRule (sch : Scheme) : Run.Preserves P (desRule sch) := (hP.phase sch .unpack).seq (hP.phase sch .des)

theorem compressRule (sch : Scheme) : Run.Preserves P (compressRule sch) := by
  intro s t h
  unfold Machine.compressRule at h
  split at h
  · exact Run.Preserves.update hP.setNtd s t h
  · exact (hP.phase sch .lzwe).seq (hP.serRule sch) s t h

theorem decompressRule (sch : Scheme) : Run.Preserves P (decompressRule sch) := by
  intro s t h
  unfold Machine.decompressRule at h
  split at h
  · exact Run.Preserves.done s t h
  · exact (hP.desRule sch).seq (hP.phase sch .lzwd) s t h

/-- The rule of every command. -/
theorem ruleOf (i : Instr) : Run.Preserves P (ruleOf i) := by
  cases i with
  | compressG | compressD | compressO | compressF => exact hP.compressRule _
  | decompressG | decompressD | decompressO | decompressF => exact hP.decompressRule _
  | lzwe => exact hP.phase .gamma .lzwe
  | lzwd => exact hP.phase .gamma .lzwd
  | serG | serD | serO | serF => exact hP.serRule _
  | desG | desD | desO | desF => exact hP.desRule _
  | uencG | uencD | uencO | uencF => exact hP.phase _ .uenc
  | udecG | udecD | udecO | udecF => exact hP.phase _ .udec
  | pack => exact hP.phase .gamma .pack
  | unpack => exact hP.phase .gamma .unpack

theorem beginCommand (i : Instr) (s : State) (hs : P s) : P (beginCommand i s) :=
  hP.clearBuffers _ _ (hP.startRun _ s hs)

/-- A piece of a run, its error stop included. -/
theorem settle {f : State → Run} (hf : Run.Preserves P f) (ws : List Dest) (s : State) (hs : P s) :
    P (settle ws (f s)) := by
  cases hr : f s with
  | ok t => exact hf s t (.inl hr) hs
  | raised e t => exact hP.errorStop ws e t (hf s t (.inr ⟨e, hr⟩) hs)

/-- The last piece of a run, its normal end or error stop included. -/
theorem finishRun {f : State → Run} (hf : Run.Preserves P f) (ws : List Dest) (s : State) (hs : P s) :
    P (finishRun ws (f s)) := by
  cases hr : f s with
  | ok t => exact hP.endRun t (hf s t (.inl hr) hs)
  | raised e t => exact hP.errorStop ws e t (hf s t (.inr ⟨e, hr⟩) hs)

/-- A whole run of any command (45_host_interface.md R243). -/
theorem exec (i : Instr) (s t : State) (hs : P s) (h : exec i s = .next t) : P t := by
  rw [exec_eq_runCommand, runCommand] at h
  cases h
  exact hP.finishRun (hP.ruleOf i) (writeSet i) _ (hP.beginCommand i s hs)

/-- The passage to the command's next phase, or to the end of its run. -/
theorem advance {f : State → Run} (hf : Run.Preserves P f) (i : Instr) (ph : Phase) (s : State) (hs : P s) :
    P (advance i ph (f s)) := by
  unfold Machine.advance
  split
  · exact hP.finishRun hf _ s hs
  · exact hP.settle (hf.seq (hP.enter _)) _ s hs

theorem runStep (i : Instr) (s : State) (hs : P s) : P (runStep i s) := by
  unfold Machine.runStep
  split
  · exact hP.advance (hP.phaseWork _ _) i _ s hs
  · split
    · exact hP.settle (hP.phaseUnit _ _) _ s hs
    · exact hP.advance (hP.leavePhase _) i _ s hs

/-- One step of the engine while busy, in every granularity. -/
theorem engineStep (s t : State) (hs : P s) (h : engineStep s = .next t) : P t := by
  unfold Machine.engineStep at h
  split at h
  · split at h
    · cases h; exact hP.runStep _ s hs
    · cases h
  · cases h

theorem engineTurn (s t : State) (hs : P s) (h : engineTurn s = .next t) : P t := by
  unfold Machine.engineTurn at h
  split at h
  · exact hP.engineStep s t hs h
  · cases h; exact hs

theorem emptyInput (i : Instr) (s t : State) (hs : P s) (h : emptyInput i s = some t) : P t := by
  cases i with
  | compressG | compressD | compressO | compressF =>
    simp only [Machine.emptyInput] at h
    split at h
    · cases h; exact hP.setNtd s hs
    · cases h
  | decompressG | decompressD | decompressO | decompressF =>
    simp only [Machine.emptyInput] at h
    split at h
    · cases h; exact hs
    · cases h
  | lzwe | lzwd | serG | serD | serO | serF | desG | desD | desO | desF | uencG | uencD | uencO | uencF
  | udecG | udecD | udecO | udecF | pack | unpack => cases h

theorem beginStepped (i : Instr) (s : State) (hs : P s) : P (beginStepped i s) := by
  have hb := hP.beginCommand i s hs
  simp only [Machine.beginStepped]
  split
  · exact hP.endRun _ (hP.emptyInput i _ _ hb ‹_›)
  · exact hP.settle (hP.enter _) _ _ hb

/-- `START c`: ignored, stopped as illegal, run at once, or begun (45_host_interface.md R243). -/
theorem hostStart (c : Word8) (s t : State) (hs : P s) (h : hostStart c s = .next t) : P t := by
  unfold Machine.hostStart at h
  split at h
  · cases h; exact hs
  · split at h
    · cases h; exact hP.errorStop _ _ _ (hP.startRun c s hs)
    · split at h
      · exact hP.exec _ s t hs h
      · cases h; exact hP.beginStepped _ s hs

theorem hostMoveObIb (s : State) (hs : P s) : P (hostMoveObIb s) := by
  have hr := hP.read .ob s hs
  unfold Machine.hostMoveObIb
  split
  · exact hP.loadIB _ _ hr
  · exact hr

theorem hostMove (m : HostMove) (s t : State) (hs : P s) (h : hostMove m s = .next t) : P t := by
  cases m with
  | reset => cases h; exact hP.reset s hs
  | loadIB data => cases h; exact hP.loadIB data s hs
  | loadTK data => cases h; exact hP.loadTK data s hs
  | loadBS data => cases h; exact hP.loadBS data s hs
  | set r v =>
    cases r with
    | n => cases h; exact hP.setN v s hs
    | cmd => exact hP.hostStart _ s t hs h
    | status | ibLen | obLen | tkLen | bsLen | bp | nc => cases h; exact hs
  | start c => exact hP.hostStart c s t hs h
  | wait => cases h; exact hs
  | read x => cases h; exact hP.read x s hs
  | moveObIb => cases h; exact hP.hostMoveObIb s hs

/-- What every event keeps, every step keeps. -/
theorem step (s t : State) (hs : P s) (h : step s = .next t) : P t := by
  unfold Machine.step nextEvent at h
  split at h
  · exact hP.engineTurn s t hs h
  · split at h
    · cases h; exact hP.popMove _ s hs
    · exact hP.engineTurn s t hs h
  · exact hP.hostMove _ _ t (hP.popMove _ s hs) h

end KeptByEvents

end Sys2Proof.Machine
end

section
/-! SUPPORT. The build's parameters are kept by every event (00_scope.md R18; log 2). For the pieces of a run this is
one clause of `SameCommand`. -/

namespace Sys2Proof.Machine

/-- Every opening is a fixed update, after `InitDict` in the two dictionary phases. -/
theorem enterPhase_keeps (ph : Phase) : Run.Keeps SameCommand (enterPhase ph) := by
  cases ph with
  | idle => exact Run.Keeps.idle SameCommand.refl
  | lzwe => exact enterLzwe_keeps
  | lzwd => exact enterLzwd_keeps
  | ser | des | pack | unpack | uenc | udec => exact Run.Keeps.ok_const fun _ => ⟨rfl, rfl, rfl, rfl, rfl, rfl⟩

theorem serHeader_keeps (sch : Scheme) : Run.Keeps SameCommand (serHeader sch) :=
  fun s => appendCode_keeps sch (s.tkLen + 1) s

theorem uencNumber_keeps (sch : Scheme) : Run.Keeps SameCommand (uencNumber sch) :=
  fun s => appendCode_keeps sch s.n s

theorem udecNumber_keeps (sch : Scheme) : Run.Keeps SameCommand (udecNumber sch) :=
  readCode_keeps sch fun v =>
    Run.Keeps.ok_const (g := fun s => { s with n := v }) fun _ => ⟨rfl, rfl, rfl, rfl, rfl, rfl⟩

/-- What keeps `CMD`, `IB`, the build and the host keeps the build. -/
theorem Run.Keeps.params {f : State → Run} (hf : Run.Keeps SameCommand f) (p : Params) :
    Run.Preserves (fun s => s.params = p) f := by
  intro s t h hs
  obtain ⟨-, -, hparams, -⟩ := hf s t h
  exact hparams.trans hs

theorem hostLoadIB_params (data : List Byte) (s : State) : (hostLoadIB data s).params = s.params := by
  unfold hostLoadIB
  split
  · rfl
  · split <;> rfl

theorem hostLoadTK_params (data : List Token) (s : State) : (hostLoadTK data s).params = s.params := by
  unfold hostLoadTK
  split
  · rfl
  · split <;> rfl

theorem hostLoadBS_params (data : Bits) (s : State) : (hostLoadBS data s).params = s.params := by
  unfold hostLoadBS
  split
  · rfl
  · split <;> rfl

theorem hostSetN_params (v : Nat) (s : State) : (hostSetN v s).params = s.params := by
  unfold hostSetN
  split
  · rfl
  · split <;> rfl

/-- A piece of a run keeps all of `SameCommand`; a host access leaves `params` as it is. -/
theorem params_keptByEvents (p : Params) : KeptByEvents fun s => s.params = p where
  enter ph := (enterPhase_keeps ph).params p
  lzweByte := lzweByte_keeps.params p
  emitMatch := emitMatch_keeps.params p
  lzwdFirst := lzwdFirst_keeps.params p
  lzwdNext := lzwdNext_keeps.params p
  serHeader sch := (serHeader_keeps sch).params p
  serToken sch := (serToken_keeps sch).params p
  desHeader sch := (desHeader_keeps sch).params p
  desToken sch := (desToken_keeps sch).params p
  packByte := packByte_keeps.params p
  unpackByte := unpackByte_keeps.params p
  uencNumber sch := (uencNumber_keeps sch).params p
  udecNumber sch := (udecNumber_keeps sch).params p
  startRun _ _ := id
  clearBuffers _ _ := id
  setNtd _ := id
  endRun _ := id
  errorStop _ _ _ := id
  popMove _ _ := id
  reset _ := id
  loadIB data s := (hostLoadIB_params data s).trans
  loadTK data s := (hostLoadTK_params data s).trans
  loadBS data s := (hostLoadBS_params data s).trans
  setN v s := (hostSetN_params v s).trans
  read _ _ := id

/-- Settles O56: for the build at hand, having it is a property that every event keeps. -/
theorem buildNeverChanges : Obligations.BuildNeverChanges :=
  fun s t h => (params_keptByEvents s.params).step s t rfl h

end Sys2Proof.Machine
end

section
/-! SUPPORT. Memory's form is kept by every event (00_scope.md R10; 60_exceptions.md R283). Appends and insertions are
tested where they are made; the three writes without a test of their own store a token or an integer that the build
holds already: a dictionary code, a decoded token less 1, a decoded integer. -/

namespace Sys2Proof.Machine

/-- A width holds whatever is at most a value it holds. -/
theorem fitsWidth_of_le {w : Option Nat} {x y : Nat} (hxy : x ≤ y) (hy : fitsWidth w y = true) :
    fitsWidth w x = true := by
  cases w with
  | none => rfl
  | some w =>
    simp only [fitsWidth, decide_eq_true_eq] at hy ⊢
    omega

/-- Every code in use is a token of the build. -/
theorem fitsWidth_of_code {s : State} (hw : Memory.wf s = true) {c : Nat} {p : Phrase} (hc : s.dict[c]? = some p) :
    fitsWidth s.params.tokenW c = true := by
  obtain ⟨hlt, -⟩ := List.getElem?_eq_some_iff.1 hc
  obtain ⟨-, -, -, -, -, -, -, hnc, -⟩ := (Memory.wf_iff s).1 hw
  cases htw : s.params.tokenW with
  | none => rfl
  | some w =>
    simp only [htw, Option.elim_some, decide_eq_true_eq] at hnc
    simp only [fitsWidth, decide_eq_true_eq]
    omega

theorem KeepsWf.done : KeepsWf Run.ok := Run.Preserves.done

theorem KeepsWf.raise (e : ErrKind) : KeepsWf (Run.raised e) := Run.Keeps.raise (fun _ => id) e

theorem KeepsWf.update {u : State → State} (hu : ∀ s, Memory.wf s = true → Memory.wf (u s) = true) :
    KeepsWf fun s => .ok (u s) :=
  Run.Preserves.update hu

theorem KeepsWf.seq {f g : State → Run} (hf : KeepsWf f) (hg : KeepsWf g) : KeepsWf fun s => (f s).bind g :=
  Run.Preserves.seq hf hg

/-- A piece of a run begun after an update that keeps memory's form. -/
theorem KeepsWf.after {f : State → Run} (hf : KeepsWf f) {u : State → State}
    (hu : ∀ s, Memory.wf s = true → Memory.wf (u s) = true) : KeepsWf fun s => f (u s) :=
  fun s t h hw => hf (u s) t h (hu s hw)

/-! ## The codec -/

theorem noteEncoded_wf (sch : Scheme) (n : Nat) (s : State) (hw : Memory.wf s = true) :
    Memory.wf (noteEncoded sch n s) = true := by
  cases sch <;> exact hw

theorem noteDecoded_wf (sch : Scheme) (v : Nat) (s : State) (hw : Memory.wf s = true) :
    Memory.wf (noteDecoded sch v s) = true := by
  cases sch <;> exact hw

@[simp] theorem noteDecoded_params (sch : Scheme) (v : Nat) (s : State) :
    (noteDecoded sch v s).params = s.params := by
  cases sch <;> rfl

theorem appendCode_wf (sch : Scheme) (n : Nat) : KeepsWf (appendCode sch n) := by
  intro s t h
  unfold appendCode at h
  split at h
  · exact (appendBS_wf _).after (noteEncoded_wf sch n) s t h
  · exact KeepsWf.raise _ s t h

/-- What is done with a decoded value may rest on the build's holding it (41_universal_codec.md R178). -/
theorem readCode_wf (sch : Scheme) {f : Nat → State → Run}
    (hf : ∀ v s t, fitsWidth s.params.tokenW v = true → (f v s = .ok t ∨ ∃ e, f v s = .raised e t) →
      Memory.wf s = true → Memory.wf t = true) : KeepsWf (readCode sch f) := by
  intro s t h hw
  unfold readCode at h
  split at h
  · rename_i v p hd
    obtain ⟨-, -, -, hv⟩ := dec_ok hd
    exact hf v _ t (by simpa using hv) h (noteDecoded_wf sch v { s with bp := p } hw)
  · exact KeepsWf.raise _ s t h hw

/-! ## The openings of the phases -/

theorem enterLzwe_wf : KeepsWf enterLzwe :=
  (initDict_wf.seq (.update (u := fun s => { s with w := [], ip := 0 }) fun _ => id)).after
    (u := fun s => { s with phase := .lzwe, tk := [] }) (clearBuffers_wf [.tk])

theorem enterLzwd_wf : KeepsWf enterLzwd :=
  (initDict_wf.seq (.update (u := fun s => { s with tp := 0 }) fun _ => id)).after
    (u := fun s => { s with phase := .lzwd, ob := [] }) (clearBuffers_wf [.ob])

/-- An opening clears buffers of its own (20_memory.md R65), and makes the dictionary in the two dictionary phases. -/
theorem enterPhase_wf (ph : Phase) : KeepsWf (enterPhase ph) := by
  cases ph with
  | idle => exact KeepsWf.done
  | lzwe => exact enterLzwe_wf
  | lzwd => exact enterLzwd_wf
  | ser => exact KeepsWf.update (clearBuffers_wf [.bs, .ob])
  | des => exact KeepsWf.update (clearBuffers_wf [.tk])
  | pack => exact KeepsWf.update (clearBuffers_wf [.ob])
  | unpack | uenc => exact KeepsWf.update (clearBuffers_wf [.bs])
  | udec => exact KeepsWf.update fun _ => id

/-! ## The loop bodies -/

/-- The token emitted is a code in use. -/
theorem emitMatch_wf : KeepsWf emitMatch := by
  intro s t h hw
  refine appendTK_wf _ s t (fun c hc => ?_) hw h
  exact fitsWidth_of_code hw (findCode_some (Option.mem_toList.1 hc))

theorem lzweByte_wf : KeepsWf lzweByte := by
  intro s t h
  unfold lzweByte at h
  split at h
  · exact KeepsWf.done s t h
  · rename_i b _
    simp only at h
    split at h
    · exact KeepsWf.update (u := fun s => { s with ip := s.ip + 1, w := s.w ++ [b] }) (fun _ => id) s t h
    · have hmiss := (emitMatch_wf.seq (insertPhrase_wf (s.w ++ [b]))).seq
        (KeepsWf.update (u := fun s => { s with w := [b] }) fun _ => id)
      exact hmiss.after (u := fun s => { s with ip := s.ip + 1 }) (fun _ => id) s t h

theorem lzwdFirst_wf : KeepsWf lzwdFirst := by
  intro s t h
  unfold lzwdFirst at h
  split at h
  · exact KeepsWf.done s t h
  · simp only at h
    split at h
    · exact (KeepsWf.raise _).after (u := fun s => { s with tp := s.tp + 1 }) (fun _ => id) s t h
    · rename_i p _
      exact (appendOB_wf p).after (u := fun s => { s with tp := s.tp + 1, prev := p }) (fun _ => id) s t h

theorem lzwdNext_wf : KeepsWf lzwdNext := by
  intro s t h
  unfold lzwdNext at h
  split at h
  · exact KeepsWf.done s t h
  · simp only at h
    split at h
    · exact (KeepsWf.raise _).after (u := fun s => { s with tp := s.tp + 1 }) (fun _ => id) s t h
    · rename_i p _
      have hphrase := ((appendOB_wf p).seq (insertPhrase_wf (s.prev ++ p.take 1))).seq
        (KeepsWf.update (u := fun s => { s with prev := s.entry }) fun _ => id)
      exact hphrase.after (u := fun s => { s with tp := s.tp + 1, entry := p }) (fun _ => id) s t h

theorem serToken_wf (sch : Scheme) : KeepsWf (serToken sch) := by
  intro s t h
  unfold serToken at h
  split at h
  · exact KeepsWf.done s t h
  · exact (appendCode_wf sch _).after (u := fun s => { s with tp := s.tp + 1 }) (fun _ => id) s t h

theorem desHeader_wf (sch : Scheme) : KeepsWf (desHeader sch) :=
  readCode_wf sch fun v s t _ h hw => by
    simp only at h
    split at h
    · exact (KeepsWf.raise _).after (u := fun s => { s with hv := v }) (fun _ => id) s t h hw
    · split at h
      · exact (KeepsWf.raise _).after (u := fun s => { s with hv := v, cnt := v - 1 }) (fun _ => id) s t h hw
      · exact KeepsWf.update (u := fun s => { s with hv := v, cnt := v - 1 }) (fun _ => id) s t h hw

/-- The token stored is less than the value decoded. -/
theorem desToken_wf (sch : Scheme) : KeepsWf (desToken sch) :=
  readCode_wf sch fun v s t hv h hw => by
    refine appendTK_wf [v - 1] s t (fun k hk => ?_) hw h
    rw [List.mem_singleton.1 hk]
    exact fitsWidth_of_le (Nat.sub_le v 1) hv

theorem unpackByte_wf : KeepsWf unpackByte := by
  intro s t h
  unfold unpackByte at h
  split at h
  · exact KeepsWf.done s t h
  · exact (appendBS_wf _).after (u := fun s => { s with ip := s.ip + 1 }) (fun _ => id) s t h

theorem setN_wf {v : Nat} {s : State} (hv : fitsWidth s.params.tokenW v = true) (hw : Memory.wf s = true) :
    Memory.wf { s with n := v } = true := by
  simp only [Memory.wf_iff] at hw ⊢
  obtain ⟨hib, hob, htk, hbs, htokens, -, hdict⟩ := hw
  exact ⟨hib, hob, htk, hbs, htokens, hv, hdict⟩

theorem udecNumber_wf (sch : Scheme) : KeepsWf (udecNumber sch) :=
  readCode_wf sch fun v s t hv h hw => by
    obtain h | ⟨e, h⟩ := h <;> cases h
    exact setN_wf hv hw

/-- Each clause is the event's own lemma, here or in the laws of memory. -/
theorem wf_keptByEvents : KeptByEvents fun s => Memory.wf s = true where
  enter := enterPhase_wf
  lzweByte := lzweByte_wf
  emitMatch := emitMatch_wf
  lzwdFirst := lzwdFirst_wf
  lzwdNext := lzwdNext_wf
  serHeader sch s := appendCode_wf sch (s.tkLen + 1) s
  serToken := serToken_wf
  desHeader := desHeader_wf
  desToken := desToken_wf
  packByte s := appendOB_wf _ s
  unpackByte := unpackByte_wf
  uencNumber sch s := appendCode_wf sch s.n s
  udecNumber := udecNumber_wf
  startRun c s := freshWorking_wf { s with cmd := c }
  clearBuffers := clearBuffers_wf
  setNtd _ := id
  endRun := endRun_wf
  errorStop := errorStop_wf
  popMove _ _ := id
  reset s _ := hostReset_wf s
  loadIB := hostLoadIB_wf
  loadTK := hostLoadTK_wf
  loadBS := hostLoadBS_wf
  setN := hostSetN_wf
  read := hostRead_wf

/-- Settles O54: memory's form is a property that every event keeps. -/
theorem memoryStaysWithinTheBuild : Obligations.MemoryStaysWithinTheBuild :=
  fun s t hw h => wf_keptByEvents.step s t hw h

end Sys2Proof.Machine
end

section
/-! SUPPORT. What a piece of a run ends in, and what it raises: one rule per way of building a run, and one per
operation the pieces share, so that a proof about a piece follows its text. -/

namespace Sys2Proof.Machine

/-- The run ends normally in a state with `P`, or raises an error `e` in a state with `E e`. -/
def Run.Post (P : State → Prop) (E : ErrKind → State → Prop) : Run → Prop
  | .ok t => P t
  | .raised e t => E e t

/-- If the run ends normally, it ends in a state with `P`. -/
abbrev Run.Ensures (P : State → Prop) (r : Run) : Prop := r.Post P fun _ _ => True

section
variable {P Q : State → Prop} {E : ErrKind → State → Prop} {r : Run} {f : State → Run} {s : State}

@[simp] theorem Run.post_ok : (Run.ok s).Post P E ↔ P s := Iff.rfl

@[simp] theorem Run.post_raised {e : ErrKind} : (Run.raised e s).Post P E ↔ E e s := Iff.rfl

@[simp] theorem Run.post_bind : (r.bind f).Post P E ↔ r.Post (fun t => (f t).Post P E) E := by
  cases r <;> rfl

theorem Run.Post.mono {E' : ErrKind → State → Prop} (h : r.Post P E) (hP : ∀ t, P t → Q t)
    (hE : ∀ e t, E e t → E' e t) : r.Post Q E' := by
  cases r with
  | ok t => exact hP t h
  | raised e t => exact hE e t h

/-- What follows a piece of a run may rest on what the piece ends in. -/
theorem Run.Post.bind (h : r.Post P E) (hf : ∀ t, P t → (f t).Post Q E) : (r.bind f).Post Q E :=
  Run.post_bind.2 (h.mono hf fun _ _ => id)

/-- An invariant of a loop body is one of the loop. -/
theorem Run.Post.times (hf : ∀ t, P t → (f t).Post P E) (k : Nat) (hs : P s) : (Run.times k f s).Post P E := by
  induction k generalizing s with
  | zero => exact hs
  | succ k ih => exact (hf s hs).bind fun t ht => ih ht

/-! ## The shared operations -/

theorem appendOB_post {v : List Byte} (ok : P { s with ob := s.ob ++ v }) (full : E .capacityExceeded s) :
    (appendOB v s).Post P E := by
  obtain ⟨-, h⟩ | ⟨-, h⟩ := appendOB_cases v s <;> rw [h]
  · exact ok
  · exact full

theorem appendTK_post {v : List Token} (ok : P { s with tk := s.tk ++ v }) (full : E .capacityExceeded s) :
    (appendTK v s).Post P E := by
  obtain ⟨-, h⟩ | ⟨-, h⟩ := appendTK_cases v s <;> rw [h]
  · exact ok
  · exact full

theorem appendBS_post {v : Bits} (ok : P { s with bs := s.bs ++ v }) (full : E .capacityExceeded s) :
    (appendBS v s).Post P E := by
  obtain ⟨-, h⟩ | ⟨-, h⟩ := appendBS_cases v s <;> rw [h]
  · exact ok
  · exact full

theorem initDict_post (ok : P { s with dict := seedDict }) (full : E .capacityExceeded s) :
    (initDict s).Post P E := by
  obtain h | h := initDict_cases s <;> rw [h]
  · exact ok
  · exact full

theorem insertPhrase_post {p : Phrase} (ok : P { s with dict := s.dict ++ [p] }) (full : E .capacityExceeded s) :
    (insertPhrase p s).Post P E := by
  obtain h | h := insertPhrase_cases p s <;> rw [h]
  · exact ok
  · exact full

theorem appendCode_post {sch : Scheme} {n : Nat}
    (ok : ∀ code, P { noteEncoded sch n s with bs := (noteEncoded sch n s).bs ++ code })
    (full : E .capacityExceeded (noteEncoded sch n s)) (zero : E .invalidArgument s) (wide : E .capacityExceeded s) :
    (appendCode sch n s).Post P E := by
  unfold appendCode
  obtain ⟨-, h⟩ | ⟨-, -, h⟩ | ⟨-, -, h⟩ := enc_cases s.params.tokenW sch n <;> rw [h]
  · exact zero
  · exact appendBS_post (ok _) full
  · exact wide

end

/-! ## The errors of the decoders (41_universal_codec.md R157 to R173, R178) -/

/-- What a decoder raises: there are too few bits, or the value is too wide for the build. -/
def ErrKind.OfDecoder (e : ErrKind) : Prop := e = .truncatedStream ∨ e = .capacityExceeded

theorem returnValue_error {tokenW : Option Nat} {v used : Nat} {e : ErrKind}
    (h : returnValue tokenW v used = .error e) : e.OfDecoder := by
  unfold returnValue at h
  split at h
  · cases h
  · cases h; exact .inr rfl

theorem decGamma_error {tokenW : Option Nat} {r : Bits} {e : ErrKind} (h : decGamma tokenW r = .error e) :
    e.OfDecoder := by
  simp only [decGamma] at h
  split at h
  · cases h; exact .inl rfl
  · split at h
    · cases h; exact .inl rfl
    · exact returnValue_error h

theorem decDelta_error {tokenW : Option Nat} {r : Bits} {e : ErrKind} (h : decDelta tokenW r = .error e) :
    e.OfDecoder := by
  unfold decDelta at h
  split at h
  · cases h; exact decGamma_error ‹_›
  · split at h
    · cases h; exact .inl rfl
    · exact returnValue_error h

theorem decOmegaFrom_error {tokenW : Option Nat} {fuel acc used : Nat} {r : Bits} {e : ErrKind}
    (h : decOmegaFrom tokenW fuel acc used r = .error e) : e.OfDecoder := by
  induction fuel generalizing acc used r with
  | zero => cases h; exact .inl rfl
  | succ fuel ih =>
    match r with
    | [] => cases h; exact .inl rfl
    | false :: _ => exact returnValue_error h
    | true :: _ =>
      simp only [decOmegaFrom] at h
      split at h
      · cases h; exact .inl rfl
      · exact ih h

theorem decFibFrom_error {tokenW : Option Nat} {k sum : Nat} {prevbit : Bool} {r : Bits} {e : ErrKind}
    (h : decFibFrom tokenW k sum prevbit r = .error e) : e.OfDecoder := by
  induction r generalizing k sum prevbit with
  | nil => cases h; exact .inl rfl
  | cons b r ih =>
    simp only [decFibFrom] at h
    split at h
    · exact returnValue_error h
    · exact ih h

theorem dec_error {tokenW : Option Nat} {sch : Scheme} {bits : Bits} {p : Nat} {e : ErrKind}
    (h : dec tokenW sch bits p = .error e) : e.OfDecoder := by
  simp only [dec] at h
  split at h
  · cases h
  · rename_i hr
    cases h
    cases sch with
    | gamma => exact decGamma_error hr
    | delta => exact decDelta_error hr
    | omega => exact decOmegaFrom_error hr
    | fibonacci => exact decFibFrom_error hr

/-- What follows a decoded value may rest on its being positive and on where the code word ends. -/
theorem readCode_post {P : State → Prop} {E : ErrKind → State → Prop} {sch : Scheme} {f : Nat → State → Run}
    {s : State}
    (ok : ∀ v p, 1 ≤ v → s.bp < p → p ≤ s.bs.length → (f v (noteDecoded sch v { s with bp := p })).Post P E)
    (bad : ∀ e : ErrKind, e.OfDecoder → E e s) : (readCode sch f s).Post P E := by
  unfold readCode
  split
  · rename_i v p hd
    obtain ⟨hv, hlt, hle, -⟩ := dec_ok hd
    exact ok v p hv hlt hle
  · exact bad _ (dec_error ‹_›)

end Sys2Proof.Machine
end

section
/-! SUPPORT. The dictionary's invariants (10_state.md R38) under what the engine does with a dictionary. -/

namespace Sys2Proof.Machine

theorem seedDict_sound : DictSound seedDict := by
  refine ⟨seedDict_length.ge, List.take_of_length_le seedDict_length.le, fun p hp => ?_⟩
  rw [List.drop_eq_nil_of_le seedDict_length.le] at hp
  cases hp

namespace DictSound

variable {d : List Phrase}

/-- Every literal has a code. -/
theorem literal_mem (h : DictSound d) (b : Byte) : [b] ∈ d := by
  obtain ⟨-, hseed, -⟩ := h
  refine List.mem_of_mem_take (i := 256) (hseed ▸ List.mem_map.2 ⟨b.toNat, ?_, by simp⟩)
  exact List.mem_range.2 b.isLt

theorem ne_nil (h : DictSound d) {p : Phrase} (hp : p ∈ d) : p ≠ [] := by
  obtain ⟨-, hseed, hlong⟩ := h
  rw [← List.take_append_drop 256 d, hseed] at hp
  obtain hp | hp := List.mem_append.1 hp
  · obtain ⟨c, -, rfl⟩ := List.mem_map.1 hp
    exact List.cons_ne_nil _ _
  · exact List.ne_nil_of_length_pos (by have := hlong p hp; omega)

/-- `Insert` is used with phrases of two bytes and more. -/
theorem insert (h : DictSound d) {p : Phrase} (hp : 2 ≤ p.length) : DictSound (d ++ [p]) := by
  obtain ⟨hlen, hseed, hlong⟩ := h
  refine ⟨?_, ?_, fun q hq => ?_⟩
  · rw [List.length_append]; omega
  · rw [List.take_append_of_le_length hlen, hseed]
  · rw [List.drop_append_of_le_length hlen, List.mem_append, List.mem_singleton] at hq
    obtain hq | rfl := hq
    · exact hlong q hq
    · exact hp

/-- A byte that extends the match to a phrase without a code extends a match that is not empty. -/
theorem match_ne_nil (h : DictSound d) {w : Phrase} {b : Byte} (hmiss : findCode d (w ++ [b]) = none) : w ≠ [] := by
  rintro rfl
  exact findCode_none.1 hmiss (h.literal_mem b)

/-- The phrase of a token is not empty, a self-referential one included (40_lzw_engine.md R140). -/
theorem tokenPhrase_ne_nil (h : DictSound d) {prev p : Phrase} {t : Token} (hprev : prev ≠ [])
    (hp : tokenPhrase d prev t = some p) : p ≠ [] := by
  unfold tokenPhrase at hp
  split at hp
  · exact h.ne_nil (List.mem_of_getElem? hp)
  · split at hp
    · cases hp; simp [selfReferential, hprev]
    · cases hp

end DictSound

/-! ## An entered phase -/

/-- A run of `i` is in progress, in phase `ph`: `State.Coherent` of a busy state, said of a phase by name. Between
`beginCommand` and the first phase, `ph` is `idle`. -/
structure InPhase (i : Instr) (ph : Phase) (s : State) : Prop where
  command : decode s.cmd = .ok i
  status : s.status = statusStarted
  phase : s.phase = ph
  ip : s.ip ≤ s.ib.length
  tp : s.tp ≤ s.tk.length
  bp : s.bp ≤ s.bs.length
  tpFresh : ph ≠ .ser → ph ≠ .pack → ph ≠ .lzwd → s.tp = 0
  bpFresh : ph ≠ .des → ph ≠ .lzwd → ph ≠ .udec → s.bp = 0
  dict : DictOk s.dict
  hasDict : ph = .lzwe ∨ ph = .lzwd → DictSound s.dict
  prevReady : ph = .lzwd → 0 < s.tp → s.prev ≠ []

variable {i : Instr} {ph ph' : Phase} {s t : State}

/-- A phase that starts with both `TP` and `BP` at 0. -/
theorem InPhase.of_rewound (command : decode s.cmd = .ok i) (status : s.status = statusStarted) (phase : s.phase = ph)
    (ip : s.ip ≤ s.ib.length) (tp : s.tp = 0) (bp : s.bp = 0) (dict : DictOk s.dict)
    (hasDict : ph = .lzwe ∨ ph = .lzwd → DictSound s.dict) : InPhase i ph s where
  command := command
  status := status
  phase := phase
  ip := ip
  tp := tp ▸ Nat.zero_le _
  bp := bp ▸ Nat.zero_le _
  tpFresh _ _ _ := tp
  bpFresh _ _ _ := bp
  dict := dict
  hasDict := hasDict
  prevReady _ h := absurd tp h.ne'

/-- `ACC` and `L` are none of a phase's concern. -/
theorem InPhase.noteEncoded (h : InPhase i ph s) (sch : Scheme) (n : Nat) : InPhase i ph (noteEncoded sch n s) := by
  cases sch <;> exact { h with }

theorem InPhase.noteDecoded (h : InPhase i ph s) (sch : Scheme) (v : Nat) : InPhase i ph (noteDecoded sch v s) := by
  cases sch <;> exact { h with }

theorem InPhase.appendBits (h : InPhase i ph s) (v : Bits) : InPhase i ph { s with bs := s.bs ++ v } :=
  { h with bp := h.bp.trans (by simp) }

theorem InPhase.appendTokens (h : InPhase i ph s) (v : List Token) : InPhase i ph { s with tk := s.tk ++ v } :=
  { h with tp := h.tp.trans (by simp) }

theorem InPhase.appendCode (h : InPhase i ph s) (sch : Scheme) (n : Nat) :
    (appendCode sch n s).Ensures (InPhase i ph) :=
  appendCode_post (fun code => (h.noteEncoded sch n).appendBits code) trivial trivial trivial

/-- An element taken from its buffer leaves the cursor within the buffer. -/
theorem succ_le_of_getElem? {α : Type} {l : List α} {k : Nat} {a : α} (h : l[k]? = some a) : k + 1 ≤ l.length :=
  (List.getElem?_eq_some_iff.1 h).1

/-! ## One element of each phase -/

theorem lzweByte_inPhase (h : InPhase i .lzwe s) : (lzweByte s).Ensures (InPhase i .lzwe) := by
  have hd := h.hasDict (.inl rfl)
  unfold lzweByte
  split
  · exact h
  · rename_i b hb
    have hip : s.ip + 1 ≤ s.ib.length := succ_le_of_getElem? hb
    simp only
    split
    · exact { h with ip := hip }
    · rename_i hmiss
      have hlong : 2 ≤ (s.w ++ [b]).length := by
        have := List.length_pos_iff.2 (hd.match_ne_nil hmiss)
        simp; omega
      have hd' := hd.insert hlong
      simp only [Run.post_bind]
      refine appendTK_post (insertPhrase_post ?_ trivial) trivial
      have hemit : InPhase i .lzwe { s with tk := s.tk ++ (findCode s.dict s.w).toList } := h.appendTokens _
      exact { hemit with ip := hip, dict := .inr hd', hasDict := fun _ => hd' }

theorem lzweFlush_inPhase (h : InPhase i .lzwe s) : (lzweFlush s).Ensures (InPhase i .lzwe) := by
  unfold lzweFlush
  split
  · exact h
  · exact appendTK_post (h.appendTokens _) trivial

/-- The loop of `LZWD` begins after the first token, if there is one. -/
def LzwdLoop (i : Instr) (s : State) : Prop := InPhase i .lzwd s ∧ (s.tp = 0 → s.tk = [])

theorem lzwdFirst_loop (h : InPhase i .lzwd s) : (lzwdFirst s).Ensures (LzwdLoop i) := by
  have hd := h.hasDict (.inr rfl)
  unfold lzwdFirst
  split
  · rename_i hnone
    exact ⟨h, fun h0 => by simpa [h0] using hnone⟩
  · rename_i t ht
    have htp : s.tp + 1 ≤ s.tk.length := succ_le_of_getElem? ht
    simp only
    split
    · trivial
    · rename_i p hp
      have hprev : p ≠ [] := hd.ne_nil (List.mem_of_getElem? hp)
      refine appendOB_post ⟨?_, by simp⟩ trivial
      exact { h with tp := htp, tpFresh := fun _ _ hne => absurd rfl hne, prevReady := fun _ _ => hprev }

theorem lzwdNext_loop (h : LzwdLoop i s) : (lzwdNext s).Ensures (LzwdLoop i) := by
  obtain ⟨hs, hfirst⟩ := h
  have hd := hs.hasDict (.inr rfl)
  unfold lzwdNext
  split
  · exact ⟨hs, hfirst⟩
  · rename_i t ht
    have htp : s.tp + 1 ≤ s.tk.length := succ_le_of_getElem? ht
    have hpos : 0 < s.tp := Nat.pos_of_ne_zero fun h0 => by rw [hfirst h0] at ht; cases ht
    have hprev := hs.prevReady rfl hpos
    simp only
    split
    · trivial
    · rename_i p hp
      have hp0 : p ≠ [] := hd.tokenPhrase_ne_nil hprev hp
      have hlong : 2 ≤ (s.prev ++ p.take 1).length := by
        have h1 := List.length_pos_iff.2 hprev
        have h2 := List.length_pos_iff.2 hp0
        simp; omega
      have hd' := hd.insert hlong
      simp only [Run.post_bind]
      refine appendOB_post (insertPhrase_post ⟨?_, by simp⟩ trivial) trivial
      exact { hs with
        tp := htp
        tpFresh := fun _ _ hne => absurd rfl hne
        dict := .inr hd'
        hasDict := fun _ => hd'
        prevReady := fun _ _ => hp0 }

theorem lzwdToken_inPhase (h : InPhase i .lzwd s) : (lzwdToken s).Ensures (InPhase i .lzwd) := by
  unfold lzwdToken
  split
  · exact (lzwdFirst_loop h).mono (fun _ => And.left) fun _ _ => id
  · rename_i hne
    exact (lzwdNext_loop ⟨h, fun h0 => absurd h0 hne⟩).mono (fun _ => And.left) fun _ _ => id

theorem serToken_inPhase (sch : Scheme) (h : InPhase i .ser s) : (serToken sch s).Ensures (InPhase i .ser) := by
  unfold serToken
  split
  · exact h
  · rename_i t ht
    have hnext : InPhase i .ser { s with tp := s.tp + 1 } :=
      { h with
        tp := succ_le_of_getElem? ht
        tpFresh := fun hne => absurd rfl hne
        prevReady := fun hph => Phase.noConfusion hph }
    exact hnext.appendCode sch _

theorem desHeader_inPhase (sch : Scheme) (h : InPhase i .des s) : (desHeader sch s).Ensures (InPhase i .des) := by
  refine readCode_post (fun v p _ _ hp => ?_) fun _ _ => trivial
  have hread : InPhase i .des { s with bp := p } := { h with bp := hp, bpFresh := fun hne => absurd rfl hne }
  simp only
  split
  · trivial
  · split
    · trivial
    · exact { hread.noteDecoded sch v with }

theorem desToken_inPhase (sch : Scheme) (h : InPhase i .des s) : (desToken sch s).Ensures (InPhase i .des) := by
  refine readCode_post (fun v p _ _ hp => ?_) fun _ _ => trivial
  have hread : InPhase i .des { s with bp := p } := { h with bp := hp, bpFresh := fun hne => absurd rfl hne }
  exact appendTK_post ((hread.noteDecoded sch v).appendTokens _) trivial

theorem packByte_inPhase (h : InPhase i .pack s) : (packByte s).Ensures (InPhase i .pack) :=
  appendOB_post { h with } trivial

theorem unpackByte_inPhase (h : InPhase i .unpack s) : (unpackByte s).Ensures (InPhase i .unpack) := by
  unfold unpackByte
  split
  · exact h
  · rename_i b hb
    have hnext : InPhase i .unpack { s with ip := s.ip + 1 } := { h with ip := succ_le_of_getElem? hb }
    exact appendBS_post (hnext.appendBits _) trivial

theorem udecNumber_inPhase (sch : Scheme) (h : InPhase i .udec s) : (udecNumber sch s).Ensures (InPhase i .udec) := by
  refine readCode_post (fun v p _ _ hp => ?_) fun _ _ => trivial
  have hread : InPhase i .udec { s with bp := p } :=
    { h with bp := hp, bpFresh := fun _ _ hne => absurd rfl hne }
  exact { hread.noteDecoded sch v with }

/-! ## Whole phases -/

theorem phaseUnit_inPhase (sch : Scheme) (h : InPhase i ph s) : (phaseUnit sch ph s).Ensures (InPhase i ph) := by
  cases ph with
  | idle => exact h
  | lzwe => exact lzweByte_inPhase h
  | lzwd => exact lzwdToken_inPhase h
  | ser =>
    simp only [phaseUnit, serUnit]
    split
    · exact h.appendCode sch _
    · exact serToken_inPhase sch h
  | des =>
    simp only [phaseUnit, desUnit]
    split
    · exact desHeader_inPhase sch h
    · exact desToken_inPhase sch h
  | pack => exact packByte_inPhase h
  | unpack => exact unpackByte_inPhase h
  | uenc => exact h.appendCode sch _
  | udec => exact udecNumber_inPhase sch h

theorem leavePhase_inPhase (h : InPhase i ph s) : (leavePhase ph s).Ensures (InPhase i ph) := by
  cases ph with
  | lzwe => exact lzweFlush_inPhase h
  | idle | lzwd | ser | des | pack | unpack | uenc | udec => exact h

theorem phaseWork_inPhase (sch : Scheme) (h : InPhase i ph s) : (phaseWork sch ph s).Ensures (InPhase i ph) := by
  cases ph with
  | idle => exact h
  | lzwe => exact (Run.Post.times (fun _ => lzweByte_inPhase) _ h).bind fun _ => lzweFlush_inPhase
  | lzwd =>
    have hloop := (lzwdFirst_loop h).bind fun _ ht => Run.Post.times (fun _ => lzwdNext_loop) (s.tkLen - 1) ht
    exact hloop.mono (fun _ => And.left) fun _ _ => id
  | ser => exact (h.appendCode sch _).bind fun _ ht => Run.Post.times (fun _ => serToken_inPhase sch) _ ht
  | des => exact (desHeader_inPhase sch h).bind fun _ ht => Run.Post.times (fun _ => desToken_inPhase sch) _ ht
  | pack => exact Run.Post.times (fun _ => packByte_inPhase) _ h
  | unpack => exact Run.Post.times (fun _ => unpackByte_inPhase) _ h
  | uenc => exact h.appendCode sch _
  | udec => exact udecNumber_inPhase sch h

/-! ## From one phase to the next -/

/-- Phase `ph'` can be entered from `ph`: it opens a run, or it is the next one of a command. -/
inductive Phase.Precedes : Phase → Phase → Prop
  | opening (ph : Phase) : Phase.Precedes .idle ph
  | lzwe_ser : Phase.Precedes .lzwe .ser
  | ser_pack : Phase.Precedes .ser .pack
  | unpack_des : Phase.Precedes .unpack .des
  | des_lzwd : Phase.Precedes .des .lzwd

/-- The order of the phases, read off the table of each command. -/
theorem nextPhase_precedes (h : nextPhase i ph = some ph') : ph.Precedes ph' ∧ ph' ∈ phasesOf i := by
  cases i <;> cases ph <;> cases h <;> exact ⟨by constructor, by decide⟩

theorem enterLzwe_inPhase (h : InPhase i .idle s) : (enterLzwe s).Ensures (InPhase i .lzwe) := by
  simp only [enterLzwe, Run.post_bind]
  refine initDict_post ?_ trivial
  have htp : s.tp = 0 := h.tpFresh (by decide) (by decide) (by decide)
  have hbp : s.bp = 0 := h.bpFresh (by decide) (by decide) (by decide)
  exact .of_rewound h.command h.status rfl (Nat.zero_le _) htp hbp (.inr seedDict_sound) fun _ => seedDict_sound

theorem enterLzwd_inPhase (h : InPhase i ph s) : (enterLzwd s).Ensures (InPhase i .lzwd) := by
  simp only [enterLzwd, Run.post_bind]
  refine initDict_post ?_ trivial
  exact { h with
    phase := rfl
    tp := Nat.zero_le _
    tpFresh := fun _ _ _ => rfl
    bpFresh := fun _ hne => absurd rfl hne
    dict := .inr seedDict_sound
    hasDict := fun _ => seedDict_sound
    prevReady := fun _ hpos => absurd hpos (lt_irrefl 0) }

theorem enterSer_inPhase (h : InPhase i ph s) (hbp : s.bp = 0) : (enterSer s).Ensures (InPhase i .ser) :=
  .of_rewound h.command h.status rfl h.ip rfl hbp h.dict (by simp)

theorem enterPack_inPhase (h : InPhase i ph s) (hbp : s.bp = 0) : (enterPack s).Ensures (InPhase i .pack) :=
  { h with
    phase := rfl
    tpFresh := fun _ hne => absurd rfl hne
    bpFresh := fun _ _ _ => hbp
    hasDict := by simp
    prevReady := by simp }

theorem enterDes_inPhase (h : InPhase i ph s) (htp : s.tp = 0) : (enterDes s).Ensures (InPhase i .des) :=
  .of_rewound h.command h.status rfl h.ip htp rfl h.dict (by simp)

/-- Entering a phase rewinds the cursors it works with; the others are at 0 or stay within their buffers. -/
theorem enterPhase_inPhase (hph : ph.Precedes ph') (h : InPhase i ph s) :
    (enterPhase ph' s).Ensures (InPhase i ph') := by
  cases hph with
  | lzwe_ser => exact enterSer_inPhase h (h.bpFresh (by decide) (by decide) (by decide))
  | ser_pack => exact enterPack_inPhase h (h.bpFresh (by decide) (by decide) (by decide))
  | unpack_des => exact enterDes_inPhase h (h.tpFresh (by decide) (by decide) (by decide))
  | des_lzwd => exact enterLzwd_inPhase h
  | opening =>
    have htp : s.tp = 0 := h.tpFresh (by decide) (by decide) (by decide)
    have hbp : s.bp = 0 := h.bpFresh (by decide) (by decide) (by decide)
    cases ph' with
    | idle => exact h
    | lzwe => exact enterLzwe_inPhase h
    | lzwd => exact enterLzwd_inPhase h
    | ser => exact enterSer_inPhase h hbp
    | des => exact enterDes_inPhase h htp
    | pack => exact enterPack_inPhase h hbp
    | unpack => exact .of_rewound h.command h.status rfl (Nat.zero_le _) htp hbp h.dict (by simp)
    | uenc | udec => exact .of_rewound h.command h.status rfl h.ip htp hbp h.dict (by simp)

/-- A whole phase, from its opening to its end. -/
theorem wholePhase_inPhase (sch : Scheme) (hph : ph.Precedes ph') (h : InPhase i ph s) :
    ((enterPhase ph' s).bind (phaseWork sch ph')).Ensures (InPhase i ph') :=
  (enterPhase_inPhase hph h).bind fun _ => phaseWork_inPhase sch

/-! ## Idle states and the ends of a run -/

theorem busy_of_started (h : s.status = statusStarted) : s.busy = true := by
  unfold State.busy
  rw [h]
  decide

theorem not_busy_of_idleStatus (h : IdleStatus s.status) : s.busy = false := by
  have hall : ∀ st ∈ 0x00 :: endStatuses, statusBusy st = false := by decide
  exact hall _ (List.mem_cons.2 h)

/-- An idle state is coherent by its status, its phase and its dictionary alone. -/
theorem coherent_of_idle (status : IdleStatus s.status) (phase : s.phase = .idle) (dict : DictOk s.dict) :
    s.Coherent := by
  have hidle : ¬ s.busy = true := by simp [not_busy_of_idleStatus status]
  exact {
    idle := fun _ => ⟨status, phase⟩
    busy := fun hb => absurd hb hidle
    cursors := fun hb => absurd hb hidle
    fresh := fun hb => absurd hb hidle
    dict := dict
    hasDict := fun hb => absurd hb hidle
    prevReady := fun hb => absurd hb hidle }

theorem InPhase.coherent (h : InPhase i ph s) (hmem : ph ∈ phasesOf i) : s.Coherent := by
  obtain rfl := h.phase
  exact {
    idle := fun hb => by rw [busy_of_started h.status] at hb; cases hb
    busy := fun _ => ⟨h.status, i, h.command, hmem⟩
    cursors := fun _ => ⟨h.ip, h.tp, h.bp⟩
    fresh := fun _ => ⟨h.tpFresh, h.bpFresh⟩
    dict := h.dict
    hasDict := fun _ => h.hasDict
    prevReady := fun _ => h.prevReady }

/-- A busy coherent state is in a phase of the command it runs. -/
theorem State.Coherent.inPhase (h : s.Coherent) (hb : s.busy = true) :
    ∃ i, s.phase ∈ phasesOf i ∧ InPhase i s.phase s := by
  obtain ⟨hstatus, i, hi, hmem⟩ := h.busy hb
  obtain ⟨hip, htp, hbp⟩ := h.cursors hb
  obtain ⟨htp0, hbp0⟩ := h.fresh hb
  exact ⟨i, hmem, hi, hstatus, rfl, hip, htp, hbp, htp0, hbp0, h.dict, h.hasDict hb, h.prevReady hb⟩

theorem errorStop_coherent (ws : List Dest) (e : ErrKind) (s : State) : (errorStop ws e s).Coherent := by
  refine coherent_of_idle (.inr ?_) rfl (.inl rfl)
  rw [errorStop_status]
  cases e <;> decide

/-- What a run's last piece ends in: `FreshState`'s status, with "nothing to do" or without, and a legal dictionary. -/
def ReadyToEnd (s : State) : Prop := (s.status = statusStarted ∨ s.status = setNtd statusStarted) ∧ DictOk s.dict

theorem InPhase.readyToEnd (h : InPhase i ph s) : ReadyToEnd s := ⟨.inl h.status, h.dict⟩

theorem ReadyToEnd.endRun_coherent (h : ReadyToEnd s) : (endRun s).Coherent := by
  obtain ⟨hstatus, hdict⟩ := h
  refine coherent_of_idle (.inr ?_) rfl hdict
  rw [endRun_status]
  obtain hst | hst := hstatus <;> rw [hst] <;> decide

variable {r : Run}

theorem Run.Ensures.readyToEnd (h : r.Ensures (InPhase i ph)) : r.Ensures ReadyToEnd :=
  Run.Post.mono h (fun _ => InPhase.readyToEnd) fun _ _ => id

theorem finishRun_coherent (ws : List Dest) (h : r.Ensures ReadyToEnd) : (finishRun ws r).Coherent := by
  cases r with
  | ok t => exact h.endRun_coherent
  | raised e t => exact errorStop_coherent ws e t

theorem settle_coherent (ws : List Dest) (hmem : ph ∈ phasesOf i) (h : r.Ensures (InPhase i ph)) :
    (settle ws r).Coherent := by
  cases r with
  | ok t => exact h.coherent hmem
  | raised e t => exact errorStop_coherent ws e t

/-! ## The engine -/

theorem advance_coherent (h : r.Ensures (InPhase i ph)) : (advance i ph r).Coherent := by
  unfold advance
  split
  · exact finishRun_coherent _ h.readyToEnd
  · rename_i ph' hnext
    obtain ⟨hprec, hmem⟩ := nextPhase_precedes hnext
    exact settle_coherent _ hmem (h.bind fun _ => enterPhase_inPhase hprec)

theorem runStep_coherent (hmem : s.phase ∈ phasesOf i) (h : InPhase i s.phase s) : (runStep i s).Coherent := by
  unfold runStep
  split
  · exact advance_coherent (phaseWork_inPhase _ h)
  · split
    · exact settle_coherent _ hmem (phaseUnit_inPhase _ h)
    · exact advance_coherent (leavePhase_inPhase h)

/-- The engine's turn never stops: no stray phase is met. -/
theorem engineTurn_coherent (h : s.Coherent) : ∃ t, engineTurn s = .next t ∧ t.Coherent := by
  unfold engineTurn
  split
  · rename_i hb
    obtain ⟨i, hmem, hs⟩ := h.inPhase hb
    refine ⟨runStep i s, ?_, runStep_coherent hmem hs⟩
    simp [engineStep, hs.command, hmem]
  · exact ⟨s, rfl, h⟩

/-! ## The start of a run -/

theorem decode_encode (i : Instr) : decode (encode i) = .ok i := by
  cases i <;> decide

theorem beginCommand_inPhase (i : Instr) (h : s.phase = .idle) : InPhase i .idle (beginCommand i s) :=
  .of_rewound (decode_encode i) rfl h (Nat.zero_le _) rfl rfl (.inl (beginCommand_dict i s)) (by simp)

theorem emptyInput_readyToEnd (hs : InPhase i .idle s) (h : emptyInput i s = some t) : ReadyToEnd t := by
  cases i with
  | compressG | compressD | compressO | compressF =>
    simp only [emptyInput] at h
    split at h
    · cases h; exact ⟨.inr (hs.status ▸ rfl), hs.dict⟩
    · cases h
  | decompressG | decompressD | decompressO | decompressF =>
    simp only [emptyInput] at h
    split at h
    · cases h; exact hs.readyToEnd
    · cases h
  | lzwe | lzwd | serG | serD | serO | serF | desG | desD | desO | desF | uencG | uencD | uencO | uencF
  | udecG | udecD | udecO | udecF | pack | unpack => cases h

theorem headPhase_mem (i : Instr) : (phasesOf i).headD .idle ∈ phasesOf i := by
  cases i <;> decide

theorem beginStepped_coherent (i : Instr) (h : s.phase = .idle) : (beginStepped i s).Coherent := by
  have hs := beginCommand_inPhase i h
  simp only [beginStepped]
  split
  · exact (emptyInput_readyToEnd hs ‹_›).endRun_coherent
  · exact settle_coherent _ (headPhase_mem i) (enterPhase_inPhase (.opening _) hs)

/-! ## A whole run in one step -/

theorem serRule_inPhase (sch : Scheme) (hph : ph.Precedes .ser) (h : InPhase i ph s) :
    (serRule sch s).Ensures (InPhase i .pack) :=
  (wholePhase_inPhase sch hph h).bind fun _ => wholePhase_inPhase sch .ser_pack

theorem desRule_inPhase (sch : Scheme) (h : InPhase i .idle s) : (desRule sch s).Ensures (InPhase i .des) :=
  (wholePhase_inPhase sch (.opening .unpack) h).bind fun _ => wholePhase_inPhase sch .unpack_des

theorem compressRule_readyToEnd (sch : Scheme) (h : InPhase i .idle s) :
    (compressRule sch s).Ensures ReadyToEnd := by
  unfold compressRule
  split
  · exact ⟨.inr (h.status ▸ rfl), h.dict⟩
  · have hall := (wholePhase_inPhase sch (.opening .lzwe) h).bind fun _ => serRule_inPhase sch .lzwe_ser
    exact Run.Ensures.readyToEnd hall

theorem decompressRule_readyToEnd (sch : Scheme) (h : InPhase i .idle s) :
    (decompressRule sch s).Ensures ReadyToEnd := by
  unfold decompressRule
  split
  · exact h.readyToEnd
  · have hall := (desRule_inPhase sch h).bind fun _ => wholePhase_inPhase sch .des_lzwd
    exact Run.Ensures.readyToEnd hall

/-- The rule of every command. -/
theorem ruleOf_readyToEnd (h : InPhase i .idle s) (j : Instr) : (ruleOf j s).Ensures ReadyToEnd := by
  cases j with
  | compressG | compressD | compressO | compressF => exact compressRule_readyToEnd _ h
  | decompressG | decompressD | decompressO | decompressF => exact decompressRule_readyToEnd _ h
  | serG | serD | serO | serF => exact (serRule_inPhase _ (.opening .ser) h).readyToEnd
  | desG | desD | desO | desF => exact (desRule_inPhase _ h).readyToEnd
  | lzwe => exact (wholePhase_inPhase .gamma (.opening .lzwe) h).readyToEnd
  | lzwd => exact (wholePhase_inPhase .gamma (.opening .lzwd) h).readyToEnd
  | uencG | uencD | uencO | uencF => exact (wholePhase_inPhase _ (.opening .uenc) h).readyToEnd
  | udecG | udecD | udecO | udecF => exact (wholePhase_inPhase _ (.opening .udec) h).readyToEnd
  | pack => exact (wholePhase_inPhase .gamma (.opening .pack) h).readyToEnd
  | unpack => exact (wholePhase_inPhase .gamma (.opening .unpack) h).readyToEnd

theorem exec_coherent (i : Instr) (h : s.phase = .idle) : ∃ t, exec i s = .next t ∧ t.Coherent := by
  refine ⟨_, exec_eq_runCommand i s, finishRun_coherent _ ?_⟩
  exact ruleOf_readyToEnd (beginCommand_inPhase i h) i

/-! ## The host's moves -/

/-- `START` is ignored while busy; an idle engine stops, runs, or enters a phase. -/
theorem hostStart_coherent (c : Word8) (h : s.Coherent) : ∃ t, hostStart c s = .next t ∧ t.Coherent := by
  unfold hostStart
  split
  · exact ⟨s, rfl, h⟩
  · rename_i hb
    obtain ⟨-, hphase⟩ := h.idle (by simpa using hb)
    split
    · exact ⟨_, rfl, errorStop_coherent _ _ _⟩
    · split
      · exact exec_coherent _ hphase
      · exact ⟨_, rfl, beginStepped_coherent _ hphase⟩

/-- A `LOAD` or `SET` is ignored while busy, and writes nothing that coherence asks of an idle state. -/
theorem idleWrite_coherent (h : s.Coherent) {u : State} (fits : Bool)
    (hstatus : u.status = s.status) (hphase : u.phase = s.phase) (hdict : u.dict = s.dict) :
    (if s.busy then s else if fits then u else s).Coherent := by
  split
  · exact h
  · rename_i hb
    obtain ⟨hidle, hph⟩ := h.idle (by simpa using hb)
    split
    · exact coherent_of_idle (hstatus ▸ hidle) (hphase.trans hph) (hdict ▸ h.dict)
    · exact h

theorem hostLoadIB_coherent (data : List Byte) (h : s.Coherent) : (hostLoadIB data s).Coherent :=
  idleWrite_coherent h _ rfl rfl rfl

theorem hostRead_coherent (x : Target) (h : s.Coherent) : (hostRead x s).Coherent := { h with }

theorem popMove_coherent (rest : List HostMove) (h : s.Coherent) : { s with hostIn := rest }.Coherent := { h with }

theorem hostMoveObIb_coherent (h : s.Coherent) : (hostMoveObIb s).Coherent := by
  unfold hostMoveObIb
  split
  · exact hostLoadIB_coherent _ (hostRead_coherent _ h)
  · exact hostRead_coherent _ h

theorem hostMove_coherent (m : HostMove) (h : s.Coherent) : ∃ t, hostMove m s = .next t ∧ t.Coherent := by
  cases m with
  | reset => exact ⟨_, rfl, coherent_of_idle (.inl rfl) rfl (.inl rfl)⟩
  | loadIB data => exact ⟨_, rfl, hostLoadIB_coherent data h⟩
  | loadTK data => exact ⟨_, rfl, idleWrite_coherent h _ rfl rfl rfl⟩
  | loadBS data => exact ⟨_, rfl, idleWrite_coherent h _ rfl rfl rfl⟩
  | set r v =>
    cases r with
    | n => exact ⟨_, rfl, idleWrite_coherent h _ rfl rfl rfl⟩
    | cmd => exact hostStart_coherent _ h
    | status | ibLen | obLen | tkLen | bsLen | bp | nc => exact ⟨s, rfl, h⟩
  | start c => exact hostStart_coherent c h
  | wait => exact ⟨s, rfl, h⟩
  | read x => exact ⟨_, rfl, hostRead_coherent x h⟩
  | moveObIb => exact ⟨_, rfl, hostMoveObIb_coherent h⟩

/-- Settles O52: a step is the engine's turn or a move of the host, and each answers a coherent state. -/
theorem coherencePreserved : Obligations.CoherencePreserved := by
  intro s h
  unfold step nextEvent
  split
  · exact engineTurn_coherent h
  · split
    · exact ⟨_, rfl, popMove_coherent _ h⟩
    · exact engineTurn_coherent h
  · exact hostMove_coherent _ (popMove_coherent _ h)

/-- Settles O53: after reset the engine is idle and there is no dictionary. -/
theorem resetIsCoherent : Obligations.ResetIsCoherent :=
  coherent_of_idle (.inl rfl) rfl (.inl rfl)

end Sys2Proof.Machine
end

section
/-! SUPPORT. The footprint of every phase (10_state.md R27, R31; 20_memory.md R65): the fields it may write. What lies
outside is as it was, whether the phase ends or raises an error; and no phase raises `IllegalCommand`. -/

namespace Sys2Proof.Machine

/-- The fields of `State`, by name. -/
inductive Field where
  | cmd | status | n | bp | ib | ob | tk | bs | dict | w | prev | entry | acc | l | hv | cnt | phase | ip | tp
  | params | hostIn | hostOut | freeCtr
  deriving DecidableEq

/-- `t` has in the field what `s` has. -/
def Field.Same : Field → State → State → Prop
  | .cmd, s, t => t.cmd = s.cmd
  | .status, s, t => t.status = s.status
  | .n, s, t => t.n = s.n
  | .bp, s, t => t.bp = s.bp
  | .ib, s, t => t.ib = s.ib
  | .ob, s, t => t.ob = s.ob
  | .tk, s, t => t.tk = s.tk
  | .bs, s, t => t.bs = s.bs
  | .dict, s, t => t.dict = s.dict
  | .w, s, t => t.w = s.w
  | .prev, s, t => t.prev = s.prev
  | .entry, s, t => t.entry = s.entry
  | .acc, s, t => t.acc = s.acc
  | .l, s, t => t.l = s.l
  | .hv, s, t => t.hv = s.hv
  | .cnt, s, t => t.cnt = s.cnt
  | .phase, s, t => t.phase = s.phase
  | .ip, s, t => t.ip = s.ip
  | .tp, s, t => t.tp = s.tp
  | .params, s, t => t.params = s.params
  | .hostIn, s, t => t.hostIn = s.hostIn
  | .hostOut, s, t => t.hostOut = s.hostOut
  | .freeCtr, s, t => t.freeCtr = s.freeCtr

theorem Field.Same.refl (f : Field) (s : State) : f.Same s s := by cases f <;> rfl

theorem Field.Same.trans {f : Field} {a b c : State} (hab : f.Same a b) (hbc : f.Same b c) : f.Same a c := by
  cases f <;> exact Eq.trans hbc hab

/-- `t` differs from `s` in the fields `fs` only. -/
def Untouched (fs : List Field) (s t : State) : Prop := ∀ f, f ∉ fs → f.Same s t

namespace Untouched

variable {fs gs : List Field} {a b c s t : State}

theorem refl (fs : List Field) (s : State) : Untouched fs s s := fun f _ => .refl f s

theorem trans (hab : Untouched fs a b) (hbc : Untouched fs b c) : Untouched fs a c :=
  fun f hf => (hab f hf).trans (hbc f hf)

theorem mono (h : Untouched fs s t) (hsub : fs ⊆ gs) : Untouched gs s t := fun f hf => h f fun hm => hf (hsub hm)

/-- For an update written out, the fields outside `fs` are seen one by one. -/
theorem of_update (h : ∀ f, f ∉ fs → f.Same s t := by (intro f hf; cases f <;> simp [Field.Same] at hf ⊢)) :
    Untouched fs s t := h

end Untouched

/-- A piece of a run writes the fields `fs` only, and raises no `IllegalCommand`. -/
def Run.Touches (fs : List Field) (f : State → Run) : Prop :=
  ∀ s, (f s).Post (Untouched fs s) fun e t => e ≠ .illegalCommand ∧ Untouched fs s t

namespace Run.Touches

variable {fs gs : List Field} {f g : State → Run}

theorem mono (hf : Run.Touches fs f) (hsub : fs ⊆ gs) : Run.Touches gs f :=
  fun s => (hf s).mono (fun _ h => h.mono hsub) fun _ _ h => ⟨h.1, h.2.mono hsub⟩

/-- A piece begun in a state that differs from the start in the same fields. -/
theorem from_touched (hf : Run.Touches fs f) {s t : State} (h : Untouched fs s t) :
    (f t).Post (Untouched fs s) fun e u => e ≠ .illegalCommand ∧ Untouched fs s u :=
  (hf t).mono (fun _ hu => h.trans hu) fun _ _ hu => ⟨hu.1, h.trans hu.2⟩

theorem seq (hf : Run.Touches fs f) (hg : Run.Touches fs g) : Run.Touches fs fun s => (f s).bind g :=
  fun s => (hf s).bind fun _ h => hg.from_touched h

theorem loop (hf : Run.Touches fs f) (k : Nat) : Run.Touches fs (Run.times k f) :=
  fun s => Run.Post.times (P := Untouched fs s) (fun _ h => hf.from_touched h) k (.refl fs s)

theorem done : Run.Touches fs Run.ok := fun s => Untouched.refl fs s

end Run.Touches

/-! ## The codec's operations -/

theorem noteEncoded_untouched (sch : Scheme) (n : Nat) (s : State) : Untouched [.bs, .l] s (noteEncoded sch n s) := by
  cases sch with
  | gamma | delta => exact .of_update (t := { s with l := blen n })
  | omega | fibonacci => exact .refl _ s

theorem noteDecoded_untouched (sch : Scheme) (v : Nat) (s : State) :
    Untouched [.acc, .l] s (noteDecoded sch v s) := by
  cases sch with
  | gamma | delta => exact .of_update (t := { s with l := blen v })
  | omega => exact .of_update (t := { s with acc := v })
  | fibonacci => exact .refl _ s

theorem appendCode_touches (sch : Scheme) (n : Nat) : Run.Touches [.bs, .l] (appendCode sch n) := by
  intro s
  have hnote := noteEncoded_untouched sch n s
  exact appendCode_post (fun _ => hnote.trans .of_update) ⟨by decide, hnote⟩ ⟨by decide, .refl _ s⟩
    ⟨by decide, .refl _ s⟩

theorem ErrKind.OfDecoder.ne_illegal {e : ErrKind} (h : e.OfDecoder) : e ≠ .illegalCommand := by
  obtain rfl | rfl := h <;> decide

theorem readCode_touches {fs : List Field} (hfs : [.bp, .acc, .l] ⊆ fs) (sch : Scheme) {f : Nat → State → Run}
    (hf : ∀ v, Run.Touches fs (f v)) : Run.Touches fs (readCode sch f) := by
  intro s
  refine readCode_post (fun v p _ _ _ => (hf v).from_touched ?_) fun e he => ⟨he.ne_illegal, .refl fs s⟩
  have hbp : Untouched [.bp, .acc, .l] s { s with bp := p } := .of_update
  exact (hbp.trans ((noteDecoded_untouched sch v _).mono (by simp))).mono hfs

/-! ## The phases -/

/-- What a phase writes besides `PHASE`. -/
@[simp] def Phase.touches : Phase → List Field
  | .idle => []
  | .lzwe => [.tk, .dict, .w, .ip]
  | .lzwd => [.ob, .dict, .prev, .entry, .tp]
  | .ser => [.bs, .ob, .tp, .l]
  | .des => [.tk, .bp, .hv, .cnt, .acc, .l]
  | .pack => [.ob]
  | .unpack => [.bs, .ip]
  | .uenc => [.bs, .l]
  | .udec => [.n, .bp, .acc, .l]

theorem lzweByte_touches : Run.Touches Phase.lzwe.touches lzweByte := by
  intro s
  unfold lzweByte
  split
  · exact .refl _ s
  · simp only
    split
    · exact .of_update
    · simp only [Run.post_bind]
      exact appendTK_post (insertPhrase_post .of_update ⟨by decide, .of_update⟩) ⟨by decide, .of_update⟩

theorem lzweFlush_touches : Run.Touches Phase.lzwe.touches lzweFlush := by
  intro s
  unfold lzweFlush
  split
  · exact .refl _ s
  · exact appendTK_post .of_update ⟨by decide, .refl _ s⟩

theorem lzwdFirst_touches : Run.Touches Phase.lzwd.touches lzwdFirst := by
  intro s
  unfold lzwdFirst
  split
  · exact .refl _ s
  · simp only
    split
    · exact ⟨by decide, .of_update⟩
    · exact appendOB_post .of_update ⟨by decide, .of_update⟩

theorem lzwdNext_touches : Run.Touches Phase.lzwd.touches lzwdNext := by
  intro s
  unfold lzwdNext
  split
  · exact .refl _ s
  · simp only
    split
    · exact ⟨by decide, .of_update⟩
    · simp only [Run.post_bind]
      exact appendOB_post (insertPhrase_post .of_update ⟨by decide, .of_update⟩) ⟨by decide, .of_update⟩

theorem serToken_touches (sch : Scheme) : Run.Touches Phase.ser.touches (serToken sch) := by
  intro s
  unfold serToken
  split
  · exact .refl _ s
  · exact ((appendCode_touches sch _).mono (by decide)).from_touched .of_update

theorem desHeader_touches (sch : Scheme) : Run.Touches Phase.des.touches (desHeader sch) := by
  refine readCode_touches (by decide) sch fun v s => ?_
  simp only
  split
  · exact ⟨by decide, .of_update⟩
  · split
    · exact ⟨by decide, .of_update⟩
    · exact .of_update

theorem desToken_touches (sch : Scheme) : Run.Touches Phase.des.touches (desToken sch) :=
  readCode_touches (by decide) sch fun _ s => appendTK_post .of_update ⟨by decide, .refl _ s⟩

theorem packByte_touches : Run.Touches Phase.pack.touches packByte :=
  fun s => appendOB_post .of_update ⟨by decide, .refl _ s⟩

theorem unpackByte_touches : Run.Touches Phase.unpack.touches unpackByte := by
  intro s
  unfold unpackByte
  split
  · exact .refl _ s
  · exact appendBS_post .of_update ⟨by decide, .of_update⟩

theorem udecNumber_touches (sch : Scheme) : Run.Touches Phase.udec.touches (udecNumber sch) :=
  readCode_touches (by decide) sch fun v s => Untouched.of_update (t := { s with n := v })

theorem phaseWork_touches (sch : Scheme) (ph : Phase) : Run.Touches ph.touches (phaseWork sch ph) := by
  cases ph with
  | idle => exact .done
  | lzwe => exact fun s => (lzweByte_touches.loop (s.ibLen - s.ip)).seq lzweFlush_touches s
  | lzwd => exact fun s => lzwdFirst_touches.seq (lzwdNext_touches.loop (s.tkLen - 1)) s
  | ser => exact fun s => ((appendCode_touches sch _).mono (by decide)).seq ((serToken_touches sch).loop s.tkLen) s
  | des => exact (desHeader_touches sch).seq fun s => (desToken_touches sch).loop s.cnt s
  | pack => exact fun s => packByte_touches.loop (packedLen s.bsLen - s.obLen) s
  | unpack => exact fun s => unpackByte_touches.loop (s.ibLen - s.ip) s
  | uenc => exact fun s => appendCode_touches sch s.n s
  | udec => exact udecNumber_touches sch

theorem enterPhase_touches (ph : Phase) : Run.Touches (.phase :: ph.touches) (enterPhase ph) := by
  intro s
  cases ph with
  | idle => exact .refl _ s
  | lzwe | lzwd =>
    simp only [enterPhase, enterLzwe, enterLzwd, Run.post_bind]
    exact initDict_post .of_update ⟨by decide, .of_update⟩
  | ser | des | pack | unpack | uenc | udec => exact .of_update

/-- A whole phase, from its opening to its end. -/
theorem wholePhase_touches (sch : Scheme) (ph : Phase) :
    Run.Touches (.phase :: ph.touches) fun s => (enterPhase ph s).bind (phaseWork sch ph) :=
  (enterPhase_touches ph).seq ((phaseWork_touches sch ph).mono (List.subset_cons_self _ _))

end Sys2Proof.Machine
end

section
/-! SUPPORT. How a whole run ends, said once for every command, and what follows from it: its status (10_state.md R41),
"nothing to do" (R24) and its frame (20_memory.md R65; 10_state.md R33). -/

namespace Sys2Proof.Machine

open Sys2Proof.Claims

/-- What the phases of a command write. -/
def commandTouches (i : Instr) : List Field := .phase :: (phasesOf i).flatMap Phase.touches

variable {i : Instr} {s t u : State}

/-- A field is left alone by a command without the phases that write it, its `owners`. -/
theorem not_touched {f : Field} (owners : List Phase) (hno : ∀ ph ∈ owners, ph ∉ phasesOf i)
    (hown : ∀ ph, f ∈ ph.touches → ph ∈ owners := by (intro ph; cases ph <;> decide))
    (hphase : f ≠ .phase := by decide) : f ∉ commandTouches i := by
  intro hf
  obtain hf | hf := List.mem_cons.1 hf
  · exact hphase hf
  · obtain ⟨ph, hmem, hf⟩ := List.mem_flatMap.1 hf
    exact hno ph (hown ph hf) hmem

/-- The field of a destination; `NC` is the length of `DICT`. -/
def Dest.field : Dest → Field
  | .ob => .ob
  | .tk => .tk
  | .bs => .bs
  | .dict | .nc => .dict
  | .n => .n
  | .bp => .bp

/-- The phases of a command write no buffer and no register outside its write set (20_memory.md R65). -/
theorem mem_writeSet_of_touched {d : Dest} (h : d.field ∈ commandTouches i) : d ∈ writeSet i := by
  revert h
  cases i <;> cases d <;> decide

/-! ## The rules -/

theorem phaseOf_touches (sch : Scheme) {ph : Phase} (hmem : ph ∈ phasesOf i) :
    Run.Touches (commandTouches i) fun s => (enterPhase ph s).bind (phaseWork sch ph) := by
  refine (wholePhase_touches sch ph).mono (List.cons_subset_cons _ fun f hf => ?_)
  exact List.mem_flatMap.2 ⟨ph, hmem, hf⟩

theorem serRule_touches (sch : Scheme) (hser : .ser ∈ phasesOf i) (hpack : .pack ∈ phasesOf i) :
    Run.Touches (commandTouches i) (serRule sch) :=
  (phaseOf_touches sch hser).seq (phaseOf_touches sch hpack)

theorem desRule_touches (sch : Scheme) (hunpack : .unpack ∈ phasesOf i) (hdes : .des ∈ phasesOf i) :
    Run.Touches (commandTouches i) (desRule sch) :=
  (phaseOf_touches sch hunpack).seq (phaseOf_touches sch hdes)

theorem compressOf_phases (sch : Scheme) : phasesOf (compressOf sch) = [.lzwe, .ser, .pack] := by
  cases sch <;> rfl

theorem ruleOf_compressOf (sch : Scheme) : ruleOf (compressOf sch) = compressRule sch := by
  cases sch <;> rfl

/-- The non-empty case of 44_pipeline.md R220. -/
theorem compressPhases_touches (sch : Scheme) :
    Run.Touches (commandTouches (compressOf sch)) fun s => (lzwePhase s).bind (serRule sch) := by
  have hphases := compressOf_phases sch
  exact (phaseOf_touches sch (ph := .lzwe) (by simp [hphases])).seq
    (serRule_touches sch (by simp [hphases]) (by simp [hphases]))

theorem decompressRule_touches (sch : Scheme) (h : phasesOf i = [.unpack, .des, .lzwd]) :
    Run.Touches (commandTouches i) (decompressRule sch) := by
  intro s
  unfold decompressRule
  split
  · exact .refl _ s
  · exact (desRule_touches sch (by simp [h]) (by simp [h])).seq
      (phaseOf_touches sch (ph := .lzwd) (by simp [h])) s

theorem ruleOf_touches (h : ¬ ∃ sch, i = compressOf sch) : Run.Touches (commandTouches i) (ruleOf i) := by
  cases i with
  | compressG => exact absurd ⟨.gamma, rfl⟩ h
  | compressD => exact absurd ⟨.delta, rfl⟩ h
  | compressO => exact absurd ⟨.omega, rfl⟩ h
  | compressF => exact absurd ⟨.fibonacci, rfl⟩ h
  | decompressG | decompressD | decompressO | decompressF => exact decompressRule_touches _ rfl
  | lzwe => exact phaseOf_touches (ph := .lzwe) .gamma (by decide)
  | lzwd => exact phaseOf_touches (ph := .lzwd) .gamma (by decide)
  | serG | serD | serO | serF => exact serRule_touches _ (by decide) (by decide)
  | desG | desD | desO | desF => exact desRule_touches _ (by decide) (by decide)
  | uencG | uencD | uencO | uencF => exact phaseOf_touches (ph := .uenc) _ (by decide)
  | udecG | udecD | udecO | udecF => exact phaseOf_touches (ph := .udec) _ (by decide)
  | pack => exact phaseOf_touches (ph := .pack) .gamma (by decide)
  | unpack => exact phaseOf_touches (ph := .unpack) .gamma (by decide)

/-! ## The end of a run -/

/-- `COMPRESS.s` on empty input (44_pipeline.md R222). -/
def NothingToDo (i : Instr) (s : State) : Prop := (∃ sch, i = compressOf sch) ∧ s.ib = []

/-- How a run of `i` from `s` ends: with nothing to do, normally, or by an error other than `IllegalCommand`; in the
last two cases the phases of `i` have written no more than they may. -/
inductive RunEnds (i : Instr) (s : State) : State → Prop
  | nothingToDo (h : NothingToDo i s) : RunEnds i s (endRun { beginCommand i s with status := setNtd statusStarted })
  | normal {u : State} (hn : ¬ NothingToDo i s) (hu : Untouched (commandTouches i) (beginCommand i s) u) :
      RunEnds i s (endRun u)
  | error {e : ErrKind} {u : State} (hn : ¬ NothingToDo i s) (he : e ≠ .illegalCommand)
      (hu : Untouched (commandTouches i) (beginCommand i s) u) : RunEnds i s (errorStop (writeSet i) e u)

theorem RunEnds.of_touches {r : Run} (hn : ¬ NothingToDo i s)
    (h : r.Post (Untouched (commandTouches i) (beginCommand i s))
      fun e u => e ≠ .illegalCommand ∧ Untouched (commandTouches i) (beginCommand i s) u) :
    RunEnds i s (finishRun (writeSet i) r) := by
  cases r with
  | ok u => exact .normal hn h
  | raised e u => exact .error hn h.1 h.2

theorem exec_ends (i : Instr) (s : State) : ∃ t, exec i s = .next t ∧ RunEnds i s t := by
  refine ⟨_, exec_eq_runCommand i s, ?_⟩
  by_cases hc : ∃ sch, i = compressOf sch
  · obtain ⟨sch, rfl⟩ := hc
    rw [ruleOf_compressOf, compressRule, beginCommand_ib]
    split
    · exact .nothingToDo ⟨⟨sch, rfl⟩, ‹_›⟩
    · rename_i hib
      exact .of_touches (fun h => hib h.2) (compressPhases_touches sch _)
  · exact .of_touches (fun h => hc h.1) (ruleOf_touches hc _)

/-! ## The frame -/

/-- What lies outside the footprint has the value `beginCommand` gave it. -/
theorem Untouched.frame (hu : Untouched (.status :: commandTouches i) (beginCommand i s) u) : Frame i s (endRun u) := by
  have outside {f : Field} (hf : f ∉ commandTouches i) (hst : f ≠ .status) : f.Same (beginCommand i s) u :=
    hu f (List.not_mem_cons_of_ne_of_not_mem hst hf)
  have unlisted {d : Dest} (hd : d ∉ writeSet i) (hst : d.field ≠ .status) : d.field.Same (beginCommand i s) u :=
    outside (fun h => hd (mem_writeSet_of_touched h)) hst
  refine ⟨?_, ?_, ?_, ?_, ?_, ?_, ?_, ?_, ?_, ?_, ?_, ?_, ?_, ?_, rfl, ?_, ?_, ?_, ?_⟩
  · exact outside (f := .cmd) (not_touched [] (by simp)) (by decide)
  · exact outside (f := .ib) (not_touched [] (by simp)) (by decide)
  · intro hd
    have hob : u.ob = (beginCommand i s).ob := unlisted hd (by decide)
    simpa [hd] using hob
  · intro hd
    have htk : u.tk = (beginCommand i s).tk := unlisted hd (by decide)
    simpa [hd] using htk
  · intro hd
    have hbs : u.bs = (beginCommand i s).bs := unlisted hd (by decide)
    simpa [hd] using hbs
  · exact fun hd => unlisted hd (by decide)
  · exact fun hd => unlisted hd (by decide)
  · intro hd
    have hdict : u.dict = (beginCommand i s).dict := unlisted hd (by decide)
    simp [State.nc, hdict]
  · exact fun hno => outside (f := .w) (not_touched [.lzwe] (by simpa using hno)) (by decide)
  · intro hno
    exact ⟨outside (f := .prev) (not_touched [.lzwd] (by simpa using hno)) (by decide),
      outside (f := .entry) (not_touched [.lzwd] (by simpa using hno)) (by decide)⟩
  · intro hno
    exact ⟨outside (f := .hv) (not_touched [.des] (by simpa using hno)) (by decide),
      outside (f := .cnt) (not_touched [.des] (by simpa using hno)) (by decide)⟩
  · intro hlzwe hunpack
    exact outside (f := .ip) (not_touched [.lzwe, .unpack] (by simp [hlzwe, hunpack])) (by decide)
  · intro hser hlzwd
    exact outside (f := .tp) (not_touched [.ser, .lzwd] (by simp [hser, hlzwd])) (by decide)
  · intro hser hdes huenc hudec
    have hcodec : ∀ ph ∈ [Phase.ser, .des, .uenc, .udec], ph ∉ phasesOf i := by simp [hser, hdes, huenc, hudec]
    exact ⟨outside (f := .acc) (not_touched _ hcodec) (by decide),
      outside (f := .l) (not_touched _ hcodec) (by decide)⟩
  · exact outside (f := .params) (not_touched [] (by simp)) (by decide)
  · exact outside (f := .hostIn) (not_touched [] (by simp)) (by decide)
  · exact outside (f := .hostOut) (not_touched [] (by simp)) (by decide)
  · exact outside (f := .freeCtr) (not_touched [] (by simp)) (by decide)

/-- The error stop clears what may be cleared and sets the rest to the fresh values. -/
theorem frame_errorStop (e : ErrKind) (h : Frame i s (endRun u)) : Frame i s (errorStop (writeSet i) e u) := by
  obtain ⟨hcmd, hib, hob, htk, hbs, hn, -, -, -, -, -, -, -, -, -, hparams, hin, hout, hctr⟩ := h
  refine ⟨hcmd, hib, fun hd => ?_, fun hd => ?_, fun hd => ?_, fun hd => ?_, fun _ => rfl, fun _ => ⟨rfl, rfl⟩,
    fun _ => rfl, fun _ => ⟨rfl, rfl⟩, fun _ => ⟨rfl, rfl⟩, fun _ _ => rfl, fun _ _ => rfl, fun _ _ _ _ => ⟨rfl, rfl⟩, rfl,
    hparams, hin, hout, hctr⟩
  · simpa [hd] using hob hd
  · simpa [hd] using htk hd
  · simpa [hd] using hbs hd
  · simpa [hd] using hn hd

theorem RunEnds.frame (h : RunEnds i s t) : Frame i s t := by
  cases h with
  | nothingToDo =>
    have hstatus : Untouched [.status] (beginCommand i s) { beginCommand i s with status := setNtd statusStarted } :=
      .of_update
    exact (hstatus.mono (List.cons_subset_cons _ (List.nil_subset _))).frame
  | normal _ hu => exact (hu.mono (List.subset_cons_self _ _)).frame
  | error _ _ hu => exact frame_errorStop _ (hu.mono (List.subset_cons_self _ _)).frame

/-- Settles O18: however a run ends, what its phases do not write is as `beginCommand` left it. -/
theorem runChangesOnlyItsWriteSet : Obligations.RunChangesOnlyItsWriteSet := by
  intro i s
  obtain ⟨t, ht, hends⟩ := exec_ends i s
  exact ⟨t, ht, hends.frame⟩

/-! ## The status -/

/-- The status of a run's end (10_state.md R41). -/
theorem RunEnds.status (h : RunEnds i s t) :
    NothingToDo i s ∧ t.status = 0x0A ∨
    ¬ NothingToDo i s ∧ (t.status = 0x02 ∨ ∃ e, e ≠ .illegalCommand ∧ t.status = statusError e) := by
  cases h with
  | nothingToDo h =>
    have hst : statusEnded (setNtd statusStarted) = 0x0A := by decide
    exact .inl ⟨h, hst⟩
  | @normal u hn hu =>
    have hst : u.status = statusStarted := hu .status (not_touched [] (by simp))
    exact .inr ⟨hn, .inl (by rw [endRun_status, hst]; rfl)⟩
  | error hn he => exact .inr ⟨hn, .inr ⟨_, he, rfl⟩⟩

/-- Settles O17: a run ends normally, with nothing to do or without, or by one of the five errors of a legal command. -/
theorem everyRunEnds : Obligations.EveryRunEnds := by
  intro i s
  obtain ⟨t, ht, hends⟩ := exec_ends i s
  obtain ⟨hcmd, -, -, -, -, -, -, -, -, -, -, -, -, -, hphase, -⟩ := hends.frame
  refine ⟨t, ht, hcmd, hphase, ?_⟩
  obtain ⟨-, hst⟩ | ⟨-, hst | ⟨e, he, hst⟩⟩ := hends.status <;> rw [hst]
  · decide
  · decide
  · cases e with
    | illegalCommand => exact absurd rfl he
    | invalidArgument | invalidCode | truncatedStream | corruptHeader | capacityExceeded => decide

/-- Settles O22: of the end statuses only `0x0A` has `NTD`, and an error stop clears it. -/
theorem nothingToDoOnlyOnEmptyCompress : Obligations.NothingToDoOnlyOnEmptyCompress := by
  intro i s t ht
  obtain ⟨t', ht', hends⟩ := exec_ends i s
  obtain rfl : t = t' := by rw [ht] at ht'; cases ht'; rfl
  show statusNtd t.status = true ↔ NothingToDo i s
  obtain ⟨hn, hst⟩ | ⟨hn, hst | ⟨e, -, hst⟩⟩ := hends.status <;> rw [hst]
  · exact iff_of_true (by decide) hn
  · exact iff_of_false (by decide) hn
  · exact iff_of_false (by cases e <;> decide) hn

end Sys2Proof.Machine
end

section
/-! SUPPORT. A run reads the buffers of its command and no others (10_state.md R21; 20_memory.md R65): blotting out the
rest before a phase and after it comes to the same. -/

namespace Sys2Proof.Machine

open Sys2Proof.Claims

/-- `s` without the host's side, and without those of the buffers and `N` that `k` does not list. -/
def blot (k : List Field) (s : State) : State :=
  { s with
    ib := if .ib ∈ k then s.ib else []
    ob := if .ob ∈ k then s.ob else []
    tk := if .tk ∈ k then s.tk else []
    bs := if .bs ∈ k then s.bs else []
    n := if .n ∈ k then s.n else 0
    hostIn := []
    hostOut := []
    freeCtr := 0 }

/-- An update of the state a run has reached. -/
def Run.map (g : State → State) : Run → Run
  | .ok s => .ok (g s)
  | .raised e s => .raised e (g s)

/-- A piece of a run neither reads nor writes what `k` does not list. -/
def Run.Blind (k : List Field) (f : State → Run) : Prop := ∀ s, f (blot k s) = (f s).map (blot k)

namespace Run.Blind

variable {k : List Field} {f g : State → Run}

theorem done : Run.Blind k Run.ok := fun _ => rfl

theorem seq (hf : Run.Blind k f) (hg : Run.Blind k g) : Run.Blind k fun s => (f s).bind g := by
  intro s
  simp only [hf s]
  cases f s with
  | ok t => exact hg t
  | raised e t => rfl

theorem loop (hf : Run.Blind k f) (m : Nat) : Run.Blind k (Run.times m f) := by
  induction m with
  | zero => exact done
  | succ m ih => exact hf.seq ih

/-- A piece that depends on a value `m` read from the state beforehand. -/
theorem counted {α : Type} {f : α → State → Run} (m : State → α) (hm : ∀ s, m (blot k s) = m s)
    (hf : ∀ a, Run.Blind k (f a)) : Run.Blind k fun s => f (m s) s := by
  intro s
  simp only [hm s]
  exact hf (m s) s

/-- A piece begun after an update that commutes with the blotting. -/
theorem after {u : State → State} (hu : ∀ s, u (blot k s) = blot k (u s)) (hf : Run.Blind k f) :
    Run.Blind k fun s => f (u s) := by
  intro s
  simp only [hu s]
  exact hf (u s)

/-- A piece that takes one of two ways by a test that reads none of what is blotted out. -/
theorem branch {c : State → Prop} [DecidablePred c] (hc : ∀ s, c (blot k s) ↔ c s) (hf : Run.Blind k f)
    (hg : Run.Blind k g) : Run.Blind k fun s => if c s then f s else g s := by
  intro s
  by_cases h : c s
  · simpa only [hc s, h, if_true] using hf s
  · simpa only [hc s, h, if_false] using hg s

end Run.Blind

variable {k : List Field}

@[simp] theorem blot_cmd (s : State) : (blot k s).cmd = s.cmd := rfl
@[simp] theorem blot_status (s : State) : (blot k s).status = s.status := rfl
@[simp] theorem blot_params (s : State) : (blot k s).params = s.params := rfl
@[simp] theorem blot_bp (s : State) : (blot k s).bp = s.bp := rfl
@[simp] theorem blot_ip (s : State) : (blot k s).ip = s.ip := rfl
@[simp] theorem blot_tp (s : State) : (blot k s).tp = s.tp := rfl
@[simp] theorem blot_dict (s : State) : (blot k s).dict = s.dict := rfl
@[simp] theorem blot_w (s : State) : (blot k s).w = s.w := rfl
@[simp] theorem blot_prev (s : State) : (blot k s).prev = s.prev := rfl
theorem blot_ib (h : .ib ∈ k) (s : State) : (blot k s).ib = s.ib := if_pos h
theorem blot_ob (h : .ob ∈ k) (s : State) : (blot k s).ob = s.ob := if_pos h
theorem blot_tk (h : .tk ∈ k) (s : State) : (blot k s).tk = s.tk := if_pos h
theorem blot_bs (h : .bs ∈ k) (s : State) : (blot k s).bs = s.bs := if_pos h
theorem blot_n (h : .n ∈ k) (s : State) : (blot k s).n = s.n := if_pos h
theorem blot_ibLen (h : .ib ∈ k) (s : State) : (blot k s).ibLen = s.ibLen := congrArg List.length (blot_ib h s)
theorem blot_obLen (h : .ob ∈ k) (s : State) : (blot k s).obLen = s.obLen := congrArg List.length (blot_ob h s)
theorem blot_tkLen (h : .tk ∈ k) (s : State) : (blot k s).tkLen = s.tkLen := congrArg List.length (blot_tk h s)
theorem blot_bsLen (h : .bs ∈ k) (s : State) : (blot k s).bsLen = s.bsLen := congrArg List.length (blot_bs h s)

/-! ## The shared operations -/

theorem appendOB_blind (h : .ob ∈ k) (v : List Byte) : Run.Blind k (appendOB v) := by
  intro s
  have happ : { blot k s with ob := (blot k s).ob ++ v } = blot k { s with ob := s.ob ++ v } := by simp [blot, h]
  unfold appendOB
  rw [blot_obLen h, happ, blot_params, apply_ite (Run.map (blot k))]
  rfl

theorem appendTK_blind (h : .tk ∈ k) (v : List Token) : Run.Blind k (appendTK v) := by
  intro s
  have happ : { blot k s with tk := (blot k s).tk ++ v } = blot k { s with tk := s.tk ++ v } := by simp [blot, h]
  unfold appendTK
  rw [blot_tkLen h, happ, blot_params, apply_ite (Run.map (blot k))]
  rfl

theorem appendBS_blind (h : .bs ∈ k) (v : Bits) : Run.Blind k (appendBS v) := by
  intro s
  have happ : { blot k s with bs := (blot k s).bs ++ v } = blot k { s with bs := s.bs ++ v } := by simp [blot, h]
  unfold appendBS
  rw [blot_bsLen h, happ, blot_params, apply_ite (Run.map (blot k))]
  rfl

theorem initDict_blind : Run.Blind k initDict := by
  intro s
  unfold initDict
  rw [apply_ite (Run.map (blot k))]
  rfl

theorem insertPhrase_blind (p : Phrase) : Run.Blind k (insertPhrase p) := by
  intro s
  unfold insertPhrase
  rw [apply_ite (Run.map (blot k))]
  rfl

theorem noteEncoded_blot (sch : Scheme) (n : Nat) (s : State) :
    noteEncoded sch n (blot k s) = blot k (noteEncoded sch n s) := by
  cases sch <;> rfl

theorem noteDecoded_blot (sch : Scheme) (v : Nat) (s : State) :
    noteDecoded sch v (blot k s) = blot k (noteDecoded sch v s) := by
  cases sch <;> rfl

theorem appendCode_blind (h : .bs ∈ k) (sch : Scheme) (n : Nat) : Run.Blind k (appendCode sch n) := by
  intro s
  simp only [appendCode, blot_params]
  cases enc s.params.tokenW sch n with
  | error e => rfl
  | ok code =>
    simp only [noteEncoded_blot]
    exact appendBS_blind h code _

theorem readCode_blind (h : .bs ∈ k) (sch : Scheme) {f : Nat → State → Run} (hf : ∀ v, Run.Blind k (f v)) :
    Run.Blind k (readCode sch f) := by
  intro s
  have hdec : dec (blot k s).params.tokenW sch (blot k s).bs (blot k s).bp = dec s.params.tokenW sch s.bs s.bp := by
    rw [blot_bs h, blot_params, blot_bp]
  unfold readCode
  rw [hdec]
  cases dec s.params.tokenW sch s.bs s.bp with
  | error e => rfl
  | ok vp =>
    obtain ⟨v, p⟩ := vp
    exact (congrArg (f v) (noteDecoded_blot sch v { s with bp := p })).trans (hf v _)

/-! ## The loop bodies -/

theorem lzweByte_blind (hib : .ib ∈ k) (htk : .tk ∈ k) : Run.Blind k lzweByte := by
  intro s
  have hnext : (blot k s).ib[(blot k s).ip]? = s.ib[s.ip]? := by rw [blot_ib hib, blot_ip]
  unfold lzweByte
  rw [hnext]
  cases s.ib[s.ip]? with
  | none => rfl
  | some b =>
    simp only [blot_dict, blot_w]
    cases findCode s.dict (s.w ++ [b]) with
    | some _ => rfl
    | none =>
      have hemit : Run.Blind k emitMatch := fun s => appendTK_blind htk _ s
      have hlast : Run.Blind k fun s => .ok { s with w := [b] } := fun _ => rfl
      exact ((hemit.seq (insertPhrase_blind _)).seq hlast) { s with ip := s.ip + 1 }

theorem lzweFlush_blind (htk : .tk ∈ k) : Run.Blind k lzweFlush :=
  .branch (fun _ => Iff.rfl) .done fun s => appendTK_blind htk _ s

theorem lzwdFirst_blind (htk : .tk ∈ k) (hob : .ob ∈ k) : Run.Blind k lzwdFirst := by
  intro s
  have hnext : (blot k s).tk[(blot k s).tp]? = s.tk[s.tp]? := by rw [blot_tk htk, blot_tp]
  unfold lzwdFirst
  rw [hnext]
  cases s.tk[s.tp]? with
  | none => rfl
  | some t =>
    simp only [blot_dict]
    cases s.dict[t]? with
    | none => rfl
    | some p => exact appendOB_blind hob p { s with tp := s.tp + 1, prev := p }

theorem lzwdNext_blind (htk : .tk ∈ k) (hob : .ob ∈ k) : Run.Blind k lzwdNext := by
  intro s
  have hnext : (blot k s).tk[(blot k s).tp]? = s.tk[s.tp]? := by rw [blot_tk htk, blot_tp]
  unfold lzwdNext
  rw [hnext]
  cases s.tk[s.tp]? with
  | none => rfl
  | some t =>
    simp only [blot_dict, blot_prev]
    cases tokenPhrase s.dict s.prev t with
    | none => rfl
    | some p =>
      have hlast : Run.Blind k fun s => .ok { s with prev := s.entry } := fun _ => rfl
      exact (((appendOB_blind hob p).seq (insertPhrase_blind _)).seq hlast) { s with tp := s.tp + 1, entry := p }

theorem serToken_blind (htk : .tk ∈ k) (hbs : .bs ∈ k) (sch : Scheme) : Run.Blind k (serToken sch) := by
  intro s
  have hnext : (blot k s).tk[(blot k s).tp]? = s.tk[s.tp]? := by rw [blot_tk htk, blot_tp]
  unfold serToken
  rw [hnext]
  cases s.tk[s.tp]? with
  | none => rfl
  | some t => exact appendCode_blind hbs sch (t + 1) { s with tp := s.tp + 1 }

theorem desHeader_blind (hbs : .bs ∈ k) (sch : Scheme) : Run.Blind k (desHeader sch) := by
  refine readCode_blind hbs sch fun v => .branch (fun _ => Iff.rfl) (fun _ => rfl) ?_
  exact .branch (c := fun s => (decide (v - 1 < 1) && s.params.zeroCountIsCorrupt) = true) (fun _ => Iff.rfl)
    (fun _ => rfl) fun _ => rfl

theorem desToken_blind (htk : .tk ∈ k) (hbs : .bs ∈ k) (sch : Scheme) : Run.Blind k (desToken sch) :=
  readCode_blind hbs sch fun v => appendTK_blind htk [v - 1]

theorem packByte_blind (hbs : .bs ∈ k) (hob : .ob ∈ k) : Run.Blind k packByte :=
  .counted (f := fun b => appendOB [b]) (fun s => byteOfBits (paddedGroup s.bs s.obLen))
    (fun s => by rw [blot_bs hbs, blot_obLen hob]) fun _ => appendOB_blind hob _

theorem unpackByte_blind (hib : .ib ∈ k) (hbs : .bs ∈ k) : Run.Blind k unpackByte := by
  intro s
  have hnext : (blot k s).ib[(blot k s).ip]? = s.ib[s.ip]? := by rw [blot_ib hib, blot_ip]
  unfold unpackByte
  rw [hnext]
  cases s.ib[s.ip]? with
  | none => rfl
  | some b => exact appendBS_blind hbs (byteBits b) { s with ip := s.ip + 1 }

theorem udecNumber_blind (hbs : .bs ∈ k) (hn : .n ∈ k) (sch : Scheme) : Run.Blind k (udecNumber sch) :=
  readCode_blind hbs sch fun v s => by simp [Run.map, blot, hn]

/-! ## The phases -/

/-- The buffers, or `N`, that a phase reads or appends to. -/
def Phase.buffers : Phase → List Field
  | .idle => []
  | .lzwe => [.ib, .tk]
  | .lzwd => [.tk, .ob]
  | .ser => [.tk, .bs]
  | .des => [.bs, .tk]
  | .pack => [.bs, .ob]
  | .unpack => [.ib, .bs]
  | .uenc => [.n, .bs]
  | .udec => [.bs, .n]

/-- An opening reads the build alone. -/
theorem enterPhase_blind (ph : Phase) : Run.Blind k (enterPhase ph) := by
  cases ph with
  | idle => exact .done
  | lzwe =>
    have hlast : Run.Blind k fun s => .ok { s with w := [], ip := 0 } := fun _ => rfl
    exact (initDict_blind.seq hlast).after (u := fun s => { s with phase := .lzwe, tk := [] }) fun s => by simp [blot]
  | lzwd =>
    have hlast : Run.Blind k fun s => .ok { s with tp := 0 } := fun _ => rfl
    exact (initDict_blind.seq hlast).after (u := fun s => { s with phase := .lzwd, ob := [] }) fun s => by simp [blot]
  | ser | des | pack | unpack | uenc | udec =>
    intro s
    simp [enterPhase, enterSer, enterDes, enterPack, enterUnpack, enterUenc, enterUdec, Run.map, blot]

theorem phaseWork_blind (sch : Scheme) {ph : Phase} (h : ph.buffers ⊆ k) : Run.Blind k (phaseWork sch ph) := by
  cases ph with
  | idle => exact .done
  | lzwe =>
    have hib : .ib ∈ k := h (by decide)
    have htk : .tk ∈ k := h (by decide)
    exact (Run.Blind.counted (fun s => s.ibLen - s.ip) (fun s => by rw [blot_ibLen hib, blot_ip])
      (lzweByte_blind hib htk).loop).seq (lzweFlush_blind htk)
  | lzwd =>
    have htk : .tk ∈ k := h (by decide)
    have hob : .ob ∈ k := h (by decide)
    exact Run.Blind.counted (f := fun m s => (lzwdFirst s).bind (Run.times m lzwdNext))
      (fun s => s.tkLen - 1) (fun s => by rw [blot_tkLen htk])
      fun m => (lzwdFirst_blind htk hob).seq ((lzwdNext_blind htk hob).loop m)
  | ser =>
    have htk : .tk ∈ k := h (by decide)
    have hbs : .bs ∈ k := h (by decide)
    exact Run.Blind.counted (f := fun m s => (appendCode sch (m + 1) s).bind (Run.times m (serToken sch)))
      State.tkLen (blot_tkLen htk) fun m => (appendCode_blind hbs sch _).seq ((serToken_blind htk hbs sch).loop m)
  | des =>
    have hbs : .bs ∈ k := h (by decide)
    have htk : .tk ∈ k := h (by decide)
    exact (desHeader_blind hbs sch).seq (Run.Blind.counted State.cnt (fun _ => rfl) (desToken_blind htk hbs sch).loop)
  | pack =>
    have hbs : .bs ∈ k := h (by decide)
    have hob : .ob ∈ k := h (by decide)
    exact Run.Blind.counted (fun s => packedLen s.bsLen - s.obLen) (fun s => by rw [blot_bsLen hbs, blot_obLen hob])
      (packByte_blind hbs hob).loop
  | unpack =>
    have hib : .ib ∈ k := h (by decide)
    have hbs : .bs ∈ k := h (by decide)
    exact Run.Blind.counted (fun s => s.ibLen - s.ip) (fun s => by rw [blot_ibLen hib, blot_ip])
      (unpackByte_blind hib hbs).loop
  | uenc =>
    have hn : .n ∈ k := h (by decide)
    have hbs : .bs ∈ k := h (by decide)
    exact Run.Blind.counted State.n (blot_n hn) (appendCode_blind hbs sch)
  | udec => exact udecNumber_blind (h (by decide)) (h (by decide)) sch

/-! ## The rules -/

variable {i : Instr} {s s' : State}

theorem wholePhase_blind (sch : Scheme) {ph : Phase} (h : ph.buffers ⊆ k) :
    Run.Blind k fun s => (enterPhase ph s).bind (phaseWork sch ph) :=
  (enterPhase_blind ph).seq (phaseWork_blind sch h)

theorem serRule_blind (sch : Scheme) (h : [.tk, .bs, .ob] ⊆ k) : Run.Blind k (serRule sch) :=
  (wholePhase_blind sch (ph := .ser) (List.Subset.trans (by decide) h)).seq
    (wholePhase_blind sch (ph := .pack) (List.Subset.trans (by decide) h))

theorem desRule_blind (sch : Scheme) (h : [.ib, .bs, .tk] ⊆ k) : Run.Blind k (desRule sch) :=
  (wholePhase_blind sch (ph := .unpack) (List.Subset.trans (by decide) h)).seq
    (wholePhase_blind sch (ph := .des) (List.Subset.trans (by decide) h))

theorem compressRule_blind (sch : Scheme) (h : [.ib, .tk, .bs, .ob] ⊆ k) : Run.Blind k (compressRule sch) := by
  have hib : .ib ∈ k := h (by decide)
  refine .branch (fun s => by rw [blot_ib hib]) (fun _ => rfl) ?_
  exact (wholePhase_blind sch (ph := .lzwe) (List.Subset.trans (by decide) h)).seq
    (serRule_blind sch (List.Subset.trans (by decide) h))

theorem decompressRule_blind (sch : Scheme) (h : [.ib, .tk, .bs, .ob] ⊆ k) : Run.Blind k (decompressRule sch) := by
  have hib : .ib ∈ k := h (by decide)
  refine .branch (fun s => by rw [blot_ib hib]) .done ?_
  exact (desRule_blind sch (List.Subset.trans (by decide) h)).seq
    (wholePhase_blind sch (ph := .lzwd) (List.Subset.trans (by decide) h))

/-- The buffers, or `N`, that a command reads or writes (20_memory.md R65). -/
def commandBuffers (i : Instr) : List Field := (phasesOf i).flatMap Phase.buffers

theorem ruleOf_blind (i : Instr) : Run.Blind (commandBuffers i) (ruleOf i) := by
  cases i with
  | compressG | compressD | compressO | compressF => exact compressRule_blind _ (by decide)
  | decompressG | decompressD | decompressO | decompressF => exact decompressRule_blind _ (by decide)
  | lzwe => exact wholePhase_blind .gamma (ph := .lzwe) (by decide)
  | lzwd => exact wholePhase_blind .gamma (ph := .lzwd) (by decide)
  | serG | serD | serO | serF => exact serRule_blind _ (by decide)
  | desG | desD | desO | desF => exact desRule_blind _ (by decide)
  | uencG | uencD | uencO | uencF => exact wholePhase_blind _ (ph := .uenc) (by decide)
  | udecG | udecD | udecO | udecF => exact wholePhase_blind _ (ph := .udec) (by decide)
  | pack => exact wholePhase_blind .gamma (ph := .pack) (by decide)
  | unpack => exact wholePhase_blind .gamma (ph := .unpack) (by decide)

/-! ## From the input to the output -/

/-- `s` with `PHASE`, and with `N` in `UDEC.s`, at its reset value: a run of `i` writes them without reading them, and
`beginCommand` does not clear them. -/
def hideUnread (i : Instr) (s : State) : State :=
  { s with
    phase := .idle
    n := if .n ∈ writeSet i then 0 else s.n }

/-- `beginCommand` makes the rest fresh or clears it, so that only the input is left. -/
theorem blot_beginCommand (h : SameInput i s s') :
    blot (commandBuffers i) (hideUnread i (beginCommand i s)) =
      blot (commandBuffers i) (hideUnread i (beginCommand i s')) := by
  obtain ⟨hparams, hin⟩ := h
  cases i <;> simp [blot, hideUnread, commandBuffers, phasesOf, Phase.buffers, writeSet, hparams, hin]

theorem finishRun_udecPhase (sch : Scheme) (s : State) :
    finishRun [.n, .bp] (udecPhase sch { s with phase := .idle, n := 0 }) =
      finishRun [.n, .bp] (udecPhase sch s) := by
  simp only [udecPhase, enterUdec, Run.bind_ok, udecNumber, readCode]
  cases dec s.params.tokenW sch s.bs s.bp with
  | error e => rfl
  | ok vp => cases sch <;> rfl

theorem finishRun_compressRule (sch : Scheme) (ws : List Dest) (s : State) :
    finishRun ws (compressRule sch { s with phase := .idle }) = finishRun ws (compressRule sch s) := by
  unfold compressRule
  rw [apply_ite (finishRun ws), apply_ite (finishRun ws)]
  rfl

theorem finishRun_decompressRule (sch : Scheme) (ws : List Dest) (s : State) :
    finishRun ws (decompressRule sch { s with phase := .idle }) = finishRun ws (decompressRule sch s) := by
  unfold decompressRule
  rw [apply_ite (finishRun ws), apply_ite (finishRun ws)]
  rfl

/-- `PHASE` is written by the first opening or by the end of the run, `N` by the end of `UDEC.s`. -/
theorem finishRun_hideUnread (i : Instr) (s : State) :
    finishRun (writeSet i) (ruleOf i (hideUnread i s)) = finishRun (writeSet i) (ruleOf i s) := by
  cases i with
  | compressG | compressD | compressO | compressF => exact finishRun_compressRule _ _ s
  | decompressG | decompressD | decompressO | decompressF => exact finishRun_decompressRule _ _ s
  | udecG | udecD | udecO | udecF => exact finishRun_udecPhase _ s
  | lzwe | lzwd | serG | serD | serO | serF | desG | desD | desO | desF | uencG | uencD | uencO | uencF
  | pack | unpack => rfl

theorem mem_commandBuffers : (Dest.ob ∈ writeSet i → Field.ob ∈ commandBuffers i) ∧
    (Dest.tk ∈ writeSet i → Field.tk ∈ commandBuffers i) ∧ (Dest.bs ∈ writeSet i → Field.bs ∈ commandBuffers i) ∧
    (Dest.n ∈ writeSet i → Field.n ∈ commandBuffers i) := by
  cases i <;> decide

theorem sameOutput_of_blot {t t' : State} (h : blot (commandBuffers i) t = blot (commandBuffers i) t') :
    SameOutput i t t' := by
  obtain ⟨hob, htk, hbs, hn⟩ := mem_commandBuffers (i := i)
  refine ⟨?_, ?_, ?_, ?_, fun hw => ?_, fun hw => ?_, fun hw => ?_, fun hw => ?_⟩
  · simpa only [blot_cmd] using congrArg State.cmd h
  · simpa only [blot_status] using congrArg State.status h
  · simpa only [blot_bp] using congrArg State.bp h
  · simpa only [blot_dict] using congrArg State.dict h
  · simpa only [blot_ob (hob hw)] using congrArg State.ob h
  · simpa only [blot_tk (htk hw)] using congrArg State.tk h
  · simpa only [blot_bs (hbs hw)] using congrArg State.bs h
  · simpa only [blot_n (hn hw)] using congrArg State.n h

theorem sameOutput_finishRun {r r' : Run} (h : r.map (blot (commandBuffers i)) = r'.map (blot (commandBuffers i))) :
    SameOutput i (finishRun (writeSet i) r) (finishRun (writeSet i) r') := by
  cases r with
  | ok t =>
    cases r' with
    | raised e' t' => cases h
    | ok t' =>
      obtain ⟨hcmd, hstatus, houtputs⟩ := sameOutput_of_blot (Run.ok.inj h)
      exact ⟨hcmd, congrArg statusEnded hstatus, houtputs⟩
  | raised e t =>
    cases r' with
    | ok t' => cases h
    | raised e' t' =>
      obtain ⟨rfl, ht⟩ := Run.raised.inj h
      obtain ⟨hcmd, -⟩ := sameOutput_of_blot ht
      exact ⟨hcmd, rfl, rfl, rfl, fun hw => by simp [finishRun, hw], fun hw => by simp [finishRun, hw],
        fun hw => by simp [finishRun, hw], fun hw => by simp [finishRun, hw]⟩

/-- Settles O20: two runs that begin alike up to what the command's rule does not read end alike. -/
theorem resultDependsOnInputAlone : Obligations.ResultDependsOnInputAlone := by
  intro i s s' h
  refine ⟨_, _, exec_eq_runCommand i s, exec_eq_runCommand i s', ?_⟩
  rw [← finishRun_hideUnread i (beginCommand i s), ← finishRun_hideUnread i (beginCommand i s')]
  apply sameOutput_finishRun
  rw [← ruleOf_blind i, ← ruleOf_blind i, blot_beginCommand h]

end Sys2Proof.Machine
end

section
/-! SUPPORT. The reset state and the host's access to the registers (10_state.md R22, R40). -/

namespace Sys2Proof.Machine

open Sys2Proof.Claims

/-- Settles O7: every value is `State.reset`'s own, and the engine of an idle state without a host move does nothing. -/
theorem resetStateValues : Obligations.ResetStateValues := by
  have hstep : step State.reset = .next State.reset := rfl
  exact ⟨hstep, by decide⟩

/-- Settles O12: a write of `CMD` is `START`, and each of the read-only registers has its arm in `hostSet`. -/
theorem registerWritesByAccessColumn : Obligations.RegisterWritesByAccessColumn := by
  intro s rest v
  refine ⟨rfl, fun r hr => ?_⟩
  cases r with
  | cmd | n => exact absurd hr (by decide)
  | status | ibLen | obLen | tkLen | bsLen | bp | nc => rfl

/-- Settles O55: empty buffers and a 0 in `N` are within every build, and reset leaves no more. -/
theorem resetIsWithinTheBuild : Obligations.ResetIsWithinTheBuild :=
  hostReset_wf State.reset

end Sys2Proof.Machine
end

section
/-! SUPPORT. The command words (30_encoding.md R91 to R98): a word that decodes holds the fields of its command, so that
it is the word `encode` makes. -/

namespace Sys2Proof

open Sys2Proof.Machine Sys2Proof.Claims

@[simp] theorem Scheme.bits_ofBits (b : BitVec 2) : (Scheme.ofBits b).bits = b := by
  revert b
  decide

/-- The command of an operation that takes a scheme carries the operation and the `SCHEME` field. -/
theorem fields_of_bySchemeOf {op : BitVec 4} {scheme : BitVec 2} {g d o f i : Instr}
    (h : .ok (bySchemeOf (Scheme.ofBits scheme) g d o f) = Except.ok (ε := IllegalWord) i)
    (hg : g.fields = schemeFields op .gamma) (hd : d.fields = schemeFields op .delta)
    (ho : o.fields = schemeFields op .omega) (hf : f.fields = schemeFields op .fibonacci) :
    i.fields = ⟨op, 0, scheme⟩ := by
  have hsel (s : Scheme) : (bySchemeOf s g d o f).fields = schemeFields op s := by
    cases s with
    | gamma => exact hg
    | delta => exact hd
    | omega => exact ho
    | fibonacci => exact hf
  cases h
  rw [hsel, schemeFields, Scheme.bits_ofBits]

/-- The command of an operation that takes no scheme carries the operation, and `SCHEME` is 0. -/
theorem fields_of_withoutScheme {op : BitVec 4} {scheme : BitVec 2} {i j : Instr}
    (h : withoutScheme ⟨op, 0, scheme⟩ j = .ok i) (hj : j.fields = plainFields op) : i.fields = ⟨op, 0, scheme⟩ := by
  unfold withoutScheme at h
  split at h
  · rename_i hscheme
    obtain rfl : scheme = 0 := hscheme
    cases h
    exact hj
  · cases h

/-- Fields that decode are those of the command they decode to. -/
theorem fields_of_decodeFields {f : Fields} {i : Instr} (h : decodeFields f = .ok i) : i.fields = f := by
  obtain ⟨op, rsv, scheme⟩ := f
  unfold decodeFields at h
  split at h
  · cases h
  · rename_i hrsv
    obtain rfl : rsv = 0 := by simpa using hrsv
    have opIs {n : BitVec 4} (hn : op.toNat = n.toNat) : n = op := (BitVec.eq_of_toNat_eq hn).symm
    simp only at h
    split at h
    case h_1 hop => obtain rfl := opIs (n := 1) hop; exact fields_of_bySchemeOf h rfl rfl rfl rfl
    case h_2 hop => obtain rfl := opIs (n := 2) hop; exact fields_of_bySchemeOf h rfl rfl rfl rfl
    case h_3 hop => obtain rfl := opIs (n := 3) hop; exact fields_of_withoutScheme h rfl
    case h_4 hop => obtain rfl := opIs (n := 4) hop; exact fields_of_withoutScheme h rfl
    case h_5 hop => obtain rfl := opIs (n := 5) hop; exact fields_of_bySchemeOf h rfl rfl rfl rfl
    case h_6 hop => obtain rfl := opIs (n := 6) hop; exact fields_of_bySchemeOf h rfl rfl rfl rfl
    case h_7 hop => obtain rfl := opIs (n := 7) hop; exact fields_of_bySchemeOf h rfl rfl rfl rfl
    case h_8 hop => obtain rfl := opIs (n := 8) hop; exact fields_of_bySchemeOf h rfl rfl rfl rfl
    case h_9 hop => obtain rfl := opIs (n := 9) hop; exact fields_of_withoutScheme h rfl
    case h_10 hop => obtain rfl := opIs (n := 10) hop; exact fields_of_withoutScheme h rfl
    case h_11 => cases h

/-- The three fields make up the word (30_encoding.md R91). -/
theorem Fields.toWord_ofWord (c : Word8) : (Fields.ofWord c).toWord = c := by
  have hhigh : c.extractLsb' 4 4 ++ c.extractLsb' 2 2 = c.extractLsb' 2 6 :=
    BitVec.extractLsb'_append_extractLsb'_eq_extractLsb' rfl
  have hlow : c.extractLsb' 2 6 ++ c.extractLsb' 0 2 = c.extractLsb' 0 8 :=
    BitVec.extractLsb'_append_extractLsb'_eq_extractLsb' rfl
  rw [toWord, ofWord, hhigh]
  exact hlow.trans BitVec.extractLsb'_eq_self

/-- A word that decodes to a command is the command's word. -/
theorem encode_of_decode {c : Word8} {i : Instr} (h : decode c = .ok i) : encode i = c := by
  rw [encode, fields_of_decodeFields h, Fields.toWord_ofWord]

/-- Settles O3: `decode` finds the fields `encode` wrote, and a word that decodes holds no others. -/
theorem decodeEncodeInverse : Obligations.DecodeEncodeInverse :=
  ⟨decode_encode, fun _ _ => encode_of_decode⟩

theorem encode_mem_commandTable (i : Instr) : (encode i, i) ∈ commandTable := by
  cases i <;> decide

/-- Settles O1: the table is finite, and a word that decodes is the word of a command, all of which are in the table. -/
theorem twentyEightWordsDecode : Obligations.TwentyEightWordsDecode := by
  refine ⟨rfl, by decide, fun c i h => ?_⟩
  rw [← encode_of_decode h]
  exact encode_mem_commandTable i

/-- The fields of a command pass the tests of 30_encoding.md R98. -/
theorem instrFields_legal (i : Instr) : i.fields.rsv = 0 ∧
    (i.fields.op ∈ [1, 2, 5, 6, 7, 8] ∨ i.fields.op ∈ [3, 4, 9, 10] ∧ i.fields.scheme = 0) := by
  cases i <;> decide

/-- Which fields pass the tests of 30_encoding.md R98. -/
theorem decodeFields_legal_iff (f : Fields) : (∃ i, decodeFields f = .ok i) ↔
    f.rsv = 0 ∧ (f.op ∈ [1, 2, 5, 6, 7, 8] ∨ f.op ∈ [3, 4, 9, 10] ∧ f.scheme = 0) := by
  constructor
  · rintro ⟨i, h⟩
    exact fields_of_decodeFields h ▸ instrFields_legal i
  · obtain ⟨op, rsv, scheme⟩ := f
    rintro ⟨rfl, hop | ⟨hop, rfl⟩⟩
    · simp only [List.mem_cons, List.not_mem_nil, or_false] at hop
      obtain rfl | rfl | rfl | rfl | rfl | rfl := hop <;> exact ⟨_, rfl⟩
    · simp only [List.mem_cons, List.not_mem_nil, or_false] at hop
      obtain rfl | rfl | rfl | rfl := hop <;> exact ⟨_, rfl⟩

/-- Settles O2: `decode` makes exactly those tests on the word's fields. -/
theorem legalWordsAreThoseOfTheTests : Obligations.LegalWordsAreThoseOfTheTests :=
  fun c => decodeFields_legal_iff (Fields.ofWord c)

end Sys2Proof
end

section
/-! SUPPORT. `START` and `MOVE` by an idle engine (45_host_interface.md R243; 30_encoding.md R126). -/

namespace Sys2Proof.Machine

open Sys2Proof.Claims

/-- An idle engine with one step per run answers `START` of a legal word with the whole run. -/
theorem hostStart_legal {s : State} {c : Word8} {i : Instr} (hidle : s.busy = false) (hgrain : s.params.grain = .perRun)
    (hc : decode c = .ok i) : hostStart c s = exec i s := by
  simp [hostStart, hidle, hc, hgrain]

theorem decodeTableWord_eq_some {nbits w : Nat} {i : Instr} (h : decodeTableWord nbits w = some i) :
    decode (BitVec.ofNat 8 (w % 2 ^ nbits)) = .ok i := by
  unfold decodeTableWord at h
  split at h
  · cases h; assumption
  · cases h

theorem statusBusy_clearBusy (st : Word8) : statusBusy (clearBusy st) = false := by
  simp [statusBusy, clearBusy]

/-- Settles O6: the placed `START` is the next move, the engine is idle and has one step per run. -/
theorem placedWordRunsNext : Obligations.PlacedWordRunsNext := by
  intro s w i h
  exact hostStart_legal (s := { s with status := clearBusy s.status, params := { s.params with grain := .perRun } })
    (statusBusy_clearBusy s.status) rfl (decodeTableWord_eq_some h)

/-- `READ OB` by an idle engine gives the buffer. -/
theorem hostMoveObIb_idle {s : State} (hidle : s.busy = false) :
    hostMoveObIb s = hostLoadIB s.ob (hostRead .ob s) := by
  simp [hostMoveObIb, readResult, hidle, targetValue]

/-- Settles O14: the pending `LOAD IB` finds the engine idle in the state `READ OB` left. -/
theorem moveIsReadThenLoad : Obligations.MoveIsReadThenLoad := by
  intro s t rest hidle hread
  obtain rfl : hostRead .ob (afterMove (.loadIB s.ob :: rest) s) = t := by cases hread; rfl
  exact congrArg Host.Outcome.next (hostMoveObIb_idle (s := afterMove rest s) hidle)

end Sys2Proof.Machine
end

section
/-! SUPPORT. Whole runs that end normally, and the code words that `UENC.s` writes (30_encoding.md R100 to R104;
41_universal_codec.md R153 to R171). -/

namespace Sys2Proof.Machine

open Sys2Proof.Claims

/-! ## UENC.s in an unbounded build -/

/-- A rule that ends normally makes a run that does. -/
theorem exec_of_rule_ok {i : Instr} {s t : State} (h : ruleOf i (beginCommand i s) = .ok t) :
    exec i s = .next (endRun t) := by
  rw [exec_eq_runCommand, runCommand, h, finishRun]

/-- No phase writes `STATUS`, so that a run without an error ends with `0x02` (10_state.md R41). -/
theorem endRun_status_of_started {t : State} (h : t.status = statusStarted) : (endRun t).status = 0x02 := by
  rw [endRun_status, h]
  rfl

@[simp] theorem noteEncoded_params (sch : Scheme) (n : Nat) (s : State) : (noteEncoded sch n s).params = s.params := by
  cases sch <;> rfl

@[simp] theorem noteEncoded_status (sch : Scheme) (n : Nat) (s : State) : (noteEncoded sch n s).status = s.status := by
  cases sch <;> rfl

@[simp] theorem noteEncoded_n (sch : Scheme) (n : Nat) (s : State) : (noteEncoded sch n s).n = s.n := by
  cases sch <;> rfl

@[simp] theorem noteEncoded_bs (sch : Scheme) (n : Nat) (s : State) : (noteEncoded sch n s).bs = s.bs := by
  cases sch <;> rfl

theorem appendCode_unbounded {s : State} (h : s.params.Unbounded) (sch : Scheme) {n : Nat} (hn : 1 ≤ n) :
    appendCode sch n s = .ok { noteEncoded sch n s with bs := s.bs ++ codeWord sch n } := by
  obtain ⟨hw, -⟩ := id h
  have hnote : (noteEncoded sch n s).params.Unbounded := by rwa [noteEncoded_params]
  rw [appendCode, hw, enc_unbounded sch hn]
  exact (appendBS_unbounded hnote _).trans (by rw [noteEncoded_bs])

theorem ruleOf_uencOf (sch : Scheme) : ruleOf (uencOf sch) = uencPhase sch := by
  cases sch <;> rfl

/-- `UENC.s` of `N >= 1` writes the code word and nothing else that the host sees but `STATUS`. -/
theorem exec_uencOf_unbounded (sch : Scheme) {s : State} (h : s.params.Unbounded) (hn : 1 ≤ s.n) :
    ∃ t, exec (uencOf sch) s = .next t ∧ t.status = 0x02 ∧ t.n = s.n ∧ t.bs = codeWord sch s.n := by
  have hrule : uencPhase sch (beginCommand (uencOf sch) s) = .ok _ :=
    appendCode_unbounded (s := { beginCommand (uencOf sch) s with phase := .uenc, bs := [] }) h sch hn
  rw [← ruleOf_uencOf] at hrule
  exact ⟨_, exec_of_rule_ok hrule, endRun_status_of_started (noteEncoded_status _ _ _), noteEncoded_n _ _ _, rfl⟩

/-! ## Gamma and delta -/

theorem isBin_bin {n : Nat} (h : 1 ≤ n) : IsBin n (bin n) := ⟨val_bin n, bin_head h⟩

theorem isGamma_gammaWord {n : Nat} (h : 1 ≤ n) : IsGamma n (gammaWord n) :=
  ⟨bin n, isBin_bin h, by rw [gammaWord, zeros, bin_length]⟩

/-- Settles O24: the gamma code word is the layout. -/
theorem gammaLayout : Obligations.GammaLayout := by
  intro s h hn
  obtain ⟨t, ht, hst, htn, hbs⟩ := exec_uencOf_unbounded .gamma h hn
  exact ⟨t, ht, hst, htn, hbs ▸ isGamma_gammaWord hn⟩

/-- The delta code word's tail is `bin(n)` without its first bit. -/
theorem slice_bin_tail (n : Nat) : slice (bin n) 1 (blen n) = (bin n).tail := by
  rw [slice, List.drop_one, List.take_of_length_le (by simp)]

/-- Settles O25: the delta code word is the gamma code word of the bit length, then that tail. -/
theorem deltaLayout : Obligations.DeltaLayout := by
  intro s h hn
  obtain ⟨t, ht, hst, htn, hbs⟩ := exec_uencOf_unbounded .delta h hn
  refine ⟨t, bin s.n, gammaWord (blen s.n), ht, hst, htn, isBin_bin hn, ?_, ?_⟩
  · rw [bin_length]
    exact isGamma_gammaWord (blen_pos hn)
  · rw [hbs, codeWord, deltaWord, slice_bin_tail]

/-! ## Omega -/

/-- The groups are put before what is there. -/
theorem omegaGroups_append (fuel cur : Nat) (code : Bits) :
    omegaGroups fuel cur code = omegaGroups fuel cur [] ++ code := by
  induction fuel generalizing cur code with
  | zero => rfl
  | succ fuel ih =>
    simp only [omegaGroups]
    split
    · rfl
    · rw [ih, ih _ (bin cur ++ [])]
      simp

theorem two_le_blen {n : Nat} (h : 2 ≤ n) : 2 ≤ blen n := by
  by_contra hlt
  have hpow := Nat.pow_le_pow_right (show 1 ≤ 2 by omega) (show blen n ≤ 1 by omega)
  have := (blen_spec (show 1 ≤ n by omega)).2
  omega

/-- Two fuels that suffice write the same groups, for `cur` falls at every turn. -/
theorem omegaGroups_fuel {fuel fuel' cur : Nat} (hpos : 1 ≤ cur) (hfuel : cur ≤ fuel) (hfuel' : cur ≤ fuel')
    (code : Bits) : omegaGroups fuel cur code = omegaGroups fuel' cur code := by
  induction fuel generalizing fuel' cur code with
  | zero => omega
  | succ fuel ih =>
    obtain ⟨fuel', rfl⟩ := Nat.exists_eq_add_of_le' (hpos.trans hfuel')
    simp only [omegaGroups]
    split
    · rfl
    · have hlen := two_le_blen (show 2 ≤ cur by omega)
      have hfall := blen_lt (show 2 ≤ cur by omega)
      exact ih (by omega) (by omega) (by omega) _

/-- The omega code word of `n`: the groups of `L - 1`, then the group of `n` and the stop bit. -/
theorem omegaWord_of_two_le {n : Nat} (h : 2 ≤ n) :
    omegaWord n = omegaGroups (blen n - 1) (blen n - 1) [] ++ bin n ++ [false] := by
  have hlen := two_le_blen h
  have hfall := blen_lt h
  obtain ⟨fuel, rfl⟩ := Nat.exists_eq_add_of_le' (show 1 ≤ n by omega)
  rw [omegaWord, omegaGroups, if_neg (by omega), List.append_nil, omegaGroups_append,
    omegaGroups_fuel (by omega) (by omega) le_rfl]

/-- Settles O26: one turn of the omega loop. -/
theorem omegaLayout : Obligations.OmegaLayout := by
  intro s h
  refine ⟨fun hone => ?_, fun htwo => ?_⟩
  · obtain ⟨t, ht, hst, htn, hbs⟩ := exec_uencOf_unbounded .omega h hone.ge
    rw [hone] at htn hbs
    exact ⟨t, ht, hst, htn, hbs⟩
  · have hlen := two_le_blen htwo
    obtain ⟨t, ht, hst, htn, hbs⟩ := exec_uencOf_unbounded .omega h (show 1 ≤ s.n by omega)
    obtain ⟨u, hu, -, -, hubs⟩ :=
      exec_uencOf_unbounded .omega (s := { s with n := blen s.n - 1 }) h (show 1 ≤ blen s.n - 1 by omega)
    refine ⟨t, u, bin s.n, omegaGroups (blen s.n - 1) (blen s.n - 1) [], ht, hst, htn, isBin_bin (by omega), ?_, hubs,
      ?_⟩
    · rwa [bin_length]
    · rw [hbs, codeWord, omegaWord_of_two_le htwo]

/-! ## Fibonacci -/

/-- What the digits `d` denote, `d[k]` standing for `F(k + 1)` (30_encoding.md R103). -/
def fibSum (d : Bits) : Nat := ((List.range d.length).map fun k => if d.getD k false then fibF (k + 1) else 0).sum

theorem fibSum_concat (d : Bits) (b : Bool) :
    fibSum (d ++ [b]) = fibSum d + if b then fibF (d.length + 1) else 0 := by
  have hsame : ∀ k ∈ List.range d.length, (if (d ++ [b]).getD k false then fibF (k + 1) else 0) =
      if d.getD k false then fibF (k + 1) else 0 := by
    intro k hk
    rw [List.getD_append _ _ _ _ (List.mem_range.1 hk)]
  simp only [fibSum, List.length_append, List.length_singleton, List.range_succ, List.map_append, List.sum_append,
    List.map_congr_left hsame]
  simp

/-- The greedy choice below `F(m + 2)`: whether `F(m + 1)` is taken or not, less than `F(m + 1)` is left, and where it
is taken less than `F(m)`. -/
theorem fibDigits_succ {m r : Nat} (h : r < fibF (m + 2)) : ∃ rest b, fibDigits (m + 1) r = fibDigits m rest ++ [b] ∧
    r = rest + (if b then fibF (m + 1) else 0) ∧ rest < fibF (m + 1) ∧ (b = true → rest < fibF m) := by
  rw [fibF_add_two] at h
  have hle := fibF_le_succ m
  by_cases htake : fibF (m + 1) ≤ r
  · refine ⟨r - fibF (m + 1), true, if_pos htake, ?_, by omega, fun _ => by omega⟩
    rw [if_pos rfl]
    omega
  · exact ⟨r, false, if_neg htake, rfl, by omega, by simp⟩

/-- The greedy digits denote every number below `F(m + 1)`. -/
theorem fibSum_fibDigits {m r : Nat} (h : r < fibF (m + 1)) : fibSum (fibDigits m r) = r := by
  induction m generalizing r with
  | zero =>
    obtain rfl : r = 0 := by simpa using h
    rfl
  | succ m ih =>
    obtain ⟨rest, b, hdigits, hr, hrest, -⟩ := fibDigits_succ h
    rw [hdigits, fibSum_concat, ih hrest, fibDigits_length, hr]

/-- The digit of a Fibonacci number that is too large is 0. -/
theorem fibDigits_getD_last {m r : Nat} (h : r < fibF (m + 1)) : (fibDigits (m + 1) r).getD m false = false := by
  rw [fibDigits, if_neg (by omega), List.getD_append_right _ _ _ _ (by simp)]
  simp

/-- No two neighbours among the greedy digits are 1: where `F(m + 1)` is taken, too little is left for `F(m)`. -/
theorem fibDigits_isolated {m r : Nat} (h : r < fibF (m + 1)) (k : Nat) :
    ¬((fibDigits m r).getD k false = true ∧ (fibDigits m r).getD (k + 1) false = true) := by
  induction m generalizing r with
  | zero => simp [fibDigits]
  | succ m ih =>
    obtain ⟨rest, b, hdigits, -, hrest, htaken⟩ := fibDigits_succ h
    rw [hdigits]
    rintro ⟨hk, hk'⟩
    obtain hlt | rfl | hgt := lt_trichotomy (k + 1) m
    · rw [List.getD_append _ _ _ _ (by simp; omega)] at hk hk'
      exact ih hrest ⟨hk, hk'⟩
    · obtain rfl : b = true := by simpa using hk'
      rw [List.getD_append _ _ _ _ (by simp), fibDigits_getD_last (htaken rfl)] at hk
      cases hk
    · rw [List.getD_eq_default _ _ (by simp; omega)] at hk'
      cases hk'

/-- The largest Fibonacci number that is at most `n` is taken. -/
theorem fibDigits_fibTop {n : Nat} (h : 1 ≤ n) : ∃ d, fibDigits (fibTop n) n = d ++ [true] := by
  obtain ⟨htop, hlt⟩ := fibTop_spec h
  cases hm : fibTop n with
  | zero =>
    rw [hm, zero_add, fibF_one] at hlt
    omega
  | succ m => exact ⟨_, if_pos (hm ▸ htop)⟩

/-- Settles O27: with `F(m) <= n < F(m + 1)` the greedy digits of `n` are its Zeckendorf digits. -/
theorem fibonacciLayout : Obligations.FibonacciLayout := by
  refine ⟨⟨rfl, rfl, fun k => fibF_add_two (k + 1)⟩, fun s h hn => ?_⟩
  obtain ⟨t, ht, hst, htn, hbs⟩ := exec_uencOf_unbounded .fibonacci h hn
  obtain ⟨-, hlt⟩ := fibTop_spec hn
  exact ⟨t, _, ht, hst, htn, ⟨fibSum_fibDigits hlt, fibDigits_fibTop hn, fibDigits_isolated hlt⟩, hbs⟩

end Sys2Proof.Machine
end

section
/-! SUPPORT. What `PACK` and `SER.s` write when no limit is in their way (42_bit_byte_packer.md R191;
43_stream_assembler.md R201). -/

namespace Sys2Proof.Machine

open Sys2Proof.Claims

variable {s : State}

/-! ## PACK -/

/-- `OB` after `PACK`. -/
def packBytes (bs : Bits) : List Byte := (List.range (packedLen bs.length)).map fun j => byteOfBits (paddedGroup bs j)

theorem appendOB_of_noLimit (hcap : s.params.obCap = none) (hlen : s.params.lenW = none) (v : List Byte) :
    appendOB v s = .ok { s with ob := s.ob ++ v } := by
  simp [appendOB, hcap, hlen]

/-- The loop of `PACK` goes on where `OB` ends. -/
theorem times_packByte (hcap : s.params.obCap = none) (hlen : s.params.lenW = none) (k : Nat) :
    Run.times k packByte s =
      .ok { s with ob := s.ob ++ (List.range' s.ob.length k).map fun j => byteOfBits (paddedGroup s.bs j) } := by
  induction k generalizing s with
  | zero => simp
  | succ k ih =>
    rw [Run.times_succ, packByte, appendOB_of_noLimit hcap hlen, Run.bind_ok]
    have hrest := ih (s := { s with ob := s.ob ++ [byteOfBits (paddedGroup s.bs s.obLen)] }) hcap hlen
    simpa [List.range'_succ, State.obLen] using hrest

theorem packPhase_of_noLimit (hcap : s.params.obCap = none) (hlen : s.params.lenW = none) :
    packPhase s = .ok { s with phase := .pack, ob := packBytes s.bs } := by
  have hloop := times_packByte (s := { s with phase := .pack, ob := [] }) hcap hlen (packedLen s.bs.length)
  rw [packPhase, enterPack, Run.bind_ok, packWork]
  simpa [State.bsLen, State.obLen, packBytes, List.range_eq_range'] using hloop

/-! ## SER.s -/

@[simp] theorem noteEncoded_tk (sch : Scheme) (n : Nat) (s : State) : (noteEncoded sch n s).tk = s.tk := by
  cases sch <;> rfl

@[simp] theorem noteEncoded_tp (sch : Scheme) (n : Nat) (s : State) : (noteEncoded sch n s).tp = s.tp := by
  cases sch <;> rfl

theorem serToken_unbounded (sch : Scheme) (h : s.params.Unbounded) {x : Token} (hx : s.tk[s.tp]? = some x) :
    serToken sch s =
      .ok { noteEncoded sch (x + 1) { s with tp := s.tp + 1 } with bs := s.bs ++ codeWord sch (x + 1) } := by
  rw [serToken, hx]
  exact appendCode_unbounded (s := { s with tp := s.tp + 1 }) h sch (Nat.le_add_left 1 x)

/-- The loop of `SER.s` writes the code words of the tokens from `TP` on. -/
theorem times_serToken (sch : Scheme) (h : s.params.Unbounded) {tokens : List Token} (htk : s.tk.drop s.tp = tokens) :
    ∃ t, Run.times tokens.length (serToken sch) s = .ok t ∧ t.params = s.params ∧
      t.bs = s.bs ++ (tokens.map fun x => codeWord sch (x + 1)).flatten := by
  induction tokens generalizing s with
  | nil => exact ⟨s, rfl, rfl, by simp⟩
  | cons x tokens ih =>
    have hx : s.tk[s.tp]? = some x := by rw [← List.head?_drop, htk]; rfl
    have hrest : s.tk.drop (s.tp + 1) = tokens := by rw [← List.tail_drop, htk]; rfl
    rw [List.length_cons, Run.times_succ, serToken_unbounded sch h hx, Run.bind_ok]
    obtain ⟨t, ht, hparams, hbs⟩ := ih (s := { noteEncoded sch (x + 1) { s with tp := s.tp + 1 } with
      bs := s.bs ++ codeWord sch (x + 1) }) (by simpa using h) (by simpa using hrest)
    exact ⟨t, ht, by simpa using hparams, by simpa using hbs⟩

/-- The header and the loop write the stream of `TK`. -/
theorem serWork_unbounded (sch : Scheme) (h : s.params.Unbounded) (htp : s.tp = 0) :
    ∃ t, serWork sch s = .ok t ∧ t.params = s.params ∧ t.bs = s.bs ++ streamBits sch s.tk := by
  have hheader : serHeader sch s = .ok { noteEncoded sch (s.tk.length + 1) s with
      bs := s.bs ++ codeWord sch (s.tk.length + 1) } := appendCode_unbounded h sch (Nat.le_add_left 1 s.tk.length)
  rw [serWork, hheader, Run.bind_ok]
  obtain ⟨t, ht, hparams, hbs⟩ := times_serToken sch (tokens := s.tk) (s := { noteEncoded sch (s.tk.length + 1) s with
    bs := s.bs ++ codeWord sch (s.tk.length + 1) }) (by simpa using h) (by simp [htp])
  exact ⟨t, ht, by simpa using hparams, by simpa [streamBits] using hbs⟩

/-- `SER.s` writes the stream of `TK` and its packing. -/
theorem serRule_unbounded (sch : Scheme) (h : s.params.Unbounded) : ∃ t, serRule sch s = .ok t ∧
    t.bs = streamBits sch s.tk ∧ t.ob = packBytes t.bs := by
  obtain ⟨t, ht, hparams, hbs⟩ :=
    serWork_unbounded sch (s := { s with phase := .ser, bs := [], ob := [], tp := 0 }) h rfl
  obtain ⟨-, hlen, -, -, -, hcap, -⟩ : t.params.Unbounded := hparams ▸ h
  rw [serRule, serPhase, enterSer, Run.bind_ok, ht, Run.bind_ok, packPhase_of_noLimit hcap hlen]
  exact ⟨_, rfl, hbs, rfl⟩

end Sys2Proof.Machine
end

section
/-! SUPPORT. One piece of a run from two states: when it ends normally from the first, it does so from the second, and
the two ends are related as the starts are. The pieces of the engine are followed through states that agree on the
fields a phase reads or writes (10_state.md R31; 40_lzw_engine.md R133, R139). -/

namespace Sys2Proof.Machine

/-- The two states have the same in each of the fields `k`. -/
def Agree (k : List Field) (s s' : State) : Prop := ∀ f ∈ k, f.Same s s'

/-- `r'` ends normally whenever `r` does, in a state that `R` relates to where `r` ends. -/
abbrev Run.Follows (R : State → State → Prop) (r r' : Run) : Prop := r.Ensures fun t => ∃ t', r' = .ok t' ∧ R t t'

section

variable {R Q : State → State → Prop} {r r' : Run} {f f' : State → Run} {s s' t t' : State} {k : List Field}

theorem Run.Follows.ok (h : R s s') : Run.Follows R (.ok s) (.ok s') := ⟨s', rfl, h⟩

theorem Run.Follows.bind (h : Run.Follows R r r') (hf : ∀ t t', R t t' → Run.Follows Q (f t) (f' t')) :
    Run.Follows Q (r.bind f) (r'.bind f') := by
  cases r with
  | raised e t => trivial
  | ok t =>
    obtain ⟨t', rfl, ht⟩ := h
    exact hf t t' ht

theorem Run.Follows.times (hf : ∀ t t', R t t' → Run.Follows R (f t) (f t')) (m : Nat) (h : R s s') :
    Run.Follows R (Run.times m f s) (Run.times m f s') := by
  induction m generalizing s s' with
  | zero => exact .ok h
  | succ m ih => exact Run.Follows.bind (hf s s' h) fun _ _ => ih

/-! ## The shared operations -/

theorem appendOB_follows {v : List Byte} (hob : s'.ob = s.ob) (hp : s'.params = s.params)
    (ok : R { s with ob := s.ob ++ v } { s' with ob := s'.ob ++ v }) :
    Run.Follows R (appendOB v s) (appendOB v s') := by
  unfold appendOB State.obLen
  simp only [hob, hp] at ok ⊢
  split
  · exact .ok ok
  · trivial

theorem appendTK_follows {v : List Token} (htk : s'.tk = s.tk) (hp : s'.params = s.params)
    (ok : R { s with tk := s.tk ++ v } { s' with tk := s'.tk ++ v }) :
    Run.Follows R (appendTK v s) (appendTK v s') := by
  unfold appendTK State.tkLen
  simp only [htk, hp] at ok ⊢
  split
  · exact .ok ok
  · trivial

theorem initDict_follows (hp : s'.params = s.params) (ok : R { s with dict := seedDict } { s' with dict := seedDict }) :
    Run.Follows R (initDict s) (initDict s') := by
  unfold initDict
  simp only [hp] at ok ⊢
  split
  · exact .ok ok
  · trivial

theorem insertPhrase_follows {p : Phrase} (hd : s'.dict = s.dict) (hp : s'.params = s.params)
    (ok : R { s with dict := s.dict ++ [p] } { s' with dict := s'.dict ++ [p] }) :
    Run.Follows R (insertPhrase p s) (insertPhrase p s') := by
  unfold insertPhrase State.nc
  simp only [hd, hp] at ok ⊢
  split
  · exact .ok ok
  · trivial

/-- After an update on both sides, written out, the agreement is seen field by field. -/
theorem Agree.update {k' : List Field} (h : Agree k s s')
    (hu : ∀ f, f ∈ k' → (f ∈ k → f.Same s s') → f.Same t t' := by
      (intro f hf h; cases f <;> simp_all [Field.Same])) : Agree k' t t' :=
  fun f hf => hu f hf (h f)

end

/-! ## LZWE -/

/-- What `LZWE` reads or writes, and `STATUS`. -/
abbrev lzweView : List Field := [.status, .params, .ib, .ip, .tk, .dict, .w]

variable {s s' : State}

theorem emitMatch_follows (h : Agree lzweView s s') : Run.Follows (Agree lzweView) (emitMatch s) (emitMatch s') := by
  have hdict : s'.dict = s.dict := h .dict (by decide)
  have hw : s'.w = s.w := h .w (by decide)
  have htk : s'.tk = s.tk := h .tk (by decide)
  unfold emitMatch
  rw [hdict, hw]
  exact appendTK_follows htk (h .params (by decide)) h.update

theorem lzweByte_follows (h : Agree lzweView s s') : Run.Follows (Agree lzweView) (lzweByte s) (lzweByte s') := by
  have hib : s'.ib = s.ib := h .ib (by decide)
  have hip : s'.ip = s.ip := h .ip (by decide)
  have hdict : s'.dict = s.dict := h .dict (by decide)
  have hw : s'.w = s.w := h .w (by decide)
  have hnext : s'.ib[s'.ip]? = s.ib[s.ip]? := by rw [hib, hip]
  unfold lzweByte
  rw [hnext]
  cases s.ib[s.ip]? with
  | none => exact .ok h
  | some b =>
    have hfind : findCode s'.dict (s'.w ++ [b]) = findCode s.dict (s.w ++ [b]) := by rw [hdict, hw]
    simp only [hfind]
    cases findCode s.dict (s.w ++ [b]) with
    | some _ => exact .ok h.update
    | none =>
      have hinsert (t t' : State) (ht : Agree lzweView t t') : Run.Follows (Agree lzweView)
          (insertPhrase (s.w ++ [b]) t) (insertPhrase (s'.w ++ [b]) t') := by
        have hdict : t'.dict = t.dict := ht .dict (by decide)
        rw [hw]
        exact insertPhrase_follows hdict (ht .params (by decide)) ht.update
      have hemit := emitMatch_follows (s := { s with ip := s.ip + 1 }) (s' := { s' with ip := s'.ip + 1 }) h.update
      refine (hemit.bind hinsert).bind fun t t' ht => ?_
      exact .ok ht.update

theorem enterLzwe_follows (h : Agree [.status, .params, .ib] s s') :
    Run.Follows (Agree lzweView) (enterLzwe s) (enterLzwe s') := by
  have hdict : Run.Follows (Agree [.status, .params, .ib, .tk, .dict])
      (initDict { s with phase := .lzwe, tk := [] }) (initDict { s' with phase := .lzwe, tk := [] }) :=
    initDict_follows (h .params (by decide)) h.update
  refine hdict.bind fun t t' ht => ?_
  exact .ok ht.update

theorem lzweWork_follows (h : Agree lzweView s s') : Run.Follows (Agree lzweView) (lzweWork s) (lzweWork s') := by
  have hib : s'.ib = s.ib := h .ib (by decide)
  have hip : s'.ip = s.ip := h .ip (by decide)
  rw [lzweWork, lzweWork, State.ibLen, State.ibLen, hib, hip]
  refine (Run.Follows.times (fun _ _ => lzweByte_follows) _ h).bind fun u u' hu => ?_
  have hw : u'.w = u.w := hu .w (by decide)
  unfold lzweFlush
  rw [hw]
  split
  · exact .ok hu
  · exact emitMatch_follows hu

/-- `LZWE` depends on the build and `IB` alone. -/
theorem lzwePhase_follows (h : Agree [.status, .params, .ib] s s') :
    Run.Follows (Agree lzweView) (lzwePhase s) (lzwePhase s') :=
  (enterLzwe_follows h).bind fun _ _ => lzweWork_follows

end Sys2Proof.Machine
end

section
/-! SUPPORT. `COMPRESS.s` is `LZWE`, then `SER.s` (44_pipeline.md R220, R221). -/

namespace Sys2Proof.Machine

open Sys2Proof.Claims

variable {s s' t : State}

/-- A run that raises nothing ends normally. -/
theorem Run.Post.exists_ok {P : State → Prop} {r : Run} (h : r.Post P fun _ _ => False) : ∃ t, r = .ok t ∧ P t := by
  cases r with
  | ok t => exact ⟨t, rfl, h⟩
  | raised e t => exact h.elim

theorem Run.Touches.untouched {fs : List Field} {f : State → Run} (hf : Run.Touches fs f) (h : f s = .ok t) :
    Untouched fs s t := by
  have hs := hf s
  rwa [h] at hs

section

variable {P : State → Prop} {E : ErrKind → State → Prop}

theorem appendTK_post_unbounded (h : s.params.Unbounded) {v : List Token} (ok : P { s with tk := s.tk ++ v }) :
    (appendTK v s).Post P E := by
  rw [appendTK_unbounded h]
  exact ok

theorem initDict_post_unbounded (h : s.params.Unbounded) (ok : P { s with dict := seedDict }) :
    (initDict s).Post P E := by
  rw [initDict_unbounded h]
  exact ok

theorem insertPhrase_post_unbounded (h : s.params.Unbounded) {p : Phrase} (ok : P { s with dict := s.dict ++ [p] }) :
    (insertPhrase p s).Post P E := by
  rw [insertPhrase_unbounded h]
  exact ok

end

/-- The run ends normally, and the build is still without limits. -/
abbrev Run.EndsUnbounded (r : Run) : Prop := r.Post (fun t => t.params.Unbounded) fun _ _ => False

theorem lzweByte_unbounded (h : s.params.Unbounded) : (lzweByte s).EndsUnbounded := by
  unfold lzweByte
  split
  · exact h
  · simp only
    split
    · exact h
    · simp only [Run.post_bind]
      refine appendTK_post_unbounded ?_ (insertPhrase_post_unbounded ?_ ?_) <;> exact h

theorem lzweFlush_unbounded (h : s.params.Unbounded) : (lzweFlush s).EndsUnbounded := by
  unfold lzweFlush
  split
  · exact h
  · exact appendTK_post_unbounded h h

theorem lzweWork_unbounded (h : s.params.Unbounded) : (lzweWork s).EndsUnbounded :=
  (Run.Post.times (fun _ => lzweByte_unbounded) _ h).bind fun _ => lzweFlush_unbounded

/-- Without limits `LZWE` raises nothing. -/
theorem lzwePhase_unbounded (h : s.params.Unbounded) : (lzwePhase s).EndsUnbounded := by
  simp only [lzwePhase, enterLzwe, Run.post_bind]
  refine initDict_post_unbounded h ?_
  exact lzweWork_unbounded h

theorem ruleOf_serOf (sch : Scheme) : ruleOf (serOf sch) = serRule sch := by
  cases sch <;> rfl

/-- `SER.s` begins with the tokens that are there. -/
theorem beginCommand_serOf_tk (sch : Scheme) (s : State) : (beginCommand (serOf sch) s).tk = s.tk := by
  cases sch <;> rfl

theorem beginCommand_agree (i j : Instr) (s : State) :
    Agree [.status, .params, .ib] (beginCommand i s) (beginCommand j s) := by
  simp [Agree, Field.Same]

/-- Settles O47: `LZWE` begun by either command ends with the same tokens and dictionary, and what `SER.s` writes is
determined by the tokens. -/
theorem compressIsLzweThenSer : Obligations.CompressIsLzweThenSer := by
  intro sch s h hib
  obtain ⟨x, hx, hxp⟩ := (lzwePhase_unbounded (s := beginCommand .lzwe s) h).exists_ok
  obtain ⟨x', hx', hsame⟩ : ∃ x', lzwePhase (beginCommand (compressOf sch) s) = .ok x' ∧ Agree lzweView x x' := by
    have hfollows := lzwePhase_follows (beginCommand_agree .lzwe (compressOf sch) s)
    rwa [hx] at hfollows
  have hparams : x'.params = x.params := hsame .params (by decide)
  have htk : x'.tk = x.tk := hsame .tk (by decide)
  obtain ⟨t, ht, htbs, htob⟩ := serRule_unbounded sch (s := x') (hparams ▸ hxp)
  obtain ⟨v, hv, hvbs, hvob⟩ := serRule_unbounded sch (s := beginCommand (serOf sch) (endRun x)) hxp
  have hbs : t.bs = v.bs := by rw [htbs, hvbs, htk, beginCommand_serOf_tk, endRun_tk]
  have hcompress : ruleOf (compressOf sch) (beginCommand (compressOf sch) s) = .ok t := by
    rw [ruleOf_compressOf, compressRule, beginCommand_ib, if_neg hib, hx', Run.bind_ok, ht]
  have hlzwe := (wholePhase_touches .gamma .lzwe).untouched hx
  have hser := (serRule_touches (i := .serG) sch (by decide) (by decide)).untouched ht
  have kept (f : Field) (hf : f ∉ commandTouches .serG) (hview : f ∈ lzweView) : f.Same x t :=
    (hsame f hview).trans (hser f hf)
  have hstatus : t.status = statusStarted := (hlzwe .status (by decide)).trans (kept .status (by decide) (by decide))
  rw [← ruleOf_serOf] at hv
  refine ⟨_, _, _, exec_of_rule_ok hcompress, exec_of_rule_ok (i := .lzwe) hx, exec_of_rule_ok hv,
    endRun_status_of_started hstatus, kept .tk (by decide) (by decide), kept .dict (by decide) (by decide), hbs, ?_⟩
  rw [endRun_ob, endRun_ob, htob, hvob, hbs]

end Sys2Proof.Machine
end

section
/-! SUPPORT. A decoder does not look beyond the code word it answers (41_universal_codec.md R151; 30_encoding.md
R120): more bits after the string change nothing. -/

namespace Sys2Proof.Machine

variable {tokenW : Option Nat} {r : Bits} {a : Nat × Nat}

theorem leadingZeros_append (h : leadingZeros r < r.length) (more : Bits) :
    leadingZeros (r ++ more) = leadingZeros r := by
  induction r with
  | nil => simp at h
  | cons b r ih =>
    cases b with
    | true => rfl
    | false => simpa [leadingZeros] using ih (by simpa [leadingZeros] using h)

theorem slice_append {i j : Nat} (hi : i ≤ r.length) (hj : j ≤ r.length) (more : Bits) :
    slice (r ++ more) i j = slice r i j := by
  rw [slice, slice, List.drop_append_of_le_length hi, List.take_append_of_le_length (by simp; omega)]

theorem decGamma_append (h : decGamma tokenW r = .ok a) (more : Bits) : decGamma tokenW (r ++ more) = .ok a := by
  simp only [decGamma] at h ⊢
  split at h
  · cases h
  · split at h
    · cases h
    · rw [leadingZeros_append (by omega), List.length_append, if_neg (by omega), if_neg (by omega),
        slice_append (by omega) (by omega)]
      exact h

theorem decDelta_append (h : decDelta tokenW r = .ok a) (more : Bits) : decDelta tokenW (r ++ more) = .ok a := by
  unfold decDelta at h ⊢
  split at h
  · cases h
  · rename_i len p hlen
    obtain ⟨-, -, hp, -⟩ := decGamma_ok hlen
    rw [decGamma_append hlen]
    split at h
    · cases h
    · simp only
      rw [List.length_append, if_neg (by omega), slice_append hp (by omega)]
      exact h

/-- The loop may also be given more fuel. -/
theorem decOmegaFrom_append {fuel fuel' acc used : Nat} (hfuel : fuel ≤ fuel')
    (h : decOmegaFrom tokenW fuel acc used r = .ok a) (more : Bits) :
    decOmegaFrom tokenW fuel' acc used (r ++ more) = .ok a := by
  induction fuel generalizing fuel' acc used r with
  | zero => cases h
  | succ fuel ih =>
    obtain ⟨fuel', rfl⟩ := Nat.exists_eq_add_of_le' ((Nat.le_add_left 1 fuel).trans hfuel)
    match r with
    | [] => cases h
    | false :: r => exact h
    | true :: r =>
      simp only [decOmegaFrom, List.cons_append] at h ⊢
      split at h
      · cases h
      · rename_i hlong
        have hacc : acc + 1 ≤ (true :: r).length := by omega
        rw [if_neg (by simp at hlong ⊢; omega), ← List.cons_append, List.take_append_of_le_length hacc,
          List.drop_append_of_le_length hacc]
        exact ih (by omega) h

theorem decFibFrom_append {k sum : Nat} {prevbit : Bool} (h : decFibFrom tokenW k sum prevbit r = .ok a)
    (more : Bits) : decFibFrom tokenW k sum prevbit (r ++ more) = .ok a := by
  induction r generalizing k sum prevbit with
  | nil => cases h
  | cons b r ih =>
    simp only [decFibFrom, List.cons_append] at h ⊢
    split at h
    · rename_i hend
      rwa [if_pos hend]
    · rename_i hend
      rw [if_neg hend]
      exact ih h

theorem dec_append {sch : Scheme} {bits : Bits} {p : Nat} (h : dec tokenW sch bits p = .ok a) (more : Bits) :
    dec tokenW sch (bits ++ more) p = .ok a := by
  obtain ⟨-, hp, hle, -⟩ := dec_ok (v := a.1) (p' := a.2) h
  simp only [dec, List.drop_append_of_le_length (show p ≤ bits.length by omega)] at h ⊢
  split at h
  · rename_i hr
    cases sch with
    | gamma => rw [decGamma_append hr]; exact h
    | delta => rw [decDelta_append hr]; exact h
    | omega =>
      simp only [decOmega] at hr ⊢
      rw [decOmegaFrom_append (by simp) hr]; exact h
    | fibonacci =>
      simp only [decFib] at hr ⊢
      rw [decFibFrom_append hr]; exact h
  · cases h

end Sys2Proof.Machine
end

section
/-! SUPPORT. `UNPACK`, `DES.s` and `LZWD` on a longer input (43_stream_assembler.md R207; 44_pipeline.md R229). -/

namespace Sys2Proof.Machine

open Sys2Proof.Claims

variable {s s' : State} {more : Bits}

theorem Field.Same.symm {f : Field} (h : f.Same s s') : f.Same s' s := by
  cases f <;> exact Eq.symm h

/-- What neither state's further run touches is still agreed on. -/
theorem Agree.of_untouched {k fs : List Field} {t t' : State} (h : Agree k s s') (ht : Untouched fs s t)
    (ht' : Untouched fs s' t') (hk : ∀ f ∈ k, f ∉ fs) : Agree k t t' :=
  fun f hf => ((ht f (hk f hf)).symm.trans (h f hf)).trans (ht' f (hk f hf))

/-! ## UNPACK -/

/-- `BS` after `UNPACK`. -/
def unpackBits (ib : List Byte) : Bits := (ib.map byteBits).flatten

theorem appendBS_of_noLimit (hcap : s.params.bsCap = none) (hlen : s.params.lenW = none) (v : Bits) :
    appendBS v s = .ok { s with bs := s.bs ++ v } := by
  simp [appendBS, hcap, hlen]

/-- The loop of `UNPACK` expands the bytes from `IP` on. -/
theorem times_unpackByte (hcap : s.params.bsCap = none) (hlen : s.params.lenW = none) {bytes : List Byte}
    (hib : s.ib.drop s.ip = bytes) : Run.times bytes.length unpackByte s =
      .ok { s with bs := s.bs ++ unpackBits bytes, ip := s.ip + bytes.length } := by
  induction bytes generalizing s with
  | nil => simp [unpackBits]
  | cons b bytes ih =>
    have hb : s.ib[s.ip]? = some b := by rw [← List.head?_drop, hib]; rfl
    have hrest : s.ib.drop (s.ip + 1) = bytes := by rw [← List.tail_drop, hib]; rfl
    have hone : unpackByte s = .ok { s with bs := s.bs ++ byteBits b, ip := s.ip + 1 } := by
      rw [unpackByte, hb]
      exact appendBS_of_noLimit (s := { s with ip := s.ip + 1 }) hcap hlen (byteBits b)
    have hloop := ih (s := { s with bs := s.bs ++ byteBits b, ip := s.ip + 1 }) hcap hlen hrest
    rw [List.length_cons, Run.times_succ, hone, Run.bind_ok, hloop]
    simp [unpackBits, Nat.add_assoc, Nat.add_comm 1]

theorem unpackPhase_of_noLimit (hcap : s.params.bsCap = none) (hlen : s.params.lenW = none) :
    unpackPhase s = .ok { s with phase := .unpack, bs := unpackBits s.ib, ip := s.ib.length } := by
  have hloop := times_unpackByte (s := { s with phase := .unpack, bs := [], ip := 0 }) hcap hlen (bytes := s.ib) rfl
  rw [unpackPhase, enterUnpack, Run.bind_ok, unpackWork]
  simpa [State.ibLen] using hloop

/-! ## DES.s -/

/-- What `DES.s` reads or writes but `BS`, and what `LZWD` needs of the run before it. -/
abbrev desView : List Field := [.status, .params, .tk, .bp, .hv, .cnt, .prev, .entry]

/-- The second state has the same, and `more` bits after those of `BS`. -/
structure MoreBits (more : Bits) (s s' : State) : Prop where
  agree : Agree desView s s'
  bits : s'.bs = s.bs ++ more

/-- `ACC` and `L` are not in the view. -/
theorem MoreBits.noteDecoded (h : MoreBits more s s') (sch : Scheme) (v p : Nat) :
    MoreBits more (noteDecoded sch v { s with bp := p }) (noteDecoded sch v { s' with bp := p }) := by
  have hbp : Agree desView { s with bp := p } { s' with bp := p } := h.agree.update
  refine ⟨hbp.of_untouched (noteDecoded_untouched sch v _) (noteDecoded_untouched sch v _) (by decide), ?_⟩
  cases sch with
  | gamma | delta | omega | fibonacci => exact h.bits

theorem readCode_follows {R : State → State → Prop} {sch : Scheme} {f : Nat → State → Run} (h : MoreBits more s s')
    (hf : ∀ v t t', MoreBits more t t' → Run.Follows R (f v t) (f v t')) :
    Run.Follows R (readCode sch f s) (readCode sch f s') := by
  have hparams : s'.params = s.params := h.agree .params (by decide)
  have hbp : s'.bp = s.bp := h.agree .bp (by decide)
  unfold readCode
  split
  · rename_i v p hd
    have hd' : dec s'.params.tokenW sch s'.bs s'.bp = .ok (v, p) := by rw [hparams, hbp, h.bits, dec_append hd]
    rw [hd']
    exact hf v _ _ (h.noteDecoded sch v p)
  · trivial

theorem desHeader_follows (sch : Scheme) (h : MoreBits more s s') :
    Run.Follows (MoreBits more) (desHeader sch s) (desHeader sch s') := by
  refine readCode_follows h fun v t t' ht => ?_
  have hparams : t'.params = t.params := ht.agree .params (by decide)
  simp only [hparams]
  split
  · trivial
  · split
    · trivial
    · exact .ok ⟨ht.agree.update, ht.bits⟩

theorem desToken_follows (sch : Scheme) (h : MoreBits more s s') :
    Run.Follows (MoreBits more) (desToken sch s) (desToken sch s') := by
  refine readCode_follows h fun v t t' ht => ?_
  have htk : t'.tk = t.tk := ht.agree .tk (by decide)
  exact appendTK_follows htk (ht.agree .params (by decide)) ⟨ht.agree.update, ht.bits⟩

theorem desPhase_follows (sch : Scheme) (h : MoreBits more s s') :
    Run.Follows (MoreBits more) (desPhase sch s) (desPhase sch s') := by
  have henter : Run.Follows (MoreBits more) (enterDes s) (enterDes s') := .ok ⟨h.agree.update, h.bits⟩
  refine henter.bind fun t t' ht => (desHeader_follows sch ht).bind fun u u' hu => ?_
  have hcnt : u'.cnt = u.cnt := hu.agree .cnt (by decide)
  rw [hcnt]
  exact Run.Follows.times (fun _ _ => desToken_follows sch) _ hu

/-! ## LZWD -/

/-- What `LZWD` reads or writes, and what the host sees beside it. -/
abbrev lzwdView : List Field := [.status, .params, .tk, .tp, .bp, .ob, .dict, .prev, .entry]

theorem lzwdFirst_follows (h : Agree lzwdView s s') : Run.Follows (Agree lzwdView) (lzwdFirst s) (lzwdFirst s') := by
  have htk : s'.tk = s.tk := h .tk (by decide)
  have htp : s'.tp = s.tp := h .tp (by decide)
  have hob : s'.ob = s.ob := h .ob (by decide)
  have hdict : s'.dict = s.dict := h .dict (by decide)
  have hnext : s'.tk[s'.tp]? = s.tk[s.tp]? := by rw [htk, htp]
  unfold lzwdFirst
  rw [hnext]
  cases s.tk[s.tp]? with
  | none => exact .ok h
  | some x =>
    simp only [hdict]
    cases s.dict[x]? with
    | none => trivial
    | some p => exact appendOB_follows hob (h .params (by decide)) h.update

theorem lzwdNext_follows (h : Agree lzwdView s s') : Run.Follows (Agree lzwdView) (lzwdNext s) (lzwdNext s') := by
  have htk : s'.tk = s.tk := h .tk (by decide)
  have htp : s'.tp = s.tp := h .tp (by decide)
  have hob : s'.ob = s.ob := h .ob (by decide)
  have hdict : s'.dict = s.dict := h .dict (by decide)
  have hprev : s'.prev = s.prev := h .prev (by decide)
  have hnext : s'.tk[s'.tp]? = s.tk[s.tp]? := by rw [htk, htp]
  unfold lzwdNext
  rw [hnext]
  cases s.tk[s.tp]? with
  | none => exact .ok h
  | some x =>
    have hphrase : tokenPhrase s'.dict s'.prev x = tokenPhrase s.dict s.prev x := by rw [hdict, hprev]
    simp only [hphrase]
    cases tokenPhrase s.dict s.prev x with
    | none => trivial
    | some p =>
      have hinsert (t t' : State) (ht : Agree lzwdView t t') : Run.Follows (Agree lzwdView)
          (insertPhrase (s.prev ++ p.take 1) t) (insertPhrase (s'.prev ++ p.take 1) t') := by
        have hdict : t'.dict = t.dict := ht .dict (by decide)
        rw [hprev]
        exact insertPhrase_follows hdict (ht .params (by decide)) ht.update
      have hemit : Run.Follows (Agree lzwdView) (appendOB p { s with tp := s.tp + 1, entry := p })
          (appendOB p { s' with tp := s'.tp + 1, entry := p }) :=
        appendOB_follows hob (h .params (by decide)) h.update
      refine (hemit.bind hinsert).bind fun t t' ht => ?_
      have hentry : t'.entry = t.entry := ht .entry (by decide)
      exact .ok ht.update

/-- `LZWD` depends on the build, `TK` and `PREV` alone; `PREV` is fresh at its start. -/
theorem lzwdPhase_follows (h : Agree [.status, .params, .tk, .bp, .prev, .entry] s s') :
    Run.Follows (Agree lzwdView) (lzwdPhase s) (lzwdPhase s') := by
  have hdict : Run.Follows (Agree [.status, .params, .tk, .bp, .ob, .dict, .prev, .entry])
      (initDict { s with phase := .lzwd, ob := [] }) (initDict { s' with phase := .lzwd, ob := [] }) :=
    initDict_follows (h .params (by decide)) h.update
  have henter : Run.Follows (Agree lzwdView) (enterLzwd s) (enterLzwd s') := by
    refine hdict.bind fun t t' ht => ?_
    exact .ok ht.update
  refine henter.bind fun t t' ht => ?_
  have htk : t'.tk = t.tk := ht .tk (by decide)
  rw [lzwdWork, lzwdWork, State.tkLen, State.tkLen, htk]
  exact (lzwdFirst_follows ht).bind fun _ _ => Run.Follows.times (fun _ _ => lzwdNext_follows) _

/-! ## DECOMPRESS.s -/

theorem ruleOf_decompressOf (sch : Scheme) : ruleOf (decompressOf sch) = decompressRule sch := by
  cases sch <;> rfl

/-- Bytes added after a non-empty input change nothing that is decoded. -/
theorem decompressRule_follows (sch : Scheme) (h : s.params.Unbounded) (hib : s.ib ≠ []) (extra : List Byte) :
    Run.Follows (Agree lzwdView) (decompressRule sch s) (decompressRule sch { s with ib := s.ib ++ extra }) := by
  obtain ⟨-, hlen, -, -, -, -, -, hcap⟩ := h
  have hunpack : Run.Follows (MoreBits (unpackBits extra)) (unpackPhase s)
      (unpackPhase { s with ib := s.ib ++ extra }) := by
    rw [unpackPhase_of_noLimit hcap hlen, unpackPhase_of_noLimit (s := { s with ib := s.ib ++ extra }) hcap hlen]
    refine .ok ⟨?_, ?_⟩
    · simp [Agree, Field.Same]
    · simp [unpackBits]
  rw [decompressRule, if_neg hib, decompressRule, if_neg (by simp [hib])]
  refine (hunpack.bind fun _ _ => desPhase_follows sch).bind fun t t' ht => lzwdPhase_follows ?_
  exact ht.agree.update

/-- A run that ends with status `0x02` is the normal end of its rule. -/
theorem rule_ok_of_exec {i : Instr} {t : State} (h : exec i s = .next t) (hst : t.status = 0x02) :
    ∃ u, ruleOf i (beginCommand i s) = .ok u ∧ t = endRun u := by
  rw [exec_eq_runCommand] at h
  obtain ⟨u, hu, hend⟩ | ⟨e, u, -, hend⟩ := runCommand_cases i (ruleOf i) s <;> rw [hend] at h <;> cases h
  · exact ⟨u, hu, rfl⟩
  · rw [errorStop_status] at hst
    cases e <;> exact absurd hst (by decide)

/-- Settles O50: the run on the longer input follows the one on the input itself. -/
theorem trailingBytesIgnored : Obligations.TrailingBytesIgnored := by
  intro sch s t extra h hib ht hst
  obtain ⟨x, hx, rfl⟩ := rule_ok_of_exec ht hst
  have hfollows := decompressRule_follows sch (s := beginCommand (decompressOf sch) s) h hib extra
  rw [← ruleOf_decompressOf, hx] at hfollows
  obtain ⟨x', hx', hsame⟩ := hfollows
  have hstatus : x'.status = x.status := hsame .status (by decide)
  refine ⟨_, exec_of_rule_ok (s := { s with ib := s.ib ++ extra }) hx', ?_, ?_⟩
  · rw [endRun_status, hstatus]
    exact hst
  · exact ⟨hsame .ob (by decide), hsame .tk (by decide), hsame .bp (by decide), hsame .dict (by decide)⟩

end Sys2Proof.Machine
end

section
/-! SUPPORT. The granularity is read by `START` and by the engine's step alone: whatever a phase does, it does the same
in every granularity (93_implementation_defined.md U9). -/

namespace Sys2Proof.Machine

open Sys2Proof.Claims

/-- A piece of a run comes to the same in every granularity. -/
def Run.IgnoresGrain (f : State → Run) : Prop := ∀ g s, f (withGrain g s) = (f s).map (withGrain g)

namespace Run.IgnoresGrain

variable {f h : State → Run}

theorem done : Run.IgnoresGrain Run.ok := fun _ _ => rfl

theorem seq (hf : Run.IgnoresGrain f) (hh : Run.IgnoresGrain h) : Run.IgnoresGrain fun s => (f s).bind h := by
  intro g s
  simp only [hf g s]
  cases f s with
  | ok t => exact hh g t
  | raised e t => rfl

theorem loop (hf : Run.IgnoresGrain f) (m : Nat) : Run.IgnoresGrain (Run.times m f) := by
  induction m with
  | zero => exact done
  | succ m ih => exact hf.seq ih

end Run.IgnoresGrain

/-! ## The shared operations -/

theorem appendOB_ignoresGrain (v : List Byte) : Run.IgnoresGrain (appendOB v) := by
  intro g s
  unfold appendOB
  rw [apply_ite (Run.map (withGrain g))]
  rfl

theorem appendTK_ignoresGrain (v : List Token) : Run.IgnoresGrain (appendTK v) := by
  intro g s
  unfold appendTK
  rw [apply_ite (Run.map (withGrain g))]
  rfl

theorem appendBS_ignoresGrain (v : Bits) : Run.IgnoresGrain (appendBS v) := by
  intro g s
  unfold appendBS
  rw [apply_ite (Run.map (withGrain g))]
  rfl

theorem initDict_ignoresGrain : Run.IgnoresGrain initDict := by
  intro g s
  unfold initDict
  rw [apply_ite (Run.map (withGrain g))]
  rfl

theorem insertPhrase_ignoresGrain (p : Phrase) : Run.IgnoresGrain (insertPhrase p) := by
  intro g s
  unfold insertPhrase
  rw [apply_ite (Run.map (withGrain g))]
  rfl

theorem appendCode_ignoresGrain (sch : Scheme) (n : Nat) : Run.IgnoresGrain (appendCode sch n) := by
  intro g s
  have henc : enc (withGrain g s).params.tokenW sch n = enc s.params.tokenW sch n := rfl
  have hnote : noteEncoded sch n (withGrain g s) = withGrain g (noteEncoded sch n s) := by cases sch <;> rfl
  unfold appendCode
  rw [henc]
  cases enc s.params.tokenW sch n with
  | error e => rfl
  | ok code =>
    simp only [hnote]
    exact appendBS_ignoresGrain code g _

theorem readCode_ignoresGrain (sch : Scheme) {f : Nat → State → Run} (hf : ∀ v, Run.IgnoresGrain (f v)) :
    Run.IgnoresGrain (readCode sch f) := by
  intro g s
  have hdec : dec (withGrain g s).params.tokenW sch (withGrain g s).bs (withGrain g s).bp =
      dec s.params.tokenW sch s.bs s.bp := rfl
  unfold readCode
  rw [hdec]
  cases dec s.params.tokenW sch s.bs s.bp with
  | error e => rfl
  | ok vp =>
    obtain ⟨v, p⟩ := vp
    have hnote : noteDecoded sch v { withGrain g s with bp := p } =
        withGrain g (noteDecoded sch v { s with bp := p }) := by cases sch <;> rfl
    exact (congrArg (f v) hnote).trans (hf v g _)

/-! ## The loop bodies -/

theorem lzweByte_ignoresGrain : Run.IgnoresGrain lzweByte := by
  intro g s
  have hnext : (withGrain g s).ib[(withGrain g s).ip]? = s.ib[s.ip]? := rfl
  unfold lzweByte
  rw [hnext]
  cases s.ib[s.ip]? with
  | none => rfl
  | some b =>
    have hfind : findCode (withGrain g s).dict ((withGrain g s).w ++ [b]) = findCode s.dict (s.w ++ [b]) := rfl
    simp only [hfind]
    cases findCode s.dict (s.w ++ [b]) with
    | some _ => rfl
    | none =>
      have hemit : Run.IgnoresGrain emitMatch := fun g s => appendTK_ignoresGrain _ g s
      have hlast : Run.IgnoresGrain fun s => .ok { s with w := [b] } := fun _ _ => rfl
      exact ((hemit.seq (insertPhrase_ignoresGrain (s.w ++ [b]))).seq hlast) g { s with ip := s.ip + 1 }

theorem lzweFlush_ignoresGrain : Run.IgnoresGrain lzweFlush := by
  intro g s
  have hemit : emitMatch (withGrain g s) = (emitMatch s).map (withGrain g) := appendTK_ignoresGrain _ g s
  unfold lzweFlush
  rw [hemit, apply_ite (Run.map (withGrain g))]
  rfl

theorem lzwdFirst_ignoresGrain : Run.IgnoresGrain lzwdFirst := by
  intro g s
  have hnext : (withGrain g s).tk[(withGrain g s).tp]? = s.tk[s.tp]? := rfl
  unfold lzwdFirst
  rw [hnext]
  cases s.tk[s.tp]? with
  | none => rfl
  | some t =>
    have hdict : (withGrain g s).dict[t]? = s.dict[t]? := rfl
    simp only [hdict]
    cases s.dict[t]? with
    | none => rfl
    | some p => exact appendOB_ignoresGrain p g { s with tp := s.tp + 1, prev := p }

theorem lzwdNext_ignoresGrain : Run.IgnoresGrain lzwdNext := by
  intro g s
  have hnext : (withGrain g s).tk[(withGrain g s).tp]? = s.tk[s.tp]? := rfl
  unfold lzwdNext
  rw [hnext]
  cases s.tk[s.tp]? with
  | none => rfl
  | some t =>
    have hphrase : tokenPhrase (withGrain g s).dict (withGrain g s).prev t = tokenPhrase s.dict s.prev t := rfl
    simp only [hphrase]
    cases tokenPhrase s.dict s.prev t with
    | none => rfl
    | some p =>
      have hlast : Run.IgnoresGrain fun s => .ok { s with prev := s.entry } := fun _ _ => rfl
      exact (((appendOB_ignoresGrain p).seq (insertPhrase_ignoresGrain (s.prev ++ p.take 1))).seq hlast) g
        { s with tp := s.tp + 1, entry := p }

theorem serToken_ignoresGrain (sch : Scheme) : Run.IgnoresGrain (serToken sch) := by
  intro g s
  have hnext : (withGrain g s).tk[(withGrain g s).tp]? = s.tk[s.tp]? := rfl
  unfold serToken
  rw [hnext]
  cases s.tk[s.tp]? with
  | none => rfl
  | some t => exact appendCode_ignoresGrain sch (t + 1) g { s with tp := s.tp + 1 }

theorem desHeader_ignoresGrain (sch : Scheme) : Run.IgnoresGrain (desHeader sch) := by
  refine readCode_ignoresGrain sch fun v g s => ?_
  simp only [apply_ite (Run.map (withGrain g))]
  rfl

theorem desToken_ignoresGrain (sch : Scheme) : Run.IgnoresGrain (desToken sch) :=
  readCode_ignoresGrain sch fun v => appendTK_ignoresGrain [v - 1]

theorem unpackByte_ignoresGrain : Run.IgnoresGrain unpackByte := by
  intro g s
  have hnext : (withGrain g s).ib[(withGrain g s).ip]? = s.ib[s.ip]? := rfl
  unfold unpackByte
  rw [hnext]
  cases s.ib[s.ip]? with
  | none => rfl
  | some b => exact appendBS_ignoresGrain (byteBits b) g { s with ip := s.ip + 1 }

/-! ## The phases -/

theorem enterPhase_ignoresGrain (ph : Phase) : Run.IgnoresGrain (enterPhase ph) := by
  cases ph with
  | lzwe =>
    have hlast : Run.IgnoresGrain fun s => .ok { s with w := [], ip := 0 } := fun _ _ => rfl
    exact fun g s => (initDict_ignoresGrain.seq hlast) g { s with phase := .lzwe, tk := [] }
  | lzwd =>
    have hlast : Run.IgnoresGrain fun s => .ok { s with tp := 0 } := fun _ _ => rfl
    exact fun g s => (initDict_ignoresGrain.seq hlast) g { s with phase := .lzwd, ob := [] }
  | idle | ser | des | pack | unpack | uenc | udec => exact fun _ _ => rfl

theorem phaseWork_ignoresGrain (sch : Scheme) (ph : Phase) : Run.IgnoresGrain (phaseWork sch ph) := by
  cases ph with
  | idle => exact .done
  | lzwe => exact fun g s => (lzweByte_ignoresGrain.loop (s.ibLen - s.ip)).seq lzweFlush_ignoresGrain g s
  | lzwd => exact fun g s => lzwdFirst_ignoresGrain.seq (lzwdNext_ignoresGrain.loop (s.tkLen - 1)) g s
  | ser =>
    exact fun g s => (appendCode_ignoresGrain sch (s.tkLen + 1)).seq ((serToken_ignoresGrain sch).loop s.tkLen) g s
  | des => exact (desHeader_ignoresGrain sch).seq fun g s => (desToken_ignoresGrain sch).loop s.cnt g s
  | pack =>
    have hbyte : Run.IgnoresGrain packByte := fun g s => appendOB_ignoresGrain _ g s
    exact fun g s => hbyte.loop (packedLen s.bsLen - s.obLen) g s
  | unpack => exact fun g s => unpackByte_ignoresGrain.loop (s.ibLen - s.ip) g s
  | uenc => exact fun g s => appendCode_ignoresGrain sch s.n g s
  | udec => exact readCode_ignoresGrain sch (f := fun v t => .ok { t with n := v }) fun _ _ _ => rfl

/-! ## A command as its phases -/

/-- Phases in a row, each opened and worked to its end. -/
def phasesRun (sch : Scheme) : List Phase → State → Run
  | [] => .ok
  | ph :: rest => fun s => ((enterPhase ph s).bind (phaseWork sch ph)).bind (phasesRun sch rest)

theorem phasesRun_ignoresGrain (sch : Scheme) (phs : List Phase) : Run.IgnoresGrain (phasesRun sch phs) := by
  induction phs with
  | nil => exact .done
  | cons ph rest ih => exact ((enterPhase_ignoresGrain ph).seq (phaseWork_ignoresGrain sch ph)).seq ih

theorem Run.bind_done (r : Run) : r.bind Run.ok = r := by cases r <;> rfl

/-- `SER.s` is its two phases. -/
theorem serRule_eq_phasesRun (sch : Scheme) : serRule sch = phasesRun sch [.ser, .pack] := by
  funext s
  simp only [phasesRun, Run.bind_done]
  rfl

/-- `DES.s` is its two phases. -/
theorem desRule_eq_phasesRun (sch : Scheme) : desRule sch = phasesRun sch [.unpack, .des] := by
  funext s
  simp only [phasesRun, Run.bind_done]
  rfl

theorem compressRule_eq_phasesRun (sch : Scheme) {s : State} (hib : s.ib ≠ []) :
    compressRule sch s = phasesRun sch [.lzwe, .ser, .pack] s := by
  rw [compressRule, if_neg hib, serRule_eq_phasesRun]
  rfl

theorem decompressRule_eq_phasesRun (sch : Scheme) {s : State} (hib : s.ib ≠ []) :
    decompressRule sch s = phasesRun sch [.unpack, .des, .lzwd] s := by
  rw [decompressRule, if_neg hib, desRule_eq_phasesRun]
  simp only [phasesRun, Run.bind_done, Run.bind_assoc]
  rfl

/-- The scheme in the command's word. -/
def commandScheme (i : Instr) : Scheme := Scheme.ofBits (Fields.ofWord (encode i)).scheme

/-- A rule is the command's phases in order, unless the input is empty (44_pipeline.md R222, R227). -/
theorem ruleOf_eq_phasesRun (i : Instr) (s : State) :
    ruleOf i s = (emptyInput i s).elim (phasesRun (commandScheme i) (phasesOf i) s) Run.ok := by
  cases i with
  | compressG | compressD | compressO | compressF =>
    simp only [emptyInput]
    split
    · exact if_pos ‹_›
    · exact compressRule_eq_phasesRun _ ‹_›
  | decompressG | decompressD | decompressO | decompressF =>
    simp only [emptyInput]
    split
    · exact if_pos ‹_›
    · exact decompressRule_eq_phasesRun _ ‹_›
  | serG | serD | serO | serF => exact congrFun (serRule_eq_phasesRun _) s
  | desG | desD | desO | desF => exact congrFun (desRule_eq_phasesRun _) s
  | lzwe | lzwd | uencG | uencD | uencO | uencF | udecG | udecD | udecO | udecF | pack | unpack =>
    exact (Run.bind_done _).symm

/-- The test of the empty input, and what is done then, are the same in every granularity. -/
theorem emptyInput_withGrain (i : Instr) (g : Grain) (s : State) :
    emptyInput i (withGrain g s) = (emptyInput i s).map (withGrain g) := by
  cases i with
  | compressG | compressD | compressO | compressF | decompressG | decompressD | decompressO | decompressF =>
    simp only [emptyInput, apply_ite (Option.map (withGrain g))]
    rfl
  | lzwe | lzwd | serG | serD | serO | serF | desG | desD | desO | desF | uencG | uencD | uencO | uencF
  | udecG | udecD | udecO | udecF | pack | unpack => rfl

theorem ruleOf_ignoresGrain (i : Instr) : Run.IgnoresGrain (ruleOf i) := by
  intro g s
  rw [ruleOf_eq_phasesRun, ruleOf_eq_phasesRun, emptyInput_withGrain]
  cases emptyInput i s with
  | some t => rfl
  | none => exact phasesRun_ignoresGrain _ _ g s

/-- A whole run ends in the same state in every granularity, up to the granularity itself. -/
theorem finishRun_map_withGrain (ws : List Dest) (g : Grain) (r : Run) :
    finishRun ws (r.map (withGrain g)) = withGrain g (finishRun ws r) := by
  cases r <;> rfl

end Sys2Proof.Machine
end

section
/-! SUPPORT. A phase worked element by element comes to the same as the whole phase (40_lzw_engine.md R137, R149;
43_stream_assembler.md R203, R214; 44_pipeline.md R233): where `phaseMore` says that an element is left, `phaseUnit` is
the next turn of the phase's loop. -/

namespace Sys2Proof.Machine

theorem Run.Post.and {P Q : State → Prop} {E : ErrKind → State → Prop} {r : Run} (hP : r.Post P E)
    (hQ : r.Ensures Q) : r.Post (fun t => P t ∧ Q t) E := by
  cases r with
  | ok t => exact ⟨hP, hQ⟩
  | raised e t => exact hP

/-- An invariant of a loop that has `k` turns left, of which each turn takes one. -/
theorem Run.Post.countdown {P : State → Prop} {E : ErrKind → State → Prop} {f : State → Run}
    (left : Nat → State → Prop) (hf : ∀ k t, P t → left (k + 1) t → (f t).Post P E)
    (hleft : ∀ k t, left (k + 1) t → (f t).Ensures (left k)) {k : Nat} {s : State} (hs : P s) (hk : left k s) :
    (Run.times k f s).Post (fun t => P t ∧ left 0 t) E := by
  induction k generalizing s with
  | zero => exact ⟨hs, hk⟩
  | succ k ih => exact ((hf k s hs hk).and (hleft k s hk)).bind fun t ht => ih ht.1 ht.2

/-- Worked element by element from `s`, phase `ph` comes to `r`. -/
inductive ByElements (sch : Scheme) (ph : Phase) : State → Run → Prop
  | leave {s : State} (hmore : phaseMore ph s = false) : ByElements sch ph s (leavePhase ph s)
  | stop {s t : State} {e : ErrKind} (hmore : phaseMore ph s = true) (hunit : phaseUnit sch ph s = .raised e t) :
      ByElements sch ph s (.raised e t)
  | unit {s t : State} {r : Run} (hmore : phaseMore ph s = true) (hunit : phaseUnit sch ph s = .ok t)
      (hrest : ByElements sch ph t r) : ByElements sch ph s r

/-- A phase without a step of its own at the end. -/
theorem bind_leavePhase {ph : Phase} (h : ph ≠ .lzwe) (r : Run) : r.bind (leavePhase ph) = r := by
  cases ph with
  | lzwe => exact absurd rfl h
  | idle | lzwd | ser | des | pack | unpack | uenc | udec => exact r.bind_done

namespace ByElements

variable {sch : Scheme} {ph : Phase} {s : State} {f h : State → Run}

/-- One element, then the rest. -/
theorem step (hmore : phaseMore ph s = true) (hunit : phaseUnit sch ph s = f s)
    (hrest : (f s).Ensures fun t => ByElements sch ph t (h t)) : ByElements sch ph s ((f s).bind h) := by
  cases hf : f s with
  | ok t =>
    rw [hf] at hrest
    exact .unit hmore (hunit.trans hf) hrest
  | raised e t => exact .stop hmore (hunit.trans hf)

/-- A loop over the elements left, of which `left` counts `k`. -/
theorem loop (left : Nat → State → Prop) (hend : ∀ t, left 0 t → phaseMore ph t = false)
    (hmore : ∀ k t, left (k + 1) t → phaseMore ph t = true ∧ phaseUnit sch ph t = f t ∧ (f t).Ensures (left k))
    {k : Nat} (hs : left k s) : ByElements sch ph s ((Run.times k f s).bind (leavePhase ph)) := by
  induction k generalizing s with
  | zero => exact .leave (hend s hs)
  | succ k ih =>
    obtain ⟨hmore, hunit, hf⟩ := hmore k s hs
    rw [Run.times_succ, Run.bind_assoc]
    exact step hmore hunit (hf.mono (fun t ht => ih ht) fun _ _ => id)

/-- The same for a phase that is over with its last element. -/
theorem loop_of_ne (hph : ph ≠ .lzwe) (f : State → Run) (left : Nat → State → Prop)
    (hend : ∀ t, left 0 t → phaseMore ph t = false)
    (hmore : ∀ k t, left (k + 1) t → phaseMore ph t = true ∧ phaseUnit sch ph t = f t ∧ (f t).Ensures (left k))
    {k : Nat} (hs : left k s) : ByElements sch ph s (Run.times k f s) :=
  bind_leavePhase hph (Run.times k f s) ▸ loop left hend hmore hs

/-- A phase of one element. -/
theorem single (hph : ph ≠ .lzwe) (hmore : phaseMore ph s = true)
    (hunit : (phaseUnit sch ph s).Ensures fun t => phaseMore ph t = false) :
    ByElements sch ph s (phaseUnit sch ph s) :=
  bind_leavePhase hph (phaseUnit sch ph s) ▸ step hmore rfl (hunit.mono (fun _ ht => .leave ht) fun _ _ => id)

end ByElements

/-! ## The phases -/

/-- Where a phase stands when it has been opened, as far as `phaseMore` and `phaseUnit` look. -/
def Entered : Phase → State → Prop
  | .lzwd, s => s.tp = 0
  | .ser, s => s.bs = [] ∧ s.tp = 0
  | .des, s => s.hv = 0 ∧ s.tk = []
  | .uenc, s => s.bs = []
  | .udec, s => s.bp = 0
  | .idle, _ | .lzwe, _ | .pack, _ | .unpack, _ => True

variable {sch : Scheme} {s : State}

/-- The bytes left of `IB`, in `LZWE` and `UNPACK`. -/
def BytesLeft (k : Nat) (s : State) : Prop := s.ibLen - s.ip = k

/-- While a byte is left, there is one at `IP`. -/
theorem BytesLeft.getElem?_ne_none {k : Nat} (h : BytesLeft (k + 1) s) : s.ib[s.ip]? ≠ none := by
  rw [Ne, List.getElem?_eq_none_iff]
  simp only [BytesLeft, State.ibLen] at h
  omega

theorem BytesLeft.succ_ip {k : Nat} (h : BytesLeft (k + 1) s) : s.ibLen - (s.ip + 1) = k := by
  unfold BytesLeft at h
  omega

theorem lzweByte_left {k : Nat} (h : BytesLeft (k + 1) s) : (lzweByte s).Ensures (BytesLeft k) := by
  unfold lzweByte
  split
  · exact absurd ‹_› h.getElem?_ne_none
  · simp only
    split
    · exact h.succ_ip
    · simp only [Run.post_bind]
      exact appendTK_post (insertPhrase_post h.succ_ip trivial) trivial

theorem unpackByte_left {k : Nat} (h : BytesLeft (k + 1) s) : (unpackByte s).Ensures (BytesLeft k) := by
  unfold unpackByte
  split
  · exact absurd ‹_› h.getElem?_ne_none
  · exact appendBS_post h.succ_ip trivial

/-- What is left of `LZWD` after its first token. -/
def LzwdLeft (k : Nat) (s : State) : Prop := s.tp ≠ 0 ∧ s.tkLen - s.tp = k

theorem lzwdFirst_left (htp : s.tp = 0) (htk : 0 < s.tkLen) : (lzwdFirst s).Ensures (LzwdLeft (s.tkLen - 1)) := by
  unfold lzwdFirst
  split
  · rename_i hnone
    rw [List.getElem?_eq_none_iff] at hnone
    simp only [State.tkLen] at htk
    omega
  · simp only
    split
    · trivial
    · exact appendOB_post ⟨by simp, by simp [State.tkLen, htp]⟩ trivial

theorem lzwdNext_left {k : Nat} (h : LzwdLeft (k + 1) s) : (lzwdNext s).Ensures (LzwdLeft k) := by
  obtain ⟨-, hleft⟩ := h
  have htp : s.tkLen - (s.tp + 1) = k := by omega
  unfold lzwdNext
  split
  · rename_i hnone
    rw [List.getElem?_eq_none_iff] at hnone
    simp only [State.tkLen] at hleft
    omega
  · simp only
    split
    · trivial
    · simp only [Run.post_bind]
      exact appendOB_post (insertPhrase_post ⟨Nat.succ_ne_zero _, htp⟩ trivial) trivial

/-- `Append(BS, enc(s, n))` leaves bits in `BS`, and the tokens as they are. -/
theorem appendCode_bits (sch : Scheme) (n : Nat) (s : State) :
    (appendCode sch n s).Ensures fun t => t.bs ≠ [] ∧ t.tk = s.tk ∧ t.tp = s.tp := by
  unfold appendCode
  obtain ⟨-, h⟩ | ⟨hn, -, h⟩ | ⟨-, -, h⟩ := enc_cases s.params.tokenW sch n <;> rw [h]
  · trivial
  · exact appendBS_post ⟨by simp [codeWord_ne_nil sch hn], by simp, by simp⟩ trivial
  · trivial

/-- What is left of `SER.s` after its header. -/
def SerLeft (k : Nat) (s : State) : Prop := s.bs ≠ [] ∧ s.tkLen - s.tp = k

theorem serToken_left {k : Nat} (h : SerLeft (k + 1) s) : (serToken sch s).Ensures (SerLeft k) := by
  obtain ⟨-, hleft⟩ := h
  unfold serToken
  split
  · rename_i hnone
    rw [List.getElem?_eq_none_iff] at hnone
    simp only [State.tkLen] at hleft
    omega
  · rename_i x hx
    refine (appendCode_bits sch (x + 1) { s with tp := s.tp + 1 }).mono (fun t ht => ?_) fun _ _ => id
    obtain ⟨hbs, htk, htp⟩ := ht
    exact ⟨hbs, by simp only [State.tkLen, htk, htp] at hleft ⊢; omega⟩

/-- What is left of `DES.s` after its header. -/
def DesLeft (k : Nat) (s : State) : Prop := s.hv ≠ 0 ∧ s.cnt - s.tkLen = k

@[simp] theorem noteDecoded_tk (sch : Scheme) (v : Nat) (s : State) : (noteDecoded sch v s).tk = s.tk := by
  cases sch <;> rfl

@[simp] theorem noteDecoded_hv (sch : Scheme) (v : Nat) (s : State) : (noteDecoded sch v s).hv = s.hv := by
  cases sch <;> rfl

@[simp] theorem noteDecoded_cnt (sch : Scheme) (v : Nat) (s : State) : (noteDecoded sch v s).cnt = s.cnt := by
  cases sch <;> rfl

@[simp] theorem noteDecoded_bp (sch : Scheme) (v : Nat) (s : State) : (noteDecoded sch v s).bp = s.bp := by
  cases sch <;> rfl

theorem desHeader_left (htk : s.tk = []) : (desHeader sch s).Ensures fun t => DesLeft t.cnt t := by
  refine readCode_post (fun v p hv _ _ => ?_) fun _ _ => trivial
  simp only
  split
  · trivial
  · split
    · trivial
    · exact ⟨by simpa using Nat.ne_of_gt hv, by simp [State.tkLen, htk]⟩

theorem desToken_left {k : Nat} (h : DesLeft (k + 1) s) : (desToken sch s).Ensures (DesLeft k) := by
  obtain ⟨hhv, hleft⟩ := h
  refine readCode_post (fun v p _ _ _ => appendTK_post ⟨by simpa using hhv, ?_⟩ trivial) fun _ _ => trivial
  simp only [State.tkLen, noteDecoded_tk, noteDecoded_cnt, List.length_append, List.length_singleton] at hleft ⊢
  omega

/-- What is left of `PACK`. -/
def PackLeft (k : Nat) (s : State) : Prop := packedLen s.bsLen - s.obLen = k

theorem packByte_left {k : Nat} (h : PackLeft (k + 1) s) : (packByte s).Ensures (PackLeft k) := by
  refine appendOB_post ?_ trivial
  simp only [PackLeft, State.obLen, State.bsLen, List.length_append, List.length_singleton] at h ⊢
  omega

theorem lzweWork_byElements : ByElements sch .lzwe s (lzweWork s) := by
  refine .loop (ph := .lzwe) (f := lzweByte) BytesLeft (fun t ht => decide_eq_false ?_)
    (fun k t ht => ⟨decide_eq_true ?_, rfl, lzweByte_left ht⟩) rfl
  all_goals
    unfold BytesLeft at ht
    omega

theorem unpackWork_byElements : ByElements sch .unpack s (unpackWork s) := by
  refine .loop_of_ne (ph := .unpack) (by decide) unpackByte BytesLeft (fun t ht => decide_eq_false ?_)
    (fun k t ht => ⟨decide_eq_true ?_, rfl, unpackByte_left ht⟩) rfl
  all_goals
    unfold BytesLeft at ht
    omega

theorem packWork_byElements : ByElements sch .pack s (packWork s) := by
  refine .loop_of_ne (ph := .pack) (by decide) packByte PackLeft (fun t ht => decide_eq_false ?_)
    (fun k t ht => ⟨decide_eq_true ?_, rfl, packByte_left ht⟩) rfl
  all_goals
    unfold PackLeft at ht
    omega

theorem lzwdWork_byElements (h : Entered .lzwd s) : ByElements sch .lzwd s (lzwdWork s) := by
  have htp : s.tp = 0 := h
  by_cases htk : s.tkLen = 0
  · have hnone : s.tk[s.tp]? = none := List.getElem?_eq_none (htk.le.trans (Nat.zero_le _))
    have hwork : lzwdWork s = .ok s := by simp [lzwdWork, lzwdFirst, hnone, htk]
    rw [hwork]
    exact .leave (ph := .lzwd) (decide_eq_false (by omega))
  · refine .step (ph := .lzwd) (decide_eq_true (by omega)) (if_pos htp) ?_
    refine (lzwdFirst_left htp (Nat.pos_of_ne_zero htk)).mono (fun t ht => ?_) fun _ _ => id
    refine .loop_of_ne (ph := .lzwd) (by decide) lzwdNext LzwdLeft (fun u hu => decide_eq_false ?_)
      (fun k u hu => ⟨decide_eq_true ?_, if_neg hu.1, lzwdNext_left hu⟩) ht
    all_goals
      obtain ⟨-, hu⟩ := hu
      omega

theorem serWork_byElements (h : Entered .ser s) : ByElements sch .ser s (serWork sch s) := by
  obtain ⟨hbs, htp⟩ := h
  refine .step (ph := .ser) (by simp [phaseMore, State.bsLen, hbs]) (if_pos hbs) ?_
  refine (appendCode_bits sch (s.tkLen + 1) s).mono (fun t ht => ?_) fun _ _ => id
  obtain ⟨htbs, htk, htp'⟩ := ht
  refine .loop_of_ne (ph := .ser) (by decide) (serToken sch) SerLeft (fun u hu => ?_)
    (fun k u hu => ⟨?_, if_neg hu.1, serToken_left hu⟩) ⟨htbs, by simp [State.tkLen, htk, htp', htp]⟩
  all_goals
    obtain ⟨hubs, hu⟩ := hu
    simp [phaseMore, State.bsLen, hubs]
    omega

theorem desWork_byElements (h : Entered .des s) : ByElements sch .des s (desWork sch s) := by
  obtain ⟨hhv, htk⟩ := h
  refine .step (ph := .des) (by simp [phaseMore, hhv]) (if_pos hhv) ?_
  refine (desHeader_left htk).mono (fun t ht => ?_) fun _ _ => id
  refine .loop_of_ne (ph := .des) (by decide) (desToken sch) DesLeft (fun u hu => ?_)
    (fun k u hu => ⟨?_, if_neg hu.1, desToken_left hu⟩) ht
  all_goals
    obtain ⟨huhv, hu⟩ := hu
    simp [phaseMore, huhv]
    omega

theorem uencNumber_byElements (h : Entered .uenc s) : ByElements sch .uenc s (uencNumber sch s) := by
  have hbs : s.bs = [] := h
  refine .single (ph := .uenc) (by decide) (by simp [phaseMore, State.bsLen, hbs]) ?_
  refine (appendCode_bits sch s.n s).mono (fun t ht => ?_) fun _ _ => id
  simpa [phaseMore, State.bsLen] using ht.1

theorem udecNumber_byElements (h : Entered .udec s) : ByElements sch .udec s (udecNumber sch s) := by
  have hbp : s.bp = 0 := h
  refine .single (ph := .udec) (by decide) (by simp [phaseMore, hbp]) ?_
  show (udecNumber sch s).Ensures _
  refine readCode_post (fun v p _ hp _ => ?_) fun _ _ => trivial
  simpa [phaseMore] using Nat.ne_of_gt (hbp ▸ hp)

/-- An opened phase, worked element by element, comes to what the whole phase comes to. -/
theorem phaseWork_byElements {ph : Phase} (h : Entered ph s) : ByElements sch ph s (phaseWork sch ph s) := by
  cases ph with
  | idle => exact .leave rfl
  | lzwe => exact lzweWork_byElements
  | lzwd => exact lzwdWork_byElements h
  | ser => exact serWork_byElements h
  | des => exact desWork_byElements h
  | pack => exact packWork_byElements
  | unpack => exact unpackWork_byElements
  | uenc => exact uencNumber_byElements h
  | udec => exact udecNumber_byElements h

end Sys2Proof.Machine
end

section
/-! SUPPORT. A run step by step ends where the whole run does (93_implementation_defined.md U9): each phase, from its
opening, takes the machine to the opening of the next. -/

namespace Sys2Proof.Machine

open Sys2Proof.Claims

/-- The machine comes from the one state to the other by steps. -/
abbrev Steps : State → State → Prop := Relation.ReflTransGen fun s t => step s = .next t

/-- A run of `i` is in progress, and the host has no move left. -/
structure InRun (i : Instr) (s : State) : Prop where
  command : s.cmd = encode i
  status : s.status = statusStarted
  hostIn : s.hostIn = []

/-- A phase finds its registers fresh: `HV` from before `UNPACK` or `DES` on, `BP` before `UDEC` (10_state.md R33). -/
def FreshFor (ph : Phase) (s : State) : Prop := (ph = .unpack ∨ ph = .des → s.hv = 0) ∧ (ph = .udec → s.bp = 0)

variable {i : Instr} {ph ph' : Phase} {s t : State} {r : Run}

/-! ## The fields a run in progress keeps -/

theorem phaseUnit_touches (sch : Scheme) (ph : Phase) : Run.Touches ph.touches (phaseUnit sch ph) := by
  intro s
  cases ph with
  | idle => exact .refl _ s
  | lzwe => exact lzweByte_touches s
  | lzwd =>
    simp only [phaseUnit, lzwdToken]
    split
    · exact lzwdFirst_touches s
    · exact lzwdNext_touches s
  | ser =>
    simp only [phaseUnit, serUnit]
    split
    · exact (appendCode_touches sch _).mono (by decide) s
    · exact serToken_touches sch s
  | des =>
    simp only [phaseUnit, desUnit]
    split
    · exact desHeader_touches sch s
    · exact desToken_touches sch s
  | pack => exact packByte_touches s
  | unpack => exact unpackByte_touches s
  | uenc => exact appendCode_touches sch _ s
  | udec => exact udecNumber_touches sch s

/-- No phase writes `CMD`, `STATUS` or the host's side. -/
theorem InRun.of_untouched (h : InRun i s) (hu : Untouched (.phase :: ph.touches) s t) : InRun i t := by
  have kept (f : Field) (hf : f ∈ [.cmd, .status, .hostIn]) : f.Same s t := by
    refine hu f ?_
    revert hf
    cases ph <;> revert f <;> decide
  exact ⟨Eq.trans (kept .cmd (by decide)) h.command, Eq.trans (kept .status (by decide)) h.status,
    Eq.trans (kept .hostIn (by decide)) h.hostIn⟩

/-- Nor does a phase write `PHASE` after its opening. -/
theorem phase_of_untouched (hu : Untouched ph.touches s t) : t.phase = s.phase :=
  hu .phase (by cases ph <;> decide)

theorem untouched_cons_phase (hu : Untouched ph.touches s t) : Untouched (.phase :: ph.touches) s t :=
  hu.mono (List.subset_cons_self _ _)

/-! ## The opening of a phase -/

/-- Phase `ph` of a run of `i` is opened and nothing of it done yet. -/
structure Opened (i : Instr) (ph : Phase) (s : State) : Prop where
  inRun : InRun i s
  phase : s.phase = ph
  entered : Entered ph s
  hv : ph = .unpack → s.hv = 0

theorem enterPhase_phase (ph : Phase) (hph : ph ≠ .idle) (s : State) :
    (enterPhase ph s).Ensures fun t => t.phase = ph := by
  cases ph with
  | idle => exact absurd rfl hph
  | lzwe | lzwd =>
    simp only [enterPhase, enterLzwe, enterLzwd, Run.post_bind]
    exact initDict_post rfl trivial
  | ser | des | pack | unpack | uenc | udec => exact rfl

/-- An opening puts the cursors and buffers of its phase where the phase starts. -/
theorem enterPhase_entered (h : FreshFor ph s) : (enterPhase ph s).Ensures (Entered ph) := by
  obtain ⟨hhv, hbp⟩ := h
  cases ph with
  | lzwe | lzwd =>
    simp only [enterPhase, enterLzwe, enterLzwd, Run.post_bind]
    exact initDict_post (by simp [Entered]) trivial
  | ser => exact ⟨rfl, rfl⟩
  | des => exact ⟨hhv (.inr rfl), rfl⟩
  | uenc => exact rfl
  | udec => exact hbp rfl
  | idle | pack | unpack => trivial

theorem idle_not_mem_phasesOf (i : Instr) : .idle ∉ phasesOf i := by cases i <;> decide

theorem enterPhase_opened (hph : ph ≠ .idle) (hs : InRun i s) (hfresh : FreshFor ph s) :
    (enterPhase ph s).Ensures (Opened i ph) := by
  have htouch : (enterPhase ph s).Ensures (Untouched (.phase :: ph.touches) s) :=
    (enterPhase_touches ph s).mono (fun _ => id) fun _ _ _ => trivial
  refine (htouch.and ((enterPhase_phase ph hph s).and (enterPhase_entered hfresh))).mono (fun t ht => ?_) fun _ _ => id
  obtain ⟨hu, hphase, hentered⟩ := ht
  refine ⟨hs.of_untouched hu, hphase, hentered, ?_⟩
  rintro rfl
  exact Eq.trans (hu .hv (by decide)) (hfresh.1 (.inl rfl))

/-- `DES` is the only later phase that needs a fresh register, and `UNPACK` before it leaves `HV` alone. -/
theorem Opened.freshFor_next (h : Opened i ph s) (hmem : ph ∈ phasesOf i) (hu : Untouched ph.touches s t)
    (hnext : nextPhase i ph = some ph') : FreshFor ph' t := by
  obtain ⟨hprec, -⟩ := nextPhase_precedes hnext
  cases hprec with
  | opening => exact absurd hmem (idle_not_mem_phasesOf i)
  | unpack_des => exact ⟨fun _ => Eq.trans (hu .hv (by decide)) (h.hv rfl), by simp⟩
  | lzwe_ser | ser_pack | des_lzwd => simp [FreshFor]

/-! ## The engine's steps -/

/-- The engine's turn in the phase of a run. -/
theorem step_inRun (h : InRun i s) (hmem : s.phase ∈ phasesOf i) : step s = .next (runStep i s) := by
  have hdecode : decode s.cmd = .ok i := h.command ▸ decode_encode i
  simp [step, nextEvent, h.hostIn, engineTurn, busy_of_started h.status, engineStep, hdecode, hmem]

theorem runScheme_inRun (h : InRun i s) : runScheme s = commandScheme i := by
  rw [runScheme, h.command, commandScheme]

/-- An error ends the run in the middle of a phase as it does at the end of one. -/
theorem advance_raised (i : Instr) (ph : Phase) (e : ErrKind) (t : State) :
    advance i ph (.raised e t) = errorStop (writeSet i) e t := by
  unfold advance
  split <;> rfl

/-- A phase worked element by element, step by step. -/
theorem steps_of_byElements (h : ByElements (commandScheme i) ph s r) (hgrain : s.params.grain ≠ .perPhase)
    (hmem : ph ∈ phasesOf i) (hs : InRun i s) (hph : s.phase = ph) : Steps s (advance i ph r) := by
  have turn {u : State} (hu : InRun i u) (hph : u.phase = ph) (hgrain : u.params.grain ≠ .perPhase) :
      step u = .next (if phaseMore ph u then settle (writeSet i) (phaseUnit (commandScheme i) ph u)
        else advance i ph (leavePhase ph u)) := by
    rw [step_inRun hu (hph ▸ hmem), runStep, runScheme_inRun hu, hph]
    split
    · contradiction
    · rfl
  induction h with
  | leave hmore => exact .single (by rw [turn hs hph hgrain, hmore]; rfl)
  | stop hmore hunit => exact .single (by rw [turn hs hph hgrain, hmore, hunit, advance_raised]; rfl)
  | @unit s t r hmore hunit _ ih =>
    have hu := (phaseUnit_touches (commandScheme i) ph).untouched hunit
    have hparams : t.params = s.params := hu .params (by cases ph <;> decide)
    refine .head (by rw [turn hs hph hgrain, hmore, hunit]; rfl) (ih ?_ ?_ ?_)
    · rwa [hparams]
    · exact hs.of_untouched (untouched_cons_phase hu)
    · exact (phase_of_untouched hu).trans hph

/-- A whole phase, in steps of either size. -/
theorem Opened.steps (h : Opened i ph s) (hmem : ph ∈ phasesOf i) :
    Steps s (advance i ph (phaseWork (commandScheme i) ph s)) := by
  obtain ⟨hs, rfl, hentered, -⟩ := h
  by_cases hgrain : s.params.grain = .perPhase
  · refine .single ?_
    rw [step_inRun hs hmem, runStep, runScheme_inRun hs, hgrain]
  · exact steps_of_byElements (phaseWork_byElements hentered) hgrain hmem hs rfl

/-! ## The phases in a row -/

theorem nextPhase_eq_head? {pre rest : List Phase} (h : phasesOf i = pre ++ ph :: rest) :
    nextPhase i ph = rest.head? := by
  have hnodup : (phasesOf i).Nodup := by cases i <;> decide
  rw [h] at hnodup
  have hpre : ∀ p ∈ pre, (p != ph) = true := fun p hp =>
    bne_iff_ne.2 (List.disjoint_of_nodup_append hnodup hp |> fun hne => by rintro rfl; exact hne List.mem_cons_self)
  rw [nextPhase, h, List.dropWhile_append_of_pos hpre, List.dropWhile_cons_of_neg (by simp), List.tail_cons]

/-- From the opening of any phase, the steps of the run come to where the rest of its rule ends. -/
theorem Opened.steps_rest {pre rest : List Phase} (h : Opened i ph s) (hphases : phasesOf i = pre ++ ph :: rest) :
    Steps s (finishRun (writeSet i) ((phaseWork (commandScheme i) ph s).bind (phasesRun (commandScheme i) rest))) := by
  have hmem : ph ∈ phasesOf i := by simp [hphases]
  refine (h.steps hmem).trans ?_
  have hnext := nextPhase_eq_head? hphases
  induction rest generalizing pre ph s with
  | nil =>
    rw [advance, hnext, phasesRun, Run.bind_done]
    exact .refl
  | cons ph' rest ih =>
    cases hwork : phaseWork (commandScheme i) ph s with
    | raised e t =>
      rw [advance_raised]
      exact .refl
    | ok t =>
      have hu := (phaseWork_touches (commandScheme i) ph).untouched hwork
      have ht : InRun i t := h.inRun.of_untouched (untouched_cons_phase hu)
      have hmem' : ph' ∈ phasesOf i := by simp [hphases]
      have hopened := enterPhase_opened (fun he => idle_not_mem_phasesOf i (he ▸ hmem')) ht
        (h.freshFor_next hmem hu hnext)
      rw [advance, hnext, Run.bind_ok]
      simp only [List.head?_cons, Run.bind_ok, phasesRun]
      cases henter : enterPhase ph' t with
      | raised e u => exact .refl
      | ok u =>
        rw [henter] at hopened
        have hphases' : phasesOf i = (pre ++ [ph]) ++ ph' :: rest := by simp [hphases]
        exact (hopened.steps hmem').trans (ih hopened hphases' hmem' (nextPhase_eq_head? hphases'))

/-! ## The whole run -/

/-- A run begun step by step ends where the whole run does. -/
theorem beginStepped_steps (i : Instr) (hin : s.hostIn = []) :
    Steps (beginStepped i s) (finishRun (writeSet i) (ruleOf i (beginCommand i s))) := by
  have hs : InRun i (beginCommand i s) := ⟨rfl, rfl, hin⟩
  rw [ruleOf_eq_phasesRun, beginStepped]
  cases emptyInput i (beginCommand i s) with
  | some t => exact .refl
  | none =>
    obtain ⟨ph, rest, hphases⟩ : ∃ ph rest, phasesOf i = ph :: rest :=
      List.exists_cons_of_ne_nil (by cases i <;> decide)
    have hmem : ph ∈ phasesOf i := by simp [hphases]
    have hopened := enterPhase_opened (fun he => idle_not_mem_phasesOf i (he ▸ hmem)) hs ⟨fun _ => rfl, fun _ => rfl⟩
    simp only [hphases, List.headD_cons, Option.elim_none, phasesRun]
    cases henter : enterPhase ph (beginCommand i s) with
    | raised e u => exact .refl
    | ok u =>
      rw [henter] at hopened
      exact hopened.steps_rest (pre := []) hphases

theorem run_succ_of_step (h : step s = .next t) (j : Nat) :
    Host.Core.run Sys2Proof.core (j + 1) s = Host.Core.run Sys2Proof.core j t := by
  have hstep : Sys2Proof.core.step s = .next t := h
  simp only [Host.Core.run, hstep]

/-- A machine that has come to a state it stays in is there after all numbers of steps that are large enough. -/
theorem Steps.run_eventually (h : Steps s t) (hstay : step t = .next t) :
    ∃ k, ∀ j, k ≤ j → Host.Core.run Sys2Proof.core j s = .next t := by
  induction h using Relation.ReflTransGen.head_induction_on with
  | refl =>
    refine ⟨0, fun j _ => ?_⟩
    induction j with
    | zero => rfl
    | succ j ih => exact (run_succ_of_step hstay j).trans (ih (Nat.zero_le j))
  | @head s u hstep _ ih =>
    obtain ⟨k, hk⟩ := ih
    refine ⟨k + 1, fun j hj => ?_⟩
    obtain ⟨j, rfl⟩ := Nat.exists_eq_add_of_le' (Nat.le_of_add_left_le hj)
    exact (run_succ_of_step hstep j).trans (hk j (Nat.le_of_succ_le_succ hj))

/-- An idle engine without a host move stays where it is (70_reset_and_hazards.md R301). -/
theorem step_idle (hidle : s.busy = false) (hin : s.hostIn = []) : step s = .next s := by
  simp [step, nextEvent, hin, engineTurn, hidle]

/-- Where `START c` by an idle engine leads in the end. -/
def endOf (c : Word8) (s : State) : State :=
  match decode c with
  | .error _ => illegalCommand c s
  | .ok i => finishRun (writeSet i) (ruleOf i (beginCommand i s))

theorem endOf_withGrain (c : Word8) (g : Grain) (s : State) : endOf c (withGrain g s) = withGrain g (endOf c s) := by
  unfold endOf
  cases decode c with
  | error why => rfl
  | ok i =>
    have hrule := ruleOf_ignoresGrain i g (beginCommand i s)
    exact (congrArg (finishRun (writeSet i)) hrule).trans (finishRun_map_withGrain _ g _)

theorem statusBusy_statusError (e : ErrKind) : statusBusy (statusError e) = false := by
  cases e <;> decide

theorem finishRun_idle (ws : List Dest) (r : Run) : (finishRun ws r).busy = false := by
  cases r with
  | ok t => simp [finishRun, State.busy, statusBusy, statusEnded]
  | raised e t => exact statusBusy_statusError e

theorem finishRun_hostIn (i : Instr) (s : State) : (finishRun (writeSet i) (ruleOf i s)).hostIn = s.hostIn := by
  have hkeeps := ruleOf_keeps i s
  cases hr : ruleOf i s with
  | ok t =>
    obtain ⟨-, -, -, hin, -⟩ := hkeeps t (.inl hr)
    exact hin
  | raised e t =>
    obtain ⟨-, -, -, hin, -⟩ := hkeeps t (.inr ⟨e, hr⟩)
    exact hin

theorem endOf_idle (c : Word8) (s : State) : (endOf c s).busy = false ∧ (endOf c s).hostIn = s.hostIn := by
  unfold endOf
  cases decode c with
  | error why => exact ⟨statusBusy_statusError _, rfl⟩
  | ok i => exact ⟨finishRun_idle _ _, finishRun_hostIn i _⟩

/-- In every granularity the steps of a run lead to its end. -/
theorem hostStart_steps (c : Word8) (hidle : s.busy = false) (hin : s.hostIn = []) :
    ∃ u, hostStart c s = .next u ∧ Steps u (endOf c s) := by
  simp only [hostStart, hidle, endOf]
  cases decode c with
  | error why => exact ⟨_, rfl, .refl⟩
  | ok i =>
    cases s.params.grain with
    | perRun => exact ⟨_, exec_eq_runCommand i s, .refl⟩
    | perPhase | perElement => exact ⟨_, rfl, beginStepped_steps i hin⟩

/-- With one step per run the first step is the whole run. -/
theorem hostStart_perRun {c : Word8} (hidle : s.busy = false) (hgrain : s.params.grain = .perRun) :
    hostStart c s = .next (endOf c s) := by
  simp only [hostStart, hidle, hgrain, endOf]
  cases decode c with
  | error why => rfl
  | ok i => exact exec_eq_runCommand i s

/-- Settles O57: `START` leads by steps to the end of the whole run, which is the same state in every granularity, and
an idle state that nothing changes. -/
theorem granularityDoesNotMatter : Obligations.GranularityDoesNotMatter := by
  intro s t c g hidle hstep
  have hwhole : hostStart c (withGrain .perRun (afterMove [] s)) = .next t := hstep
  rw [hostStart_perRun (s := withGrain .perRun (afterMove [] s)) hidle rfl, endOf_withGrain] at hwhole
  cases hwhole
  have hend : withGrain g (withGrain .perRun (endOf c (afterMove [] s))) = endOf c (withGrain g (afterMove [] s)) :=
    (endOf_withGrain c g _).symm
  obtain ⟨u, hu, hsteps⟩ := hostStart_steps c (s := withGrain g (afterMove [] s)) hidle rfl
  obtain ⟨hendIdle, hendIn⟩ := endOf_idle c (withGrain g (afterMove [] s))
  rw [hend]
  exact Steps.run_eventually (.head hu hsteps) (step_idle hendIdle hendIn)

end Sys2Proof.Machine
end

section
/-! SUPPORT. The dictionary as a function of the phrases that were spelled so far (40_lzw_engine.md R131, R132): the
literals, then for each phrase but the last one that phrase and the first byte of the next. Both `LZWE` and `LZWD` keep
`DICT` equal to it. -/

namespace Sys2Proof.Machine

open Sys2Proof.Claims

/-- The entry inserted between the phrase `p` and the phrase `q` after it. -/
def joinNext (p q : Phrase) : Phrase := p ++ q.take 1

/-- The dictionary after the phrases `ps`. -/
def lzwDict (ps : List Phrase) : List Phrase := seedDict ++ List.zipWith joinNext ps ps.tail

theorem zipWith_tail_concat {α β : Type} (f : α → α → β) (xs : List α) (x y : α) :
    List.zipWith f (xs ++ [x, y]) (xs ++ [x, y]).tail = List.zipWith f (xs ++ [x]) (xs ++ [x]).tail ++ [f x y] := by
  induction xs with
  | nil => rfl
  | cons a xs ih => cases xs <;> simp_all

theorem lzwDict_singleton (p : Phrase) : lzwDict [p] = seedDict := by simp [lzwDict]

/-- One more phrase inserts one more entry. -/
theorem lzwDict_concat (ps : List Phrase) (p q : Phrase) :
    lzwDict (ps ++ [p, q]) = lzwDict (ps ++ [p]) ++ [joinNext p q] := by
  rw [lzwDict, lzwDict, zipWith_tail_concat, List.append_assoc]

theorem lzwDict_length (ps : List Phrase) : (lzwDict ps).length = 256 + (ps.length - 1) := by
  simp [lzwDict, seedDict_length]

theorem lzwDict_literal (ps : List Phrase) {c : Nat} (hc : c < 256) : (lzwDict ps)[c]? = some [BitVec.ofNat 8 c] := by
  rw [lzwDict, List.getElem?_append_left (by rwa [seedDict_length]), seedDict_getElem? hc]

/-- The entry of code `256 + k`. -/
theorem lzwDict_entry {ps : List Phrase} {k : Nat} (hk : k + 1 < ps.length) :
    (lzwDict ps)[256 + k]? = some (joinNext ps[k] ps[k + 1]) := by
  rw [lzwDict, List.getElem?_append_right (by simp [seedDict_length]), seedDict_length, Nat.add_sub_cancel_left,
    List.getElem?_zipWith]
  simp [hk, Nat.lt_of_succ_lt hk]

/-- Only the first byte of the last phrase is in the dictionary. -/
theorem lzwDict_extend_last (ps : List Phrase) {w : Phrase} (v : Phrase) (hw : w ≠ [] ∨ ps = []) :
    lzwDict (ps ++ [w ++ v]) = lzwDict (ps ++ [w]) := by
  rcases List.eq_nil_or_concat ps with rfl | ⟨qs, q, rfl⟩
  · simp [lzwDict_singleton]
  · obtain hw | hnil := hw
    · have hjoin : joinNext q (w ++ v) = joinNext q w := by
        obtain ⟨a, w, rfl⟩ := List.exists_cons_of_ne_nil hw
        rfl
      simp only [List.concat_eq_append, List.append_assoc, List.singleton_append, lzwDict_concat, hjoin]
    · simp at hnil

/-! ## Tokens and their phrases -/

/-- `ps` are the phrases of the codes `tokens`. -/
def Spells (dict : List Phrase) (tokens : List Token) (ps : List Phrase) : Prop :=
  List.Forall₂ (fun c p => dict[c]? = some p) tokens ps

variable {dict : List Phrase} {tokens : List Nat} {ps : List Phrase}

/-- A code keeps its phrase when more are inserted. -/
theorem Spells.append (h : Spells dict tokens ps) (more : List Phrase) : Spells (dict ++ more) tokens ps :=
  List.Forall₂.imp (fun c p hc => by
    rw [List.getElem?_append_left (List.getElem?_eq_some_iff.1 hc).1, hc]) h

theorem Spells.concat (h : Spells dict tokens ps) {c : Token} {p : Phrase} (hc : dict[c]? = some p) :
    Spells dict (tokens ++ [c]) (ps ++ [p]) :=
  List.rel_append h (.cons hc .nil)

theorem phraseOf_eq {c : Token} {p : Phrase} (h : dict[c]? = some p) : phraseOf dict c = p := by
  rw [phraseOf, List.getD_eq_getElem?_getD, h, Option.getD_some]

theorem Spells.map_phraseOf (h : Spells dict tokens ps) : tokens.map (phraseOf dict) = ps := by
  induction h with
  | nil => rfl
  | cons hc _ ih => rw [List.map_cons, phraseOf_eq hc, ih]

/-- The dictionary of the phrases is the one that a pass over their tokens builds. -/
theorem Spells.builtBy (h : Spells dict tokens ps) (hdict : dict = lzwDict ps) : BuiltBy tokens dict := by
  have hlen : tokens.length = ps.length := List.Forall₂.length_eq h
  have hphrase {k : Nat} (hk : k < ps.length) : phraseOf dict (tokens.getD k 0) = ps[k] := by
    have hget := congrArg (fun l => l.getD k []) h.map_phraseOf
    simpa [hk, hlen] using hget
  refine ⟨by rw [hdict, lzwDict_length, hlen], fun c hc => phraseOf_eq (hdict ▸ lzwDict_literal ps hc), fun k hk => ?_⟩
  rw [hlen] at hk
  rw [hphrase (Nat.lt_of_succ_lt hk), hphrase hk]
  exact phraseOf_eq (hdict ▸ lzwDict_entry hk)

/-! ## What a pass over tokens builds -/

theorem validTokens_le (h : ValidTokens tokens) {k : Nat} (hk : k < tokens.length) : tokens.getD k 0 ≤ 255 + k := h k hk

/-- Codes are literals or entries. -/
theorem code_cases (c : Nat) : c < 256 ∨ ∃ k, c = 256 + k := by
  obtain hc | hc := Nat.lt_or_ge c 256
  · exact .inl hc
  · exact .inr (Nat.exists_eq_add_of_le hc)

/-- No phrase is empty. -/
theorem builtBy_phraseOf_ne_nil (h : BuiltBy tokens dict) (hvalid : ValidTokens tokens) {c : Nat}
    (hc : c < dict.length) : phraseOf dict c ≠ [] := by
  obtain ⟨hlen, hliteral, hentry⟩ := h
  induction c using Nat.strong_induction_on with
  | _ c ih =>
    obtain hlit | ⟨k, rfl⟩ := code_cases c
    · simp [hliteral c hlit]
    · have hk : k + 1 < tokens.length := by omega
      have hcode := validTokens_le hvalid (show k < tokens.length by omega)
      rw [hentry k hk]
      exact List.append_ne_nil_of_left_ne_nil (ih _ (by omega) (by omega)) _

/-- A valid token is the code of a phrase in the end. -/
theorem builtBy_token_lt (h : BuiltBy tokens dict) (hvalid : ValidTokens tokens) {c : Nat} (hc : c ∈ tokens) :
    c < dict.length := by
  obtain ⟨hlen, -, -⟩ := h
  obtain ⟨k, hk, rfl⟩ := List.mem_iff_getElem.1 hc
  have hcode := validTokens_le hvalid hk
  rw [List.getD_eq_getElem _ _ hk] at hcode
  omega

/-- Every token brings at least one byte. -/
theorem builtBy_length_le (h : BuiltBy tokens dict) (hvalid : ValidTokens tokens) :
    tokens.length ≤ (tokens.map (phraseOf dict)).flatten.length := by
  have hone : ∀ n ∈ (tokens.map (phraseOf dict)).map List.length, 1 ≤ n := by
    intro n hn
    simp only [List.map_map, List.mem_map] at hn
    obtain ⟨c, hc, rfl⟩ := hn
    exact List.length_pos_iff.2 (builtBy_phraseOf_ne_nil h hvalid (builtBy_token_lt h hvalid hc))
  have hsum := List.card_nsmul_le_sum _ 1 hone
  simpa [List.length_flatten] using hsum

/-- A pass over valid tokens builds one dictionary: the entry of code `256 + k` is a phrase known before and the first
byte of one that is known, or that begins as the entry itself (40_lzw_engine.md R140, R145). -/
theorem builtBy_phraseOf_unique {dict' : List Phrase} (h : BuiltBy tokens dict) (h' : BuiltBy tokens dict')
    (hvalid : ValidTokens tokens) {c : Nat} (hc : c < dict.length) : phraseOf dict c = phraseOf dict' c := by
  obtain ⟨hlen, hliteral, hentry⟩ := id h
  obtain ⟨-, hliteral', hentry'⟩ := h'
  induction c using Nat.strong_induction_on with
  | _ c ih =>
    obtain hlit | ⟨k, rfl⟩ := code_cases c
    · rw [hliteral c hlit, hliteral' c hlit]
    · have hk : k + 1 < tokens.length := by omega
      have hcode := validTokens_le hvalid (show k < tokens.length by omega)
      have hnext := validTokens_le hvalid hk
      have hprev := ih (tokens.getD k 0) (by omega) (by omega)
      rw [hentry k hk, hentry' k hk, hprev]
      congr 1
      obtain hlt | heq := Nat.lt_or_eq_of_le hnext
      · rw [ih _ (by omega) (by omega)]
      · have hself : tokens.getD (k + 1) 0 = 256 + k := by omega
        have hne := builtBy_phraseOf_ne_nil h hvalid (c := tokens.getD k 0) (by omega)
        rw [hself, hentry k hk, hentry' k hk, hprev]
        obtain ⟨a, w, hw⟩ := List.exists_cons_of_ne_nil (hprev ▸ hne)
        rw [hw]
        rfl

theorem builtBy_unique {dict' : List Phrase} (h : BuiltBy tokens dict) (h' : BuiltBy tokens dict')
    (hvalid : ValidTokens tokens) : dict = dict' := by
  have hlen : dict.length = dict'.length := h.1.trans h'.1.symm
  refine List.ext_getElem hlen fun c hc hc' => ?_
  have hphrase := builtBy_phraseOf_unique h h' hvalid hc
  rwa [phraseOf, phraseOf, List.getD_eq_getElem _ _ hc, List.getD_eq_getElem _ _ hc'] at hphrase

end Sys2Proof.Machine
end

section
/-! SUPPORT. `LZWE` (40_lzw_engine.md R133 to R136): its tokens spell the input read so far but the current match, and
its dictionary is that of their phrases and the match. -/

namespace Sys2Proof.Machine

open Sys2Proof.Claims

theorem seedDict_nodup : seedDict.Nodup := by
  refine List.nodup_range.map_on fun x hx y hy hxy => ?_
  have hbyte : BitVec.ofNat 8 x = BitVec.ofNat 8 y := by simpa using hxy
  have hnat := congrArg BitVec.toNat hbyte
  rw [List.mem_range] at hx hy
  simpa [Nat.mod_eq_of_lt hx, Nat.mod_eq_of_lt hy] using hnat

theorem literal_mem_lzwDict (ps : List Phrase) (b : Byte) : [b] ∈ lzwDict ps := by
  have hb := lzwDict_literal ps b.isLt
  rw [BitVec.ofNat_toNat, BitVec.setWidth_eq] at hb
  exact List.mem_of_getElem? hb

/-- One more token is valid when it is a code of its moment. -/
theorem validTokens_concat_iff (tokens : List Nat) (c : Nat) :
    ValidTokens (tokens ++ [c]) ↔ ValidTokens tokens ∧ c ≤ 255 + tokens.length := by
  constructor
  · intro h
    refine ⟨fun k hk => ?_, ?_⟩
    · have hcode := validTokens_le h (k := k) (by simp; omega)
      rwa [List.getD_append _ _ _ _ hk] at hcode
    · simpa using validTokens_le h (k := tokens.length) (by simp)
  · rintro ⟨h, hc⟩ k hk
    obtain hlt | rfl := Nat.lt_or_eq_of_le (show k ≤ tokens.length by simp at hk; omega)
    · rw [List.getD_append _ _ _ _ hlt]
      exact h k hlt
    · simpa using hc

/-- In the loop of `LZWE`: `ps` are the phrases emitted, `W` is a known phrase that the next token will bring. -/
structure Encoding (input : List Byte) (ps : List Phrase) (t : State) : Prop where
  ib : t.ib = input
  spells : Spells t.dict t.tk ps
  dict : t.dict = lzwDict (ps ++ [t.w])
  cover : ps.flatten ++ t.w = input.take t.ip
  begun : t.w = [] → ps = []
  known : t.w ≠ [] → t.w ∈ t.dict
  nodup : t.dict.Nodup
  valid : ValidTokens t.tk

/-- After the flush. -/
structure Encoded (input : List Byte) (ps : List Phrase) (t : State) : Prop where
  spells : Spells t.dict t.tk ps
  dict : t.dict = lzwDict ps
  cover : ps.flatten = input
  nodup : t.dict.Nodup
  valid : ValidTokens t.tk

variable {input : List Byte} {ps : List Phrase} {s t : State}

/-- The token emitted for `W` is its code, and a code of the moment (R136). -/
theorem Encoding.emit (h : Encoding input ps t) (hw : t.w ≠ []) : ∃ c, findCode t.dict t.w = some c ∧
    Spells t.dict (t.tk ++ [c]) (ps ++ [t.w]) ∧ ValidTokens (t.tk ++ [c]) := by
  obtain ⟨c, hfind⟩ := Option.ne_none_iff_exists'.1 fun hnone => findCode_none.1 hnone (h.known hw)
  have hc := findCode_some hfind
  have hlt : c < t.dict.length := (List.getElem?_eq_some_iff.1 hc).1
  have hlen : t.tk.length = ps.length := List.Forall₂.length_eq h.spells
  refine ⟨c, hfind, h.spells.concat hc, (validTokens_concat_iff t.tk c).2 ⟨h.valid, ?_⟩⟩
  rw [h.dict, lzwDict_length] at hlt
  simp at hlt
  omega

/-- One byte either extends the match, or is where the next match begins. -/
theorem lzweByte_encoding (h : Encoding input ps t) : (lzweByte t).Ensures fun u => ∃ ps, Encoding input ps u := by
  unfold lzweByte
  split
  · exact ⟨ps, h⟩
  · rename_i b hb
    have hread : input.take (t.ip + 1) = input.take t.ip ++ [b] := by rw [List.take_add_one, ← h.ib, hb]; rfl
    simp only
    split
    · rename_i c hfind
      refine ⟨ps, { h with dict := ?_, cover := ?_, begun := by simp, known := fun _ => ?_ }⟩
      · rw [h.dict, lzwDict_extend_last ps [b] (Decidable.not_or_of_imp h.begun)]
      · rw [hread, ← h.cover, List.append_assoc]
      · exact List.mem_of_getElem? (findCode_some hfind)
    · rename_i hfind
      have hnew := findCode_none.1 hfind
      have hlit : [b] ∈ t.dict := h.dict ▸ literal_mem_lzwDict _ b
      have hw : t.w ≠ [] := fun hnil => hnew (by simpa [hnil] using hlit)
      obtain ⟨c, hc, hspells, hvalid⟩ := h.emit hw
      have hnodup : (t.dict ++ [t.w ++ [b]]).Nodup := by simpa using h.nodup.concat hnew
      simp only [Run.post_bind, emitMatch, hc]
      refine appendTK_post (insertPhrase_post ⟨ps ++ [t.w], ?_⟩ trivial) trivial
      exact {
        ib := h.ib
        spells := hspells.append _
        dict := by simp only [h.dict, List.append_assoc, List.singleton_append, lzwDict_concat]; rfl
        cover := by simp [hread, ← h.cover]
        begun := by simp
        known := fun _ => List.mem_append_left _ hlit
        nodup := hnodup
        valid := hvalid }

/-- The flush brings the last token, unless the input is empty. -/
theorem lzweFlush_encoded (h : Encoding input ps t) (hend : t.ibLen ≤ t.ip) :
    (lzweFlush t).Ensures fun u => ∃ ps, Encoded input ps u := by
  have hcover : ps.flatten ++ t.w = input := by
    rw [h.cover, ← h.ib]
    exact List.take_of_length_le hend
  unfold lzweFlush
  split
  · rename_i hw
    obtain rfl := h.begun hw
    refine ⟨[], h.spells, ?_, by simpa [hw] using hcover, h.nodup, h.valid⟩
    rw [h.dict, List.nil_append, lzwDict_singleton]
    simp [lzwDict]
  · rename_i hw
    obtain ⟨c, hc, hspells, hvalid⟩ := h.emit hw
    simp only [emitMatch, hc]
    exact appendTK_post ⟨ps ++ [t.w], hspells, h.dict, by simpa using hcover, h.nodup, hvalid⟩ trivial

/-- What `LZWE` ends in. -/
theorem lzwePhase_encoded (s : State) : (lzwePhase s).Ensures fun t => ∃ ps, Encoded s.ib ps t := by
  simp only [lzwePhase, enterLzwe, Run.post_bind]
  refine initDict_post ?_ trivial
  have hstart : Encoding s.ib [] { s with phase := .lzwe, tk := [], dict := seedDict, w := [], ip := 0 } := {
    ib := rfl
    spells := .nil
    dict := (lzwDict_singleton []).symm
    cover := rfl
    begun := fun _ => rfl
    known := fun hne => absurd rfl hne
    nodup := seedDict_nodup
    valid := by simp [ValidTokens] }
  have hbyte (t : State) (ht : ∃ ps, Encoding s.ib ps t) : (lzweByte t).Ensures fun u => ∃ ps, Encoding s.ib ps u := by
    obtain ⟨ps, hps⟩ := ht
    exact lzweByte_encoding hps
  have hloop := Run.Post.countdown BytesLeft (fun _ t ht _ => hbyte t ht) (fun _ _ => lzweByte_left) ⟨[], hstart⟩ rfl
  refine hloop.bind fun t ht => ?_
  obtain ⟨⟨ps, hps⟩, hleft⟩ := ht
  exact lzweFlush_encoded hps (Nat.le_of_sub_eq_zero hleft)

/-- Settles O41: the tokens' phrases are the input, and the dictionary is the one that the phrases build. -/
theorem lzwEncodeResult : Obligations.LzwEncodeResult := by
  intro s h
  obtain ⟨t, ht, -⟩ := (lzwePhase_unbounded (s := beginCommand .lzwe s) h).exists_ok
  have hend := lzwePhase_encoded (beginCommand .lzwe s)
  rw [ht] at hend
  obtain ⟨ps, hspells, hdict, hcover, hnodup, hvalid⟩ := hend
  have hflat : (t.tk.map (phraseOf t.dict)).flatten = s.ib := by rw [hspells.map_phraseOf, hcover, beginCommand_ib]
  have hbuilt := hspells.builtBy hdict
  have hshort : t.tk.length ≤ s.ib.length := hflat ▸ builtBy_length_le hbuilt hvalid
  have hkept := (wholePhase_touches .gamma .lzwe).untouched ht
  refine ⟨_, exec_of_rule_ok (i := .lzwe) ht, endRun_status_of_started (hkept .status (by decide)),
    hkept .ib (by decide), ⟨fun hnil => ?_, fun hnil => ?_⟩, hflat, hbuilt, hvalid, hnodup, hbuilt.1, hshort⟩
  · rw [endRun_tk] at hnil
    simpa [hnil] using hflat.symm
  · rw [hnil] at hshort
    exact List.length_eq_zero_iff.1 (Nat.le_zero.1 hshort)

end Sys2Proof.Machine
end

section
/-! SUPPORT. `LZWD` (40_lzw_engine.md R139 to R143): its output is the phrases of the tokens read so far, and its
dictionary is that of those phrases; the first token that fails its test ends the run. -/

namespace Sys2Proof.Machine

open Sys2Proof.Claims

variable {tokens : List Nat} {ps : List Phrase} {s t : State}

/-! ## The test of a token (R140) -/

theorem tokenPhrase_eq_none_iff {dict : List Phrase} {prev : Phrase} {c : Nat} :
    tokenPhrase dict prev c = none ↔ dict.length < c := by
  by_cases hlt : c < dict.length
  · simp [tokenPhrase, hlt, Nat.le_of_lt hlt]
  · by_cases heq : c = dict.length
    · simp [tokenPhrase, heq]
    · simp [tokenPhrase, hlt, heq, lt_of_le_of_ne (Nat.le_of_not_lt hlt) (Ne.symm heq)]

/-- The phrase of a token is that of its code once the entry is inserted, the entry itself included. -/
theorem getElem?_of_tokenPhrase {dict : List Phrase} {prev p : Phrase} {c : Nat}
    (h : tokenPhrase dict prev c = some p) : (dict ++ [joinNext prev p])[c]? = some p := by
  unfold tokenPhrase at h
  split at h
  · rename_i hlt
    rw [List.getElem?_append_left hlt, h]
  · split at h
    · rename_i heq
      cases h
      have hjoin : joinNext prev (selfReferential prev) = selfReferential prev := by
        cases prev with
        | nil => rfl
        | cons a w => rfl
      rw [hjoin, List.getElem?_append_right heq.ge, heq, Nat.sub_self, List.getElem?_cons_zero]
    · cases h

/-! ## The loop -/

/-- In `LZWD`: `ps` are the phrases of the tokens before `TP`, all of them valid. -/
structure Decoding (tokens : List Nat) (ps : List Phrase) (t : State) : Prop where
  unbounded : t.params.Unbounded
  tk : t.tk = tokens
  spells : Spells t.dict (tokens.take t.tp) ps
  dict : t.dict = lzwDict ps
  ob : t.ob = ps.flatten
  prev : t.tp ≠ 0 → ∃ qs, ps = qs ++ [t.prev]
  valid : ValidTokens (tokens.take t.tp)

/-- The error of a token sequence that fails a test (R142). -/
abbrev BadToken (tokens : List Nat) (e : ErrKind) (_ : State) : Prop := e = .invalidCode ∧ ¬ ValidTokens tokens

theorem validTokens_take (h : ValidTokens tokens) (k : Nat) : ValidTokens (tokens.take k) := by
  intro j hj
  rw [List.length_take] at hj
  have hcode := validTokens_le h (k := j) (by omega)
  simpa [List.getD_eq_getElem?_getD, List.getElem?_take, show j < k by omega] using hcode

/-- The next token is read, and it is valid when it is at most `NC`. -/
theorem Decoding.read (h : Decoding tokens ps t) {c : Nat} (hc : t.tk[t.tp]? = some c) :
    tokens.take (t.tp + 1) = tokens.take t.tp ++ [c] ∧
      (ValidTokens (tokens.take (t.tp + 1)) ↔ c ≤ 255 + t.tp) := by
  rw [h.tk] at hc
  have hlt : t.tp < tokens.length := succ_le_of_getElem? hc
  have htake : tokens.take (t.tp + 1) = tokens.take t.tp ++ [c] := by rw [List.take_add_one, hc]; rfl
  refine ⟨htake, ?_⟩
  rw [htake, validTokens_concat_iff, List.length_take, Nat.min_eq_left hlt.le]
  exact and_iff_right h.valid

/-- As many phrases as tokens read. -/
theorem Decoding.length (h : Decoding tokens ps t) (htp : t.tp ≤ tokens.length) : ps.length = t.tp := by
  have hlen : (tokens.take t.tp).length = ps.length := List.Forall₂.length_eq h.spells
  rw [← hlen, List.length_take, Nat.min_eq_left htp]

theorem appendOB_post_unbounded {P : State → Prop} {E : ErrKind → State → Prop} (h : s.params.Unbounded)
    {v : List Byte} (ok : P { s with ob := s.ob ++ v }) : (appendOB v s).Post P E := by
  rw [appendOB_unbounded h]
  exact ok

/-- The first token must be a literal (R142). -/
theorem lzwdFirst_decoding (h : Decoding tokens ps t) (htp : t.tp = 0) :
    (lzwdFirst t).Post (fun u => ∃ ps, Decoding tokens ps u) (BadToken tokens) := by
  obtain rfl : ps = [] := List.length_eq_zero_iff.1 ((h.length (by omega)).trans htp)
  have hseed : t.dict = seedDict := by rw [h.dict, ← lzwDict_singleton [], lzwDict_singleton]; simp [lzwDict]
  unfold lzwdFirst
  split
  · exact ⟨[], h⟩
  · rename_i c hc
    obtain ⟨htake, hvalid⟩ := h.read hc
    simp only
    split
    · rename_i hnone
      rw [hseed, List.getElem?_eq_none_iff, seedDict_length] at hnone
      exact ⟨rfl, fun hall => by have := hvalid.1 (validTokens_take hall _); omega⟩
    · rename_i p hp
      have hlt : c < 256 := by rw [← seedDict_length, ← hseed]; exact (List.getElem?_eq_some_iff.1 hp).1
      have hcode : c ≤ 255 + t.tp := by rw [htp]; exact Nat.le_of_lt_succ hlt
      have hspells : Spells t.dict (tokens.take (t.tp + 1)) [p] := htake ▸ h.spells.concat hp
      have hob : t.ob ++ p = [p].flatten := by simp [h.ob]
      exact appendOB_post_unbounded (by exact h.unbounded) ⟨[p], h.unbounded, h.tk, hspells,
        hseed.trans (lzwDict_singleton p).symm, hob, fun _ => ⟨[], rfl⟩, hvalid.2 hcode⟩

/-- A later token must be at most `NC` (R140, R142). -/
theorem lzwdNext_decoding (h : Decoding tokens ps t) (htp : t.tp ≠ 0) :
    (lzwdNext t).Post (fun u => ∃ ps, Decoding tokens ps u) (BadToken tokens) := by
  obtain ⟨qs, rfl⟩ := h.prev htp
  unfold lzwdNext
  split
  · exact ⟨_, h⟩
  · rename_i c hc
    have hle : t.tp ≤ tokens.length := by
      have := succ_le_of_getElem? hc
      rw [h.tk] at this
      omega
    have hnc : t.dict.length = 255 + t.tp := by rw [h.dict, lzwDict_length, h.length hle]; omega
    obtain ⟨htake, hvalid⟩ := h.read hc
    simp only
    split
    · rename_i hnone
      rw [tokenPhrase_eq_none_iff, hnc] at hnone
      exact ⟨rfl, fun hall => by have := hvalid.1 (validTokens_take hall _); omega⟩
    · rename_i p hp
      have hcode : c ≤ 255 + t.tp := by
        rw [← hnc]
        exact Nat.le_of_not_lt (mt tokenPhrase_eq_none_iff.2 (hp ▸ Option.some_ne_none p))
      have hspells : Spells (t.dict ++ [joinNext t.prev p]) (tokens.take (t.tp + 1)) (qs ++ [t.prev] ++ [p]) :=
        htake ▸ (h.spells.append _).concat (getElem?_of_tokenPhrase hp)
      have hdict : t.dict ++ [joinNext t.prev p] = lzwDict (qs ++ [t.prev] ++ [p]) := by
        rw [h.dict, List.append_assoc, List.singleton_append, lzwDict_concat]
      have hob : t.ob ++ p = (qs ++ [t.prev] ++ [p]).flatten := by simp [h.ob]
      simp only [Run.post_bind]
      refine appendOB_post_unbounded (by exact h.unbounded) (insertPhrase_post_unbounded (by exact h.unbounded) ?_)
      exact ⟨_, h.unbounded, h.tk, hspells, hdict, hob, fun _ => ⟨_, rfl⟩, hvalid.2 hcode⟩

/-- `LZWD` is through with valid tokens, or stops at one that is not. -/
theorem lzwdWork_decoding (h : Decoding s.tk [] s) (htp : s.tp = 0) :
    (lzwdWork s).Post (fun t => (∃ ps, Decoding s.tk ps t) ∧ s.tk.length ≤ t.tp) (BadToken s.tk) := by
  by_cases htk : s.tkLen = 0
  · have hnone : s.tk[s.tp]? = none := List.getElem?_eq_none (htk.le.trans (Nat.zero_le _))
    simp only [lzwdWork, lzwdFirst, hnone, htk, Run.bind_ok]
    exact ⟨⟨[], h⟩, htk.le.trans (Nat.zero_le _)⟩
  · have hfirst := (lzwdFirst_decoding h htp).and (lzwdFirst_left htp (Nat.pos_of_ne_zero htk))
    refine hfirst.bind fun t ht => ?_
    obtain ⟨hdecoding, hleft⟩ := ht
    have hnext (k : Nat) (t : State) (ht : ∃ ps, Decoding s.tk ps t) (hleft : LzwdLeft (k + 1) t) :
        (lzwdNext t).Post (fun u => ∃ ps, Decoding s.tk ps u) (BadToken s.tk) := by
      obtain ⟨ps, hps⟩ := ht
      exact lzwdNext_decoding hps hleft.1
    refine (Run.Post.countdown LzwdLeft hnext (fun _ _ => lzwdNext_left) hdecoding hleft).mono (fun u hu => ?_)
      fun _ _ => id
    obtain ⟨⟨ps, hps⟩, -, hleft⟩ := hu
    exact ⟨⟨ps, hps⟩, by simp only [State.tkLen, hps.tk] at hleft; omega⟩

/-- What `LZWD` ends in. -/
structure Decoded (tokens : List Nat) (t : State) : Prop where
  valid : ValidTokens tokens
  builtBy : BuiltBy tokens t.dict
  ob : t.ob = (tokens.map (phraseOf t.dict)).flatten

theorem lzwdPhase_decoded (h : s.params.Unbounded) : (lzwdPhase s).Post (Decoded s.tk) (BadToken s.tk) := by
  simp only [lzwdPhase, enterLzwd, Run.post_bind]
  refine initDict_post_unbounded h ?_
  have hstart : Decoding s.tk [] { s with phase := .lzwd, ob := [], dict := seedDict, tp := 0 } := {
    unbounded := h
    tk := rfl
    spells := .nil
    dict := by simp [lzwDict]
    ob := rfl
    prev := fun hne => absurd rfl hne
    valid := by simp [ValidTokens] }
  refine (lzwdWork_decoding hstart rfl).mono (fun t ht => ?_) fun _ _ => id
  obtain ⟨⟨ps, hps⟩, hend⟩ := ht
  have hspells := hps.spells
  have hvalid := hps.valid
  rw [List.take_of_length_le hend] at hspells hvalid
  exact ⟨hvalid, hspells.builtBy hps.dict, by rw [hspells.map_phraseOf, hps.ob]⟩

/-! ## The obligations -/

/-- With valid tokens `LZWD` ends normally. -/
theorem lzwdPhase_valid (h : s.params.Unbounded) (hvalid : ValidTokens s.tk) :
    ∃ t, lzwdPhase s = .ok t ∧ Decoded s.tk t :=
  Run.Post.exists_ok ((lzwdPhase_decoded h).mono (fun _ => id) fun _ _ hbad => hbad.2 hvalid)

/-- Settles O42: every token passes its test, and its phrase is that of its code in the dictionary at the end. -/
theorem lzwDecodeResult : Obligations.LzwDecodeResult := by
  intro s h hvalid
  obtain ⟨t, ht, hdecoded⟩ := lzwdPhase_valid (s := beginCommand .lzwd s) h hvalid
  have hkept := (wholePhase_touches .gamma .lzwd).untouched ht
  have hlong : s.tk.length ≤ t.ob.length := hdecoded.ob ▸ builtBy_length_le hdecoded.builtBy hdecoded.valid
  exact ⟨_, exec_of_rule_ok (i := .lzwd) ht, endRun_status_of_started (hkept .status (by decide)),
    hkept .tk (by decide), hdecoded.builtBy, hdecoded.ob, hdecoded.builtBy.1, hlong⟩

/-- The error stop of a run is the error state of its start, when the phases have kept to their footprint. -/
theorem errorStop_eq_errorState {i : Instr} {u : State} (hu : Untouched (commandTouches i) (beginCommand i s) u)
    (e : ErrKind) : errorStop (writeSet i) e u = errorState (encode i) (writeSet i) e s := by
  obtain ⟨hcmd, hib, hob, htk, hbs, hn, -, -, -, -, -, -, -, -, -, hparams, hin, hout, hctr⟩ :=
    (hu.mono (List.subset_cons_self _ _)).frame
  simp only [endRun_cmd, endRun_ib, endRun_ob, endRun_tk, endRun_bs, endRun_n, endRun_params, endRun_hostIn,
    endRun_hostOut, endRun_freeCtr] at hcmd hib hob htk hbs hn hparams hin hout hctr
  have hite {α : Type} {d : Dest} {x y z : α} (h : d ∉ writeSet i → y = z) :
      (if (writeSet i).contains d then x else y) = if d ∈ writeSet i then x else z := by
    by_cases hd : d ∈ writeSet i
    · simp [hd]
    · simp [hd, h hd]
  simp only [errorStop, errorState, clearBuffers, freshWorking, statusError, hcmd, hib, hite hob, hite htk, hite hbs,
    hite hn, hparams, hin, hout, hctr]

/-- Where a rule stops, its phases have kept to their footprint. -/
theorem untouched_of_rule_raised {i : Instr} {e : ErrKind} {u : State}
    (h : ruleOf i (beginCommand i s) = .raised e u) : Untouched (commandTouches i) (beginCommand i s) u := by
  by_cases hc : ∃ sch, i = compressOf sch
  · obtain ⟨sch, rfl⟩ := hc
    rw [ruleOf_compressOf, compressRule] at h
    split at h
    · cases h
    · have hphases := compressPhases_touches sch (beginCommand (compressOf sch) s)
      simp only [h] at hphases
      exact hphases.2
  · have hrule := ruleOf_touches hc (beginCommand i s)
    rw [h] at hrule
    exact hrule.2

/-- A rule that raises an error makes a run that ends in the error state. -/
theorem exec_of_rule_raised {i : Instr} {e : ErrKind} {u : State} (h : ruleOf i (beginCommand i s) = .raised e u) :
    exec i s = .next (errorState (encode i) (writeSet i) e s) := by
  rw [exec_eq_runCommand, runCommand, h, finishRun, errorStop_eq_errorState (untouched_of_rule_raised h)]

/-- Settles O43: had every token passed its test, the run would have ended normally. -/
theorem lzwDecodeInvalidCode : Obligations.LzwDecodeInvalidCode := by
  intro s h hbad
  have hend := lzwdPhase_decoded (s := beginCommand .lzwd s) h
  cases hrun : lzwdPhase (beginCommand .lzwd s) with
  | ok t =>
    rw [hrun] at hend
    exact absurd hend.valid hbad
  | raised e t =>
    rw [hrun] at hend
    obtain ⟨rfl, -⟩ := hend
    exact exec_of_rule_raised (i := .lzwd) hrun

/-- Settles O44: `LZWD` builds from the tokens the one dictionary that `LZWE` built, and the tokens spell the input. -/
theorem lzwRoundTrip : Obligations.LzwRoundTrip := by
  intro s h
  obtain ⟨t, ht, -, -, -, hflat, hbuilt, hvalid, -, hnc, -⟩ := lzwEncodeResult s h
  have hparams : t.params = s.params := (params_keptByEvents s.params).exec .lzwe s t rfl ht
  obtain ⟨u, hu, hst, -, hbuilt', hob, hnc', -⟩ := lzwDecodeResult t (hparams ▸ h) hvalid
  refine ⟨t, u, ht, hu, hst, ?_, hnc'.trans hnc.symm⟩
  rw [hob, builtBy_unique hbuilt' hbuilt hvalid, hflat]

end Sys2Proof.Machine
end

section
/-! SUPPORT. Each decoder reads a code word back, whatever follows it (41_universal_codec.md R151, R175). -/

namespace Sys2Proof.Machine

open Sys2Proof.Claims

variable {tokenW : Option Nat} {n : Nat}

theorem returnValue_of_fits {v : Nat} (h : fitsWidth tokenW v = true) (used : Nat) :
    returnValue tokenW v used = .ok (v, used) := by
  rw [returnValue, if_pos h]

/-! ## Gamma (R155, R157) -/

theorem leadingZeros_zeros (k : Nat) (r : Bits) : leadingZeros (zeros k ++ true :: r) = k := by
  induction k with
  | zero => rfl
  | succ k ih => simpa [zeros, List.replicate_succ, leadingZeros] using ih

theorem gammaWord_length (n : Nat) : (gammaWord n).length = blen n - 1 + blen n := by
  simp [gammaWord, zeros]

theorem decGamma_gammaWord (hn : 1 ≤ n) (hfit : fitsWidth tokenW n = true) (rest : Bits) :
    decGamma tokenW (gammaWord n ++ rest) = .ok (n, (gammaWord n).length) := by
  obtain ⟨r, hr⟩ := bin_head hn
  have hpos := blen_pos hn
  have hlead : leadingZeros (gammaWord n ++ rest) = blen n - 1 := by
    rw [gammaWord, hr, List.append_assoc, List.cons_append, leadingZeros_zeros]
  have hbits : slice (gammaWord n ++ rest) (blen n - 1) (blen n - 1 + (blen n - 1 + 1)) = bin n := by
    rw [slice, gammaWord, List.append_assoc, List.drop_append_of_le_length (by simp [zeros]),
      List.drop_of_length_le (by simp [zeros]), List.nil_append, List.take_append_of_le_length (by simp; omega),
      List.take_of_length_le (by simp; omega)]
  have hlen := gammaWord_length n
  simp only [decGamma, hlead, hbits, val_bin, List.length_append, hlen]
  rw [if_neg (by omega), if_neg (by omega), returnValue_of_fits hfit]
  congr 2
  omega

/-! ## Delta (R160, R162) -/

theorem blen_le_self (n : Nat) : blen n ≤ n := by
  obtain rfl | rfl | hn : n = 0 ∨ n = 1 ∨ 2 ≤ n := by omega
  · rfl
  · exact blen_one.le
  · have := blen_lt hn
    omega

/-- `bin(n)` without its first bit denotes what is left of `n` below its highest power of 2. -/
theorem val_bin_tail (hn : 1 ≤ n) : 2 ^ (blen n - 1) + val (bin n).tail = n := by
  obtain ⟨r, hr⟩ := bin_head hn
  have hval := val_bin n
  have hlen := bin_length n
  rw [hr] at hval hlen ⊢
  rw [val_cons] at hval
  rw [← hlen]
  simpa using hval

theorem decDelta_deltaWord (hn : 1 ≤ n) (hfit : fitsWidth tokenW n = true) (rest : Bits) :
    decDelta tokenW (deltaWord n ++ rest) = .ok (n, (deltaWord n).length) := by
  have hword : deltaWord n = gammaWord (blen n) ++ (bin n).tail := by rw [deltaWord, slice_bin_tail]
  have hlen : (deltaWord n).length = (gammaWord (blen n)).length + (blen n - 1) := by simp [hword]
  have hgamma : decGamma tokenW (deltaWord n ++ rest) = .ok (blen n, (gammaWord (blen n)).length) := by
    rw [hword, List.append_assoc]
    exact decGamma_gammaWord (blen_pos hn) (fitsWidth_of_le (blen_le_self n) hfit) _
  have htail : slice (deltaWord n ++ rest) (gammaWord (blen n)).length
      ((gammaWord (blen n)).length + (blen n - 1)) = (bin n).tail := by
    rw [slice, hword, List.append_assoc, List.drop_left, Nat.add_sub_cancel_left,
      List.take_append_of_le_length (by simp), List.take_of_length_le (by simp)]
  simp only [decDelta, hgamma, htail, val_bin_tail hn, List.length_append, hlen]
  rw [if_neg (by omega), returnValue_of_fits hfit]

/-! ## Omega (R165, R167) -/

/-- The groups of `n`, written by the loop from `n` down. -/
theorem omegaGroups_of_two_le (h : 2 ≤ n) :
    omegaGroups n n [] = omegaGroups (blen n - 1) (blen n - 1) [] ++ bin n :=
  List.append_cancel_right (bs := [false]) (omegaWord_of_two_le h)

/-- The decoder's loop reads one group: the next value is that of the group. -/
theorem decOmegaFrom_group (hn : 1 ≤ n) (fuel used : Nat) (rest : Bits) :
    decOmegaFrom tokenW (fuel + 1) (blen n - 1) used (bin n ++ rest) =
      decOmegaFrom tokenW fuel n (used + blen n) rest := by
  obtain ⟨r, hr⟩ := bin_head hn
  have hk : blen n - 1 + 1 = blen n := Nat.sub_add_cancel (blen_pos hn)
  have hlen := bin_length n
  have hval := val_bin n
  rw [hr] at hlen hval
  rw [hr, List.cons_append, decOmegaFrom, hk, ← List.cons_append, if_neg (by rw [List.length_append]; omega),
    List.take_left' hlen, List.drop_left' hlen, hval]

/-- The loop reads all the groups of `n`; each of them has a bit for its turn. -/
theorem decOmegaFrom_groups (hn : 1 ≤ n) : ∃ turns ≤ (omegaGroups n n []).length, ∀ fuel used rest,
    decOmegaFrom tokenW (fuel + turns) 1 used (omegaGroups n n [] ++ rest) =
      decOmegaFrom tokenW fuel n (used + (omegaGroups n n []).length) rest := by
  induction n using Nat.strong_induction_on with
  | _ n ih =>
    obtain rfl | htwo := Nat.eq_or_lt_of_le hn
    · exact ⟨0, Nat.zero_le _, fun _ _ _ => rfl⟩
    · have hlen := two_le_blen htwo
      obtain ⟨turns, hturns, hgroups⟩ := ih (blen n - 1) (blen_lt htwo) (by omega)
      rw [omegaGroups_of_two_le htwo, List.length_append, bin_length]
      refine ⟨turns + 1, by omega, fun fuel used rest => ?_⟩
      rw [List.append_assoc, show fuel + (turns + 1) = fuel + 1 + turns by omega, hgroups, decOmegaFrom_group hn,
        Nat.add_assoc]

theorem decOmega_omegaWord (hn : 1 ≤ n) (hfit : fitsWidth tokenW n = true) (rest : Bits) :
    decOmega tokenW (omegaWord n ++ rest) = .ok (n, (omegaWord n).length) := by
  obtain ⟨turns, hturns, hgroups⟩ := decOmegaFrom_groups (tokenW := tokenW) hn
  obtain ⟨fuel, hfuel⟩ : ∃ fuel, (omegaWord n ++ rest).length + 1 = fuel + 1 + turns :=
    ⟨(omegaWord n ++ rest).length - turns, by simp only [omegaWord, List.length_append, List.length_singleton]; omega⟩
  rw [decOmega, hfuel, omegaWord, List.append_assoc, hgroups, List.singleton_append, decOmegaFrom,
    returnValue_of_fits hfit, List.length_append, Nat.zero_add, List.length_singleton]

/-! ## Fibonacci (R171, R173) -/

/-- The loop reads the greedy digits of a number below `F(m + 1)`; the bit before is 1 when `F(m)` was taken. -/
theorem decFibFrom_fibDigits {m r : Nat} (h : r < fibF (m + 1)) (rest : Bits) :
    decFibFrom tokenW 1 0 false (fibDigits m r ++ rest) =
      decFibFrom tokenW (m + 1) r (decide (fibF m ≤ r)) rest := by
  induction m generalizing r rest with
  | zero =>
    obtain rfl : r = 0 := by simpa using h
    rfl
  | succ m ih =>
    rw [fibF_add_two] at h
    have hle := fibF_le_succ m
    by_cases htake : fibF (m + 1) ≤ r
    · have hsmall : ¬ fibF m ≤ r - fibF (m + 1) := by omega
      rw [fibDigits, if_pos htake, List.append_assoc, ih (by omega), decide_eq_false hsmall, decide_eq_true htake]
      simp [decFibFrom, Nat.sub_add_cancel htake]
    · rw [fibDigits, if_neg htake, List.append_assoc, ih (by omega), decide_eq_false htake]
      simp [decFibFrom]

theorem decFib_fibWord (hn : 1 ≤ n) (hfit : fitsWidth tokenW n = true) (rest : Bits) :
    decFib tokenW (fibWord n ++ rest) = .ok (n, (fibWord n).length) := by
  obtain ⟨htop, hlt⟩ := fibTop_spec hn
  rw [decFib, fibWord, List.append_assoc, decFibFrom_fibDigits hlt, decide_eq_true htop, List.singleton_append,
    decFibFrom, List.length_append, fibDigits_length]
  exact returnValue_of_fits hfit _

/-! ## All schemes -/

/-- `dec(s, p)` on a string that holds the code word of `n` at `p` answers `n` and the index after it (R175). -/
theorem dec_codeWord (sch : Scheme) (hn : 1 ≤ n) (hfit : fitsWidth tokenW n = true) (before rest : Bits) :
    dec tokenW sch (before ++ (codeWord sch n ++ rest)) before.length =
      .ok (n, before.length + (codeWord sch n).length) := by
  cases sch with
  | gamma => simp only [dec, List.drop_left, codeWord, decGamma_gammaWord hn hfit]
  | delta => simp only [dec, List.drop_left, codeWord, decDelta_deltaWord hn hfit]
  | omega => simp only [dec, List.drop_left, codeWord, decOmega_omegaWord hn hfit]
  | fibonacci => simp only [dec, List.drop_left, codeWord, decFib_fibWord hn hfit]

end Sys2Proof.Machine
end

section
/-! SUPPORT. `DES.s` reads a stream back, and `DECOMPRESS.s` decodes its tokens (43_stream_assembler.md R206, R207;
44_pipeline.md R225). -/

namespace Sys2Proof.Machine

open Sys2Proof.Claims

variable {s : State} {n : Nat} {rest : Bits}

/-! ## UNPACK -/

/-- Bit `8j + k` of the expanded bytes is bit `7 - k` of byte `j` (42_bit_byte_packer.md R193). -/
theorem unpackBits_getD (ib : List Byte) {j k : Nat} (hj : j < ib.length) (hk : k < 8) :
    (unpackBits ib).getD (8 * j + k) false = (ib.getD j 0).getLsbD (7 - k) := by
  induction ib generalizing j with
  | nil => simp at hj
  | cons b ib ih =>
    have hcons : unpackBits (b :: ib) = byteBits b ++ unpackBits ib := rfl
    rw [hcons]
    cases j with
    | zero => rw [List.getD_append _ _ _ _ (by simpa using hk), Nat.mul_zero, Nat.zero_add, byteBits_getD b hk]; rfl
    | succ j =>
      rw [List.getD_append_right _ _ _ _ (by simp; omega), byteBits_length,
        show 8 * (j + 1) + k - 8 = 8 * j + k by omega, ih (by simpa using hj), List.getD_cons_succ]

theorem unpackBits_length (ib : List Byte) : (unpackBits ib).length = 8 * ib.length := by
  induction ib with
  | nil => rfl
  | cons b ib ih =>
    have hcons : unpackBits (b :: ib) = byteBits b ++ unpackBits ib := rfl
    rw [hcons, List.length_append, ih, byteBits_length, List.length_cons]
    omega

/-- The expanded bytes are what `UNPACK` writes. -/
theorem eq_unpackBits {ib : List Byte} {bits : Bits} (h : IsUnpacked ib bits) : bits = unpackBits ib := by
  obtain ⟨hlen, hbit⟩ := h
  refine List.ext_getElem (hlen.trans (unpackBits_length ib).symm) fun m hm hm' => ?_
  have hsplit : 8 * (m / 8) + m % 8 = m := Nat.div_add_mod m 8
  have hj : m / 8 < ib.length := by omega
  have hk : m % 8 < 8 := Nat.mod_lt m (by decide)
  have hsame := (hbit _ _ hj hk).trans (unpackBits_getD ib hj hk).symm
  rwa [hsplit, List.getD_eq_getElem _ _ hm, List.getD_eq_getElem _ _ hm'] at hsame

/-! ## DES.s -/

/-- A code word at `BP` is read, and `BP` moves behind it. -/
theorem readCode_codeWord {sch : Scheme} (h : s.params.Unbounded) (hn : 1 ≤ n)
    (hbs : s.bs.drop s.bp = codeWord sch n ++ rest) (f : Nat → State → Run) :
    readCode sch f s = f n (noteDecoded sch n { s with bp := s.bp + (codeWord sch n).length }) := by
  have hle : s.bp ≤ s.bs.length := by
    by_contra hgt
    rw [List.drop_of_length_le (by omega)] at hbs
    exact codeWord_ne_nil sch hn (List.append_eq_nil_iff.1 hbs.symm).1
  have hbefore : (s.bs.take s.bp).length = s.bp := List.length_take_of_le hle
  have hdec := dec_codeWord (tokenW := none) sch hn rfl (s.bs.take s.bp) rest
  rw [← hbs, List.take_append_drop, hbefore] at hdec
  rw [readCode, h.1, hdec]

@[simp] theorem noteDecoded_bs (sch : Scheme) (v : Nat) (s : State) : (noteDecoded sch v s).bs = s.bs := by
  cases sch <;> rfl

theorem drop_add_of_drop_append {bits word rest : Bits} {p : Nat} (h : bits.drop p = word ++ rest) :
    bits.drop (p + word.length) = rest := by
  rw [← List.drop_drop, h, List.drop_left]

/-- The header of at least one token. -/
theorem desHeader_codeWord {sch : Scheme} (h : s.params.Unbounded) (hn : 1 ≤ n)
    (hbs : s.bs.drop s.bp = codeWord sch (n + 1) ++ rest) :
    desHeader sch s = .ok { noteDecoded sch (n + 1) { s with bp := s.bp + (codeWord sch (n + 1)).length } with
      hv := n + 1, cnt := n } := by
  rw [desHeader, readCode_codeWord h (Nat.le_add_left 1 n) hbs]
  simp [show n ≠ 0 by omega]

/-- One token. -/
theorem desToken_codeWord {sch : Scheme} (h : s.params.Unbounded) {x : Token}
    (hbs : s.bs.drop s.bp = codeWord sch (x + 1) ++ rest) :
    desToken sch s = .ok { noteDecoded sch (x + 1) { s with bp := s.bp + (codeWord sch (x + 1)).length } with
      tk := s.tk ++ [x] } := by
  rw [desToken, readCode_codeWord h (Nat.le_add_left 1 x) hbs, appendTK_unbounded (by simpa using h)]
  simp

/-- The bits of tokens, without a header. -/
def tokenBits (sch : Scheme) (tokens : List Token) : Bits := (tokens.map fun x => codeWord sch (x + 1)).flatten

/-- The loop of `DES.s` reads the tokens from `BP` on. -/
theorem times_desToken {sch : Scheme} (h : s.params.Unbounded) {tokens : List Token}
    (hbs : s.bs.drop s.bp = tokenBits sch tokens ++ rest) : ∃ t, Run.times tokens.length (desToken sch) s = .ok t ∧
      t.params = s.params ∧ t.tk = s.tk ++ tokens ∧ t.bp = s.bp + (tokenBits sch tokens).length := by
  induction tokens generalizing s with
  | nil => exact ⟨s, rfl, rfl, by simp, by simp [tokenBits]⟩
  | cons x tokens ih =>
    have hsplit : tokenBits sch (x :: tokens) = codeWord sch (x + 1) ++ tokenBits sch tokens := rfl
    rw [hsplit, List.append_assoc] at hbs
    rw [List.length_cons, Run.times_succ, desToken_codeWord h hbs, Run.bind_ok]
    obtain ⟨t, ht, hparams, htk, hbp⟩ := ih (s := { noteDecoded sch (x + 1) { s with
      bp := s.bp + (codeWord sch (x + 1)).length } with tk := s.tk ++ [x] }) (by simpa using h)
      (by simpa using drop_add_of_drop_append hbs)
    refine ⟨t, ht, by simpa using hparams, by simpa using htk, ?_⟩
    simpa [hsplit, Nat.add_assoc] using hbp

/-- The header and the loop read the stream at `BP`. -/
theorem desWork_stream {sch : Scheme} (h : s.params.Unbounded) {tokens : List Token} (hne : tokens ≠ []) (htk : s.tk = [])
    (hbs : s.bs.drop s.bp = streamBits sch tokens ++ rest) : ∃ t, desWork sch s = .ok t ∧
      t.params = s.params ∧ t.tk = tokens ∧ t.bp = s.bp + (streamBits sch tokens).length := by
  have hstream : streamBits sch tokens = codeWord sch (tokens.length + 1) ++ tokenBits sch tokens := rfl
  rw [hstream, List.append_assoc] at hbs
  rw [desWork, desHeader_codeWord h (List.length_pos_iff.2 hne) hbs, Run.bind_ok]
  obtain ⟨t, ht, hparams, htk', hbp⟩ := times_desToken (sch := sch) (tokens := tokens) (rest := rest)
    (s := { noteDecoded sch (tokens.length + 1) { s with
      bp := s.bp + (codeWord sch (tokens.length + 1)).length } with hv := tokens.length + 1, cnt := tokens.length })
    (by simpa using h) (by simpa using drop_add_of_drop_append hbs)
  exact ⟨t, ht, by simpa using hparams, by simpa [htk] using htk', by simpa [hstream, Nat.add_assoc] using hbp⟩

/-- `DES.s` of the stream of at least one token gives back the tokens. -/
theorem desRule_stream {sch : Scheme} (h : s.params.Unbounded) {tokens : List Token} (hne : tokens ≠ [])
    (hbits : unpackBits s.ib = streamBits sch tokens ++ rest) : ∃ t, desRule sch s = .ok t ∧
      t.params = s.params ∧ t.tk = tokens ∧ t.bp = (streamBits sch tokens).length := by
  obtain ⟨-, hlen, -, -, -, -, -, hcap⟩ := id h
  rw [desRule, unpackPhase_of_noLimit hcap hlen, Run.bind_ok, desPhase, enterDes, Run.bind_ok]
  have hwork := desWork_stream (sch := sch) (rest := rest) (tokens := tokens)
    (s := { s with phase := .des, bs := unpackBits s.ib, ip := s.ib.length, tk := [], bp := 0 }) h hne rfl hbits
  simpa using hwork

/-! ## DECOMPRESS.s -/

theorem decompressOf_phases (sch : Scheme) : phasesOf (decompressOf sch) = [.unpack, .des, .lzwd] := by
  cases sch <;> rfl

/-- Settles O49: `DES.s` gives `LZWD` the tokens of the stream, and `LZWD` leaves `TK` and `BP` alone. -/
theorem decompressReadsTheStream : Obligations.DecompressReadsTheStream := by
  intro sch s tokens bits rest h hne hvalid hunpacked hbits
  obtain rfl := eq_unpackBits hunpacked
  have hib : s.ib ≠ [] := by
    intro hnil
    rw [hnil, streamBits, List.append_assoc] at hbits
    exact codeWord_ne_nil sch (Nat.le_add_left 1 _) (List.append_eq_nil_iff.1 hbits.symm).1
  obtain ⟨t, ht, hparams, htk, hbp⟩ := desRule_stream (s := beginCommand (decompressOf sch) s) h hne hbits
  obtain ⟨u, hu, hdecoded⟩ := lzwdPhase_valid (s := t) (hparams ▸ h) (htk ▸ hvalid)
  rw [htk] at hdecoded
  have hrule : ruleOf (decompressOf sch) (beginCommand (decompressOf sch) s) = .ok u := by
    rw [ruleOf_decompressOf, decompressRule, beginCommand_ib, if_neg hib, ht, Run.bind_ok, hu]
  have hstatus : u.status = statusStarted := by
    have hrun := (decompressRule_touches sch (decompressOf_phases sch)).untouched (ruleOf_decompressOf sch ▸ hrule)
    exact hrun .status (not_touched [] (by simp))
  have hlzwd := (wholePhase_touches .gamma .lzwd).untouched hu
  exact ⟨_, exec_of_rule_ok hrule, endRun_status_of_started hstatus, Eq.trans (hlzwd .tk (by decide)) htk,
    hdecoded.builtBy, hdecoded.ob, hdecoded.builtBy.1, Eq.trans (hlzwd .bp (by decide)) hbp⟩

end Sys2Proof.Machine
end

section
/-! SUPPORT. What a finite `TOKEN_W` changes of a decoder's answer (41_universal_codec.md R178; log 12). -/

namespace Sys2Proof.Machine

/-- What a decoder answers without a width against what it answers with the width `tokenW`: an answer's value is tested,
and nothing is said where the bits run out, which is the one error there is without a width. -/
inductive WidthTested (tokenW : Option Nat) : Except ErrKind (Nat × Nat) → Except ErrKind (Nat × Nat) → Prop
  | answer (v used : Nat) : WidthTested tokenW (.ok (v, used)) (returnValue tokenW v used)
  | truncated (limited : Except ErrKind (Nat × Nat)) : WidthTested tokenW (.error .truncatedStream) limited

/-- `dec(s, ·)` on the bits `r` from its start position on: the value and how many bits it consumed. -/
def decBits (tokenW : Option Nat) (sch : Scheme) (r : Bits) : Except ErrKind (Nat × Nat) :=
  match sch with
  | .gamma => decGamma tokenW r
  | .delta => decDelta tokenW r
  | .omega => decOmega tokenW r
  | .fibonacci => decFib tokenW r

variable {tokenW : Option Nat}

theorem dec_eq_map_decBits (tokenW : Option Nat) (sch : Scheme) (bits : Bits) (p : Nat) :
    dec tokenW sch bits p = (decBits tokenW sch (bits.drop p)).map fun a => (a.1, p + a.2) := by
  have hmap (a : Except ErrKind (Nat × Nat)) : (match a with
      | .ok (v, used) => .ok (v, p + used)
      | .error e => .error e) = a.map fun a => (a.1, p + a.2) := by cases a <;> rfl
  cases sch <;> exact hmap _

theorem returnValue_of_not_fits {v : Nat} (h : fitsWidth tokenW v = false) (used : Nat) :
    returnValue tokenW v used = .error .capacityExceeded := by
  simp [returnValue, h]

theorem WidthTested.of_returnValue (v used : Nat) :
    WidthTested tokenW (returnValue none v used) (returnValue tokenW v used) := .answer v used

theorem decGamma_widthTested (r : Bits) : WidthTested tokenW (decGamma none r) (decGamma tokenW r) := by
  simp only [decGamma]
  split
  · exact .truncated _
  · split
    · exact .truncated _
    · exact .of_returnValue _ _

/-- Where the bit length is too wide already, the value is. -/
theorem decDelta_widthTested (r : Bits) : WidthTested tokenW (decDelta none r) (decDelta tokenW r) := by
  have hgamma := decGamma_widthTested (tokenW := tokenW) r
  unfold decDelta
  generalize decGamma none r = unlimited, decGamma tokenW r = limited at hgamma
  cases hgamma with
  | truncated => exact .truncated _
  | answer len p =>
    by_cases hlen : fitsWidth tokenW len = true
    · rw [returnValue_of_fits hlen]
      simp only
      split
      · exact .truncated _
      · exact .of_returnValue _ _
    · rw [returnValue_of_not_fits (by simpa using hlen)]
      simp only
      split
      · exact .truncated _
      · have hle : len ≤ 2 ^ (len - 1) + val (slice r p (p + (len - 1))) := by
          have := Nat.lt_two_pow_self (n := len - 1)
          omega
        have hv := mt (fitsWidth_of_le hle) hlen
        rw [← returnValue_of_not_fits (by simpa using hv)]
        exact .of_returnValue _ _

theorem decOmegaFrom_widthTested (fuel acc used : Nat) (r : Bits) :
    WidthTested tokenW (decOmegaFrom none fuel acc used r) (decOmegaFrom tokenW fuel acc used r) := by
  induction fuel generalizing acc used r with
  | zero => exact .truncated _
  | succ fuel ih =>
    match r with
    | [] => exact .truncated _
    | false :: _ => exact .of_returnValue _ _
    | true :: _ =>
      simp only [decOmegaFrom]
      split
      · exact .truncated _
      · exact ih _ _ _

theorem decFibFrom_widthTested (k sum : Nat) (prevbit : Bool) (r : Bits) :
    WidthTested tokenW (decFibFrom none k sum prevbit r) (decFibFrom tokenW k sum prevbit r) := by
  induction r generalizing k sum prevbit with
  | nil => exact .truncated _
  | cons b r ih =>
    simp only [decFibFrom]
    split
    · exact .of_returnValue _ _
    · exact ih _ _ _

theorem decBits_widthTested (sch : Scheme) (r : Bits) :
    WidthTested tokenW (decBits none sch r) (decBits tokenW sch r) := by
  cases sch with
  | gamma => exact decGamma_widthTested r
  | delta => exact decDelta_widthTested r
  | omega => exact decOmegaFrom_widthTested _ _ _ r
  | fibonacci => exact decFibFrom_widthTested _ _ _ r

/-- Without a width a decoder raises nothing but truncation (R177). -/
theorem dec_none_error {sch : Scheme} {bits : Bits} {p : Nat} {e : ErrKind} (h : dec none sch bits p = .error e) :
    e = .truncatedStream := by
  have htested := decBits_widthTested (tokenW := none) sch (bits.drop p)
  rw [dec_eq_map_decBits] at h
  generalize decBits none sch (bits.drop p) = unlimited at htested h
  cases htested with
  | truncated => cases h; rfl
  | answer => cases h

/-- What a decoder answers without a width, too wide for the build (R178). -/
theorem dec_of_not_fits {sch : Scheme} {bits : Bits} {p v p' : Nat} (h : dec none sch bits p = .ok (v, p'))
    (hwide : fitsWidth tokenW v = false) : dec tokenW sch bits p = .error .capacityExceeded := by
  have htested := decBits_widthTested (tokenW := tokenW) sch (bits.drop p)
  rw [dec_eq_map_decBits] at h ⊢
  generalize decBits none sch (bits.drop p) = unlimited, decBits tokenW sch (bits.drop p) = limited at htested h ⊢
  cases htested with
  | truncated => cases h
  | answer w used =>
    cases h
    rw [returnValue_of_not_fits hwide]
    rfl

end Sys2Proof.Machine
end

section
/-! SUPPORT. A decoder answers for code words alone (41_universal_codec.md R177): the bits it consumed are the code word
of the value it answers. -/

namespace Sys2Proof.Machine

variable {tokenW : Option Nat} {r : Bits} {v used : Nat}

/-- The bits of `r` before index `used` are `word`. -/
def Reads (word r : Bits) (used : Nat) : Prop := ∃ rest, r = word ++ rest ∧ used = word.length

/-- `bin` undoes `val` on a string that begins with 1 (00_scope.md R13). -/
theorem bin_val (t : Bits) : bin (val (true :: t)) = true :: t := by
  have hlow : 2 ^ t.length ≤ val (true :: t) := by simp [val_cons]
  have hlen : blen (val (true :: t)) = (true :: t).length := blen_unique (by simp) (by simpa using hlow) (val_lt _)
  exact eq_of_val_eq (by rw [bin_length, hlen]) (val_bin _)

theorem blen_val (t : Bits) : blen (val (true :: t)) = t.length + 1 := by
  rw [← bin_length, bin_val, List.length_cons]

/-! ## Gamma and delta (R157, R162) -/

theorem eq_zeros_append (h : leadingZeros r < r.length) : ∃ t, r = zeros (leadingZeros r) ++ true :: t := by
  induction r with
  | nil => simp at h
  | cons b r ih =>
    cases b with
    | true => exact ⟨r, rfl⟩
    | false =>
      obtain ⟨t, ht⟩ := ih (by simpa [leadingZeros] using h)
      exact ⟨t, congrArg (false :: ·) ht⟩

theorem decGamma_reads (h : decGamma tokenW r = .ok (v, used)) : Reads (gammaWord v) r used := by
  simp only [decGamma] at h
  split at h
  · cases h
  · split at h
    · cases h
    · rename_i hlong
      obtain ⟨rfl, rfl, -⟩ := returnValue_ok h
      obtain ⟨t, ht⟩ := eq_zeros_append (r := r) (by omega)
      generalize leadingZeros r = z at ht hlong ⊢
      subst ht
      have hz : (zeros z).length = z := List.length_replicate
      rw [List.length_append, hz, List.length_cons] at hlong
      have hlen : (t.take z).length = z := List.length_take_of_le (by omega)
      have hgroup : slice (zeros z ++ true :: t) z (z + (z + 1)) = true :: t.take z := by
        rw [slice, List.drop_left' hz, Nat.add_sub_cancel_left, List.take_succ_cons]
      have hword : gammaWord (val (true :: t.take z)) = zeros z ++ true :: t.take z := by
        rw [gammaWord, bin_val, blen_val, hlen, Nat.add_sub_cancel]
      rw [hgroup, hword]
      exact ⟨t.drop z, by simp, by simp [hz, hlen]⟩

theorem decDelta_reads (h : decDelta tokenW r = .ok (v, used)) : Reads (deltaWord v) r used := by
  unfold decDelta at h
  split at h
  · cases h
  · rename_i len p hgamma
    obtain ⟨hpos, -⟩ := decGamma_ok hgamma
    obtain ⟨rest, rfl, rfl⟩ := decGamma_reads hgamma
    split at h
    · cases h
    · rename_i hlong
      obtain ⟨rfl, rfl, -⟩ := returnValue_ok h
      rw [List.length_append] at hlong
      have hlen : (rest.take (len - 1)).length = len - 1 := List.length_take_of_le (by omega)
      have hvalue : 2 ^ (len - 1) + val (rest.take (len - 1)) = val (true :: rest.take (len - 1)) := by
        rw [val_cons, hlen, Bool.toNat_true, Nat.mul_one]
      have hword : deltaWord (val (true :: rest.take (len - 1))) = gammaWord len ++ rest.take (len - 1) := by
        rw [deltaWord, slice_bin_tail, bin_val, blen_val, hlen, Nat.sub_add_cancel hpos, List.tail_cons]
      rw [slice, List.drop_left, Nat.add_sub_cancel_left, hvalue, hword]
      exact ⟨rest.drop (len - 1), by simp, by rw [List.length_append, hlen]⟩

/-! ## Omega (R167) -/

/-- With the groups of `acc` behind it the loop reads on to the end of the code word of `v`. -/
theorem decOmegaFrom_reads {fuel acc before : Nat} (ha : 1 ≤ acc)
    (h : decOmegaFrom tokenW fuel acc before r = .ok (v, used)) :
    ∃ rest, omegaGroups acc acc [] ++ r = omegaWord v ++ rest ∧ used + rest.length = before + r.length := by
  induction fuel generalizing acc before r with
  | zero => cases h
  | succ fuel ih =>
    match r with
    | [] => cases h
    | false :: r =>
      obtain ⟨rfl, rfl, -⟩ := returnValue_ok h
      exact ⟨r, by simp [omegaWord], by rw [List.length_cons]; omega⟩
    | true :: r =>
      simp only [decOmegaFrom, List.take_succ_cons, List.drop_succ_cons] at h
      split at h
      · cases h
      · rename_i hlong
        rw [List.length_cons] at hlong ⊢
        have hlen : blen (val (true :: r.take acc)) = acc + 1 := by
          rw [blen_val, List.length_take_of_le (by omega)]
        have hle := blen_le_self (val (true :: r.take acc))
        obtain ⟨rest, hrest, hused⟩ := ih (by omega) h
        rw [omegaGroups_of_two_le (by omega), hlen, bin_val, Nat.add_sub_cancel, List.append_assoc, List.cons_append,
          List.take_append_drop] at hrest
        rw [List.length_drop] at hused
        exact ⟨rest, hrest, by omega⟩

theorem decOmega_reads (h : decOmega tokenW r = .ok (v, used)) : Reads (omegaWord v) r used := by
  obtain ⟨rest, hrest, hused⟩ := decOmegaFrom_reads le_rfl h
  obtain rfl : r = omegaWord v ++ rest := hrest
  exact ⟨rest, rfl, by rw [List.length_append] at hused; omega⟩

/-! ## Fibonacci (R173) -/

/-- `top(n)` is the only index between whose Fibonacci numbers `n` lies (41_universal_codec.md R170). -/
theorem fibTop_unique {m n : Nat} (hlow : fibF m ≤ n) (hhigh : n < fibF (m + 1)) : fibTop n = m := by
  have hmono : Monotone fibF := monotone_nat_of_le_succ fibF_le_succ
  obtain ⟨htop, hnext⟩ := fibTop_spec ((fibF_pos m).trans hlow)
  have hle := hmono.reflect_lt (hlow.trans_lt hnext)
  have hge := hmono.reflect_lt (htop.trans_lt hhigh)
  omega

/-- With the greedy digits of `sum` behind it, the bit before being 1 when `F(m)` was taken, the loop reads on to the
end of the code word of `v`. -/
theorem decFibFrom_reads {m sum : Nat} (hsum : sum < fibF (m + 1))
    (h : decFibFrom tokenW (m + 1) sum (decide (fibF m ≤ sum)) r = .ok (v, used)) :
    ∃ rest, fibDigits m sum ++ r = fibWord v ++ rest ∧ used + rest.length = m + r.length := by
  induction r generalizing m sum with
  | nil => cases h
  | cons b r ih =>
    have hnext := fibF_add_two m
    have hpos := fibF_pos m
    have more {sum' : Nat} (hdigits : fibDigits (m + 1) sum' = fibDigits m sum ++ [b])
        (hsum' : sum' < fibF (m + 2))
        (h' : decFibFrom tokenW (m + 2) sum' (decide (fibF (m + 1) ≤ sum')) r = .ok (v, used)) :
        ∃ rest, fibDigits m sum ++ b :: r = fibWord v ++ rest ∧ used + rest.length = m + (r.length + 1) := by
      obtain ⟨rest, hrest, hused⟩ := ih hsum' h'
      rw [hdigits, List.append_assoc] at hrest
      exact ⟨rest, hrest, by omega⟩
    rw [decFibFrom] at h
    cases b with
    | false =>
      refine more (sum' := sum) (if_neg (by omega)) (by omega) ?_
      rw [decide_eq_false (by omega)]
      exact h
    | true =>
      by_cases hlow : fibF m ≤ sum
      · rw [decide_eq_true hlow] at h
        obtain ⟨rfl, rfl, -⟩ := returnValue_ok h
        exact ⟨r, by simp [fibWord, fibTop_unique hlow hsum], by rw [List.length_cons]; omega⟩
      · rw [decide_eq_false hlow] at h
        refine more (sum' := sum + fibF (m + 1)) ?_ (by omega) ?_
        · rw [fibDigits, if_pos (by omega), Nat.add_sub_cancel]
        · rw [decide_eq_true (by omega)]
          exact h

theorem decFib_reads (h : decFib tokenW r = .ok (v, used)) : Reads (fibWord v) r used := by
  obtain ⟨rest, hrest, hused⟩ := decFibFrom_reads (m := 0) (sum := 0) (by simp) h
  obtain rfl : r = fibWord v ++ rest := hrest
  exact ⟨rest, rfl, by rw [List.length_append] at hused; omega⟩

/-! ## All schemes -/

theorem decBits_reads {sch : Scheme} (h : decBits tokenW sch r = .ok (v, used)) : Reads (codeWord sch v) r used := by
  cases sch with
  | gamma => exact decGamma_reads h
  | delta => exact decDelta_reads h
  | omega => exact decOmega_reads h
  | fibonacci => exact decFib_reads h

/-- The bits that `dec(s, p)` consumed are the code word of the value it answers. -/
theorem dec_reads {sch : Scheme} {bits : Bits} {p p' : Nat} (h : dec tokenW sch bits p = .ok (v, p')) :
    ∃ rest, bits.drop p = codeWord sch v ++ rest ∧ p' = p + (codeWord sch v).length := by
  rw [dec_eq_map_decBits] at h
  cases hr : decBits tokenW sch (bits.drop p) with
  | error e =>
    rw [hr] at h
    cases h
  | ok a =>
    rw [hr] at h
    cases h
    obtain ⟨rest, hrest, hused⟩ := decBits_reads (v := a.1) (used := a.2) hr
    exact ⟨rest, hrest, by rw [hused]⟩

end Sys2Proof.Machine
end

section
/-! SUPPORT. `UENC.s` and `UDEC.s` as whole runs, and the statements about the codec (41_universal_codec.md R152 to
R154, R175 to R178). -/

namespace Sys2Proof.Machine

open Sys2Proof.Claims

variable {sch : Scheme} {s : State} {v p : Nat}

/-! ## UENC.s -/

theorem uencNumber_zero (h : s.n = 0) : uencNumber sch s = .raised .invalidArgument s := by
  rw [uencNumber, appendCode, h, enc, if_pos rfl]

/-- Settles O23: `enc(s, 0)` is refused before any bit. -/
theorem encodeZeroIsInvalidArgument : Obligations.EncodeZeroIsInvalidArgument := by
  intro sch s hn
  have hwrites : writeSet (uencOf sch) = [.bs] := by cases sch <;> rfl
  have hrule : uencPhase sch (beginCommand (uencOf sch) s) = .raised .invalidArgument _ :=
    uencNumber_zero (s := { beginCommand (uencOf sch) s with phase := .uenc, bs := [] }) hn
  rw [← ruleOf_uencOf] at hrule
  rw [← hwrites]
  exact exec_of_rule_raised hrule

/-! ## UDEC.s -/

theorem ruleOf_udecOf (sch : Scheme) : ruleOf (udecOf sch) = udecPhase sch := by
  cases sch <;> rfl

theorem writeSet_udecOf (sch : Scheme) : writeSet (udecOf sch) = [.n, .bp] := by
  cases sch <;> rfl

theorem beginCommand_udecOf_bs (sch : Scheme) (s : State) : (beginCommand (udecOf sch) s).bs = s.bs := by
  simp [writeSet_udecOf]

@[simp] theorem noteDecoded_status (sch : Scheme) (v : Nat) (s : State) : (noteDecoded sch v s).status = s.status :=
  noteDecoded_untouched sch v s .status (by decide)

theorem udecNumber_of_dec_ok (h : dec s.params.tokenW sch s.bs s.bp = .ok (v, p)) :
    udecNumber sch s = .ok { noteDecoded sch v { s with bp := p } with n := v } := by
  rw [udecNumber, readCode, h]

theorem udecNumber_of_dec_error {e : ErrKind} (h : dec s.params.tokenW sch s.bs s.bp = .error e) :
    udecNumber sch s = .raised e s := by
  rw [udecNumber, readCode, h]

/-- `UDEC.s` reads `BS` from bit 0 on. -/
theorem ruleOf_udecOf_beginCommand (sch : Scheme) (s : State) : ruleOf (udecOf sch) (beginCommand (udecOf sch) s) =
    udecNumber sch { beginCommand (udecOf sch) s with phase := .udec, bs := s.bs, bp := 0 } := by
  rw [ruleOf_udecOf, udecPhase, enterUdec, Run.bind_ok, ← beginCommand_udecOf_bs sch s]
  rfl

theorem exec_udecOf_of_dec_ok (h : dec s.params.tokenW sch s.bs 0 = .ok (v, p)) : ∃ t, exec (udecOf sch) s = .next t ∧
    t.status = 0x02 ∧ t.n = v ∧ t.bp = p ∧ t.bs = s.bs ∧ t.params = s.params := by
  have hrule := (ruleOf_udecOf_beginCommand sch s).trans (udecNumber_of_dec_ok h)
  exact ⟨_, exec_of_rule_ok hrule, endRun_status_of_started (by simp), rfl, by simp, by simp, by simp⟩

theorem exec_udecOf_of_dec_error {e : ErrKind} (h : dec s.params.tokenW sch s.bs 0 = .error e) :
    exec (udecOf sch) s = .next (errorState (encode (udecOf sch)) [.n, .bp] e s) := by
  rw [← writeSet_udecOf sch]
  exact exec_of_rule_raised ((ruleOf_udecOf_beginCommand sch s).trans (udecNumber_of_dec_error h))

/-- The code word at the start of `BS`. -/
theorem dec_zero_codeWord {tokenW : Option Nat} {n : Nat} (hn : 1 ≤ n) (hfit : fitsWidth tokenW n = true)
    (rest : Bits) : dec tokenW sch (codeWord sch n ++ rest) 0 = .ok (n, (codeWord sch n).length) := by
  simpa using dec_codeWord sch hn hfit [] rest

/-- Settles O28: every decoder reads its code word back. -/
theorem decodeOfEncodeIsIdentity : Obligations.DecodeOfEncodeIsIdentity := by
  intro sch s n rest h hn hbs
  obtain ⟨hw, -⟩ := id h
  refine ⟨?_, ?_, fun before => ?_⟩
  · obtain ⟨u, hu, hst, hun, hbp, hubs, -⟩ :=
      exec_udecOf_of_dec_ok (s := s) (by rw [hbs, hw]; exact dec_zero_codeWord (sch := sch) hn rfl rest)
    exact ⟨u, hu, hst, hun, hbp, hubs⟩
  · obtain ⟨t, ht, hst, -, htbs⟩ := exec_uencOf_unbounded sch (s := { s with n := n }) h hn
    exact ⟨t, ht, hst, htbs⟩
  · rw [List.append_assoc, hw]
    exact dec_codeWord sch hn rfl before rest

/-- Settles O29: the width test of the value read back. -/
theorem tokenWidthLimitsDecoding : Obligations.TokenWidthLimitsDecoding := by
  intro sch s w n rest hw hn hbs
  refine ⟨fun hlt => ?_, fun hge => ?_⟩
  · have hfit : fitsWidth (some w) n = true := by simpa [fitsWidth] using hlt
    obtain ⟨u, hu, hst, hun, hbp, -⟩ :=
      exec_udecOf_of_dec_ok (s := s) (by rw [hbs, hw]; exact dec_zero_codeWord (sch := sch) hn hfit rest)
    exact ⟨u, hu, hst, hun, hbp⟩
  · have hwide : fitsWidth (some w) n = false := by simpa [fitsWidth] using hge
    refine exec_udecOf_of_dec_error ?_
    rw [hbs, hw]
    exact dec_of_not_fits (dec_zero_codeWord hn rfl rest) hwide

/-- Settles O30: what a decoder consumed is a code word, and without a width it raises nothing but truncation. -/
theorem decodeIsComplete : Obligations.DecodeIsComplete := by
  intro sch s h
  obtain ⟨hw, -⟩ := id h
  cases hdec : dec s.params.tokenW sch s.bs 0 with
  | ok a =>
    obtain ⟨v, p⟩ := a
    obtain ⟨hv, -, hp, -⟩ := dec_ok hdec
    obtain ⟨rest, hrest, hlen⟩ := dec_reads hdec
    obtain ⟨t, ht, hst, rfl, rfl, -, hparams⟩ := exec_udecOf_of_dec_ok hdec
    obtain ⟨u, hu, -, -, hubs⟩ := exec_uencOf_unbounded sch (s := t) (hparams ▸ h) hv
    refine .inl ⟨t, ht, hst, hv, hp, u, hu, ?_⟩
    rw [hubs, hlen, Nat.zero_add, ← List.drop_zero (l := s.bs), hrest, List.take_left]
  | error e =>
    obtain rfl := dec_none_error (hw ▸ hdec)
    exact .inr (exec_udecOf_of_dec_error hdec)

/-- A string begins with the code word of one number at most: the decoder reads it. -/
theorem eq_of_codeWord_prefix {n n' : Nat} (hn : 1 ≤ n) (hn' : 1 ≤ n') (h : codeWord sch n <+: codeWord sch n') :
    n = n' := by
  obtain ⟨rest, hrest⟩ := h
  have hdec := dec_zero_codeWord (tokenW := none) (sch := sch) hn rfl rest
  have hdec' := dec_zero_codeWord (tokenW := none) (sch := sch) hn' rfl []
  rw [hrest] at hdec
  rw [List.append_nil, hdec] at hdec'
  cases hdec'
  rfl

/-- Settles O31: a code word that is a prefix of another would be read as two numbers. -/
theorem codeWordsArePrefixFree : Obligations.CodeWordsArePrefixFree := by
  refine ⟨fun sch s n n' h hn hn' hne => ?_, by decide, by decide⟩
  obtain ⟨t, ht, -, -, hbs⟩ := exec_uencOf_unbounded sch (s := { s with n := n }) h hn
  obtain ⟨t', ht', -, -, hbs'⟩ := exec_uencOf_unbounded sch (s := { s with n := n' }) h hn'
  refine ⟨t, t', ht, ht', fun hprefix => hne (eq_of_codeWord_prefix (sch := sch) hn hn' ?_)⟩
  rwa [hbs, hbs'] at hprefix

end Sys2Proof.Machine
end

section
/-! SUPPORT. `PACK` and `UNPACK` as whole runs, and the statements about the packer (42_bit_byte_packer.md R191, R193,
R195). -/

namespace Sys2Proof.Machine

open Sys2Proof.Claims

variable {s : State}

/-! ## Bits of a packed byte -/

/-- Bit `i` of a value, counted from the right, is the string's bit `i` before its end. -/
theorem testBit_val (bits : Bits) {i : Nat} (hi : i < bits.length) :
    (val bits).testBit i = bits.getD (bits.length - 1 - i) false := by
  induction bits using List.reverseRecOn generalizing i with
  | nil => simp at hi
  | append_singleton bits b ih =>
    rw [val_concat, ← Nat.bit_val, List.length_append, List.length_singleton, Nat.add_sub_cancel]
    cases i with
    | zero => rw [Nat.testBit_bit_zero, Nat.sub_zero, List.getD_append_right _ _ _ _ le_rfl, Nat.sub_self]; rfl
    | succ i =>
      have hi' : i < bits.length := by simpa using hi
      rw [Nat.testBit_bit_succ, ih hi', List.getD_append _ _ _ _ (by omega), Nat.sub_sub, Nat.add_comm 1]

/-- The first of eight bits is their byte's bit 7. -/
theorem byteOfBits_getLsbD {bits : Bits} (hlen : bits.length = 8) {k : Nat} (hk : k < 8) :
    (byteOfBits bits).getLsbD (7 - k) = bits.getD k false := by
  have hbit := testBit_val bits (i := 7 - k) (by omega)
  rw [hlen, show 8 - 1 - (7 - k) = k by omega] at hbit
  rw [byteOfBits, BitVec.getLsbD_ofNat, hbit, decide_eq_true (by omega), Bool.true_and]

theorem paddedGroup_getD (bs : Bits) (j : Nat) {k : Nat} (hk : k < 8) :
    (paddedGroup bs j).getD k false = bs.getD (8 * j + k) false := by
  simp [paddedGroup, List.getD, hk]

/-! ## The bytes of a bit string and the bits of a byte string -/

theorem isPacked_packBytes (bs : Bits) : IsPacked bs (packBytes bs) := by
  refine ⟨by simp [packBytes, packedLen], fun j k hj hk => ?_⟩
  have hbyte : (packBytes bs).getD j 0 = byteOfBits (paddedGroup bs j) := by
    rw [List.getD_eq_getElem _ _ hj]
    simp [packBytes]
  rw [hbyte, byteOfBits_getLsbD (paddedGroup_length bs j) hk, paddedGroup_getD bs j hk]

theorem isUnpacked_unpackBits (ib : List Byte) : IsUnpacked ib (unpackBits ib) :=
  ⟨unpackBits_length ib, fun _ _ => unpackBits_getD ib⟩

/-- A bit string has one packing. -/
theorem isPacked_unique {bs : Bits} {ob ob' : List Byte} (h : IsPacked bs ob) (h' : IsPacked bs ob') : ob = ob' := by
  obtain ⟨hlen, hbit⟩ := h
  obtain ⟨hlen', hbit'⟩ := h'
  refine List.ext_getElem (hlen.trans hlen'.symm) fun j hj hj' => BitVec.eq_of_getLsbD_eq fun i hi => ?_
  have hsame := (hbit j (7 - i) hj (by omega)).trans (hbit' j (7 - i) hj' (by omega)).symm
  rwa [List.getD_eq_getElem _ _ hj, List.getD_eq_getElem _ _ hj', show 7 - (7 - i) = i by omega] at hsame

/-- Whole bytes need no pad: they are the packing of their own bits. -/
theorem isPacked_of_isUnpacked {ib : List Byte} {bs : Bits} (h : IsUnpacked ib bs) : IsPacked bs ib := by
  obtain ⟨hlen, hbit⟩ := h
  exact ⟨by omega, fun j k hj hk => (hbit j k hj hk).symm⟩

/-- A packing expands into the bits and the pad. -/
theorem isUnpacked_append_pad {bs : Bits} {ob : List Byte} (h : IsPacked bs ob) :
    IsUnpacked ob (bs ++ List.replicate (8 * ((bs.length + 7) / 8) - bs.length) false) := by
  obtain ⟨hlen, hbit⟩ := h
  refine ⟨by simp; omega, fun j k hj hk => ?_⟩
  rw [hbit j k hj hk]
  obtain hin | hpad := lt_or_ge (8 * j + k) bs.length
  · rw [List.getD_append _ _ _ _ hin]
  · rw [List.getD_append_right _ _ _ _ hpad, List.getD_replicate _ (by omega), List.getD_eq_default _ _ hpad]

/-- `PACK` writes back the bytes that `UNPACK` expanded (42_bit_byte_packer.md R195). -/
theorem packBytes_unpackBits (ib : List Byte) : packBytes (unpackBits ib) = ib :=
  isPacked_unique (isPacked_packBytes _) (isPacked_of_isUnpacked (isUnpacked_unpackBits ib))

/-- `UNPACK` expands what `PACK` wrote into the bits and the pad (42_bit_byte_packer.md R195). -/
theorem unpackBits_packBytes (bs : Bits) :
    unpackBits (packBytes bs) = bs ++ List.replicate (8 * ((bs.length + 7) / 8) - bs.length) false :=
  (eq_unpackBits (isUnpacked_append_pad (isPacked_packBytes bs))).symm

/-! ## The commands and the move between them -/

/-- Where `PACK` ends when no limit is in its way. -/
def afterPack (s : State) : State := endRun { beginCommand .pack s with phase := .pack, ob := packBytes s.bs }

/-- Where `UNPACK` ends when no limit is in its way. -/
def afterUnpack (s : State) : State :=
  endRun { beginCommand .unpack s with phase := .unpack, bs := unpackBits s.ib, ip := s.ib.length }

theorem exec_pack_of_noLimit (hcap : s.params.obCap = none) (hlen : s.params.lenW = none) :
    exec .pack s = .next (afterPack s) :=
  exec_of_rule_ok (i := .pack) (packPhase_of_noLimit (s := beginCommand .pack s) hcap hlen)

theorem exec_unpack_of_noLimit (hcap : s.params.bsCap = none) (hlen : s.params.lenW = none) :
    exec .unpack s = .next (afterUnpack s) :=
  exec_of_rule_ok (i := .unpack) (unpackPhase_of_noLimit (s := beginCommand .unpack s) hcap hlen)

theorem endRun_idle (s : State) : (endRun s).busy = false := finishRun_idle [] (.ok s)

/-- `MOVE OB, IB` on an idle engine whose `IB` and lengths have no limit. -/
theorem hostMoveObIb_of_noLimit (hidle : s.busy = false) (hcap : s.params.ibCap = none) (hlen : s.params.lenW = none) :
    hostMoveObIb s = { hostRead .ob s with ib := s.ob } := by
  have hfits : lengthFits s.params.ibCap s.params.lenW s.ob.length = true := by rw [hcap, hlen, lengthFits_none]
  rw [hostMoveObIb_idle hidle, hostLoadIB, if_neg (by simpa [State.busy, hostRead] using hidle)]
  exact if_pos hfits

/-! ## The obligations -/

/-- Settles O32: byte `j` that the loop appends is the padded group `j`. -/
theorem packPadsAndGroups : Obligations.PackPadsAndGroups := fun s hcap hlen =>
  ⟨_, exec_pack_of_noLimit hcap hlen, rfl, endRun_status_of_started rfl, rfl, isPacked_packBytes s.bs⟩

/-- Settles O33: the loop appends the eight bits of each byte. -/
theorem unpackExpandsBytes : Obligations.UnpackExpandsBytes := fun s hcap hlen =>
  ⟨_, exec_unpack_of_noLimit hcap hlen, rfl, endRun_status_of_started rfl, rfl, isUnpacked_unpackBits s.ib⟩

/-- Settles O34: packing and expanding are inverse up to the pad, and `MOVE` hands the packed bytes over. -/
theorem packUnpackLaws : Obligations.PackUnpackLaws := by
  intro s h
  obtain ⟨-, hlen, -, -, hib, hob, -, hbs⟩ := h
  constructor
  · have hmove : hostMoveObIb (afterPack s) = { hostRead .ob (afterPack s) with ib := packBytes s.bs } :=
      hostMoveObIb_of_noLimit (endRun_idle _) hib hlen
    have hunpack := (congrArg (exec .unpack) hmove).trans (exec_unpack_of_noLimit hbs hlen)
    exact ⟨_, _, exec_pack_of_noLimit hob hlen, hunpack, unpackBits_packBytes s.bs⟩
  · exact ⟨_, _, exec_unpack_of_noLimit hbs hlen, exec_pack_of_noLimit hob hlen, packBytes_unpackBits s.ib⟩

end Sys2Proof.Machine
end

section
/-! SUPPORT. `SER.s` and `DES.s` as whole runs, and the statements about the stream assembler (43_stream_assembler.md
R201, R206 to R211). -/

namespace Sys2Proof.Machine

open Sys2Proof.Claims

variable {sch : Scheme} {s t : State} {rest : Bits}

/-! ## SER.s -/

theorem encode_serOf (sch : Scheme) : encode (serOf sch) = 0x50 ||| (sch.bits.setWidth 8) := by
  cases sch <;> decide

/-- Settles O36: the phases write the stream and its packing, and leave `CMD`, `STATUS` and `TK` alone. -/
theorem serializeWritesTheStream : Obligations.SerializeWritesTheStream := by
  intro sch s h
  obtain ⟨t, ht, hbs, hob⟩ := serRule_unbounded sch (s := beginCommand (serOf sch) s) h
  have kept := (serRule_touches (i := .serG) sch (by decide) (by decide)).untouched ht
  have hcmd : t.cmd = encode (serOf sch) := kept .cmd (by decide)
  have htk : t.tk = (beginCommand (serOf sch) s).tk := kept .tk (by decide)
  rw [beginCommand_serOf_tk] at hbs htk
  rw [← ruleOf_serOf] at ht
  refine ⟨_, exec_of_rule_ok ht, hcmd.trans (encode_serOf sch), endRun_status_of_started (kept .status (by decide)), htk,
    hbs, ?_⟩
  rw [endRun_bs, endRun_ob, hob]
  exact isPacked_packBytes t.bs

/-! ## One code word of DES.s -/

/-- Without limits there is a code word at `BP`, or reading one is truncation (R209, R210). -/
theorem codeWord_or_truncated (h : s.params.Unbounded) (sch : Scheme) :
    (∃ n rest, s.bs.drop s.bp = codeWord sch (n + 1) ++ rest) ∨
      ∀ f, readCode sch f s = .raised .truncatedStream s := by
  obtain ⟨hw, -⟩ := id h
  cases hdec : dec s.params.tokenW sch s.bs s.bp with
  | ok a =>
    obtain ⟨v, p⟩ := a
    obtain ⟨hv, -⟩ := dec_ok hdec
    obtain ⟨n, rfl⟩ := Nat.exists_eq_add_of_le' hv
    obtain ⟨rest, hrest, -⟩ := dec_reads hdec
    exact .inl ⟨n, rest, hrest⟩
  | error e =>
    obtain rfl := dec_none_error (hw ▸ hdec)
    exact .inr fun f => by rw [readCode, hdec]

/-- What a header of token count 0 leaves. -/
def afterZeroHeader (sch : Scheme) (s : State) : State :=
  { noteDecoded sch 1 { s with bp := s.bp + (codeWord sch 1).length } with hv := 1, cnt := 0 }

/-- The header of no token (R208). -/
theorem desHeader_zeroCount (h : s.params.Unbounded) (hbs : s.bs.drop s.bp = codeWord sch 1 ++ rest) :
    desHeader sch s = if s.params.zeroCountIsCorrupt then .raised .corruptHeader (afterZeroHeader sch s)
      else .ok (afterZeroHeader sch s) := by
  rw [desHeader, readCode_codeWord h le_rfl hbs]
  simp [afterZeroHeader]

theorem desWork_zeroCount (h : s.params.Unbounded) (hbs : s.bs.drop s.bp = codeWord sch 1 ++ rest) :
    desWork sch s = if s.params.zeroCountIsCorrupt then .raised .corruptHeader (afterZeroHeader sch s)
      else .ok (afterZeroHeader sch s) := by
  rw [desWork, desHeader_zeroCount h hbs]
  split <;> rfl

/-! ## What DES.s has read when it ends -/

/-- The loop ended behind the code words of the tokens it appended. -/
def ReadTokens (sch : Scheme) (k : Nat) (s t : State) : Prop :=
  ∃ tokens rest, tokens.length = k ∧ t.tk = s.tk ++ tokens ∧ t.hv = s.hv ∧ t.cnt = s.cnt ∧
    s.bs.drop s.bp = tokenBits sch tokens ++ rest

/-- The loop of `DES.s` reads `k` tokens, or the bits run out. -/
theorem times_desToken_post (h : s.params.Unbounded) (k : Nat) :
    (Run.times k (desToken sch) s).Post (ReadTokens sch k s) fun e _ => e = .truncatedStream := by
  induction k generalizing s with
  | zero => exact ⟨[], s.bs.drop s.bp, rfl, by simp, rfl, rfl, rfl⟩
  | succ k ih =>
    rw [Run.times_succ]
    obtain ⟨x, rest, hx⟩ | htrunc := codeWord_or_truncated h sch
    · rw [desToken_codeWord h hx, Run.bind_ok]
      refine (ih (by simpa using h)).mono (fun t ht => ?_) fun _ _ => id
      obtain ⟨tokens, rest', hlen, htk, hhv, hcnt, hbs⟩ := ht
      have hrest : rest = tokenBits sch tokens ++ rest' := (drop_add_of_drop_append hx).symm.trans (by simpa using hbs)
      exact ⟨x :: tokens, rest', by simp [hlen], by simpa using htk, by simpa using hhv, by simpa using hcnt,
        by simp [hx, hrest, tokenBits]⟩
    · rw [desToken, htrunc, Run.bind_raised]
      exact rfl

/-- `DES.s` ended behind the stream of the tokens in `TK`, `HV` and `CNT` its header. -/
structure ReadStream (sch : Scheme) (bits : Bits) (t : State) : Prop where
  hv : t.hv = t.tk.length + 1
  cnt : t.cnt = t.tk.length
  bits : ∃ rest, bits = streamBits sch t.tk ++ rest

/-- `DES.s` stopped where there is no stream, or at the stream of no token. -/
def StoppedReading (sch : Scheme) (bits : Bits) (e : ErrKind) (_ : State) : Prop :=
  e = .truncatedStream ∨ e = .corruptHeader ∧ ∃ rest, bits = streamBits sch [] ++ rest

/-- The `DES` phase reads a whole stream, or stops for one of the two reasons. -/
theorem desWork_post (h : s.params.Unbounded) (htk : s.tk = []) :
    (desWork sch s).Post (ReadStream sch (s.bs.drop s.bp)) (StoppedReading sch (s.bs.drop s.bp)) := by
  obtain ⟨n, rest, hn⟩ | htrunc := codeWord_or_truncated h sch
  · obtain rfl | hpos := Nat.eq_zero_or_pos n
    · rw [desWork_zeroCount h hn]
      split
      · exact .inr ⟨rfl, rest, hn.trans (by simp [streamBits])⟩
      · exact ⟨by simp [afterZeroHeader, htk], by simp [afterZeroHeader, htk], rest,
          hn.trans (by simp [afterZeroHeader, htk, streamBits])⟩
    · rw [desWork, desHeader_codeWord h hpos hn, Run.bind_ok]
      refine (times_desToken_post (by simpa using h) n).mono (fun t ht => ?_) fun _ _ => .inl
      obtain ⟨tokens, rest', rfl, htk', hhv, hcnt, hbs⟩ := ht
      have htokens : t.tk = tokens := by simpa [htk] using htk'
      have hrest : rest = tokenBits sch tokens ++ rest' := (drop_add_of_drop_append hn).symm.trans (by simpa using hbs)
      refine ⟨by rw [hhv, htokens], by rw [hcnt, htokens], rest', ?_⟩
      rw [hn, hrest, htokens, ← List.append_assoc]
      rfl
  · rw [desWork, desHeader, htrunc, Run.bind_raised]
    exact .inl rfl

/-! ## DES.s -/

theorem ruleOf_desOf (sch : Scheme) : ruleOf (desOf sch) = desRule sch := by
  cases sch <;> rfl

theorem writeSet_desOf (sch : Scheme) : writeSet (desOf sch) = [.bs, .tk, .bp] := by
  cases sch <;> rfl

/-- Where the `DES` phase of `DES.s` begins: `BS` is the expanded input. -/
def desStart (sch : Scheme) (s : State) : State :=
  { beginCommand (desOf sch) s with phase := .des, bs := unpackBits s.ib, ip := s.ib.length, tk := [], bp := 0 }

theorem ruleOf_desOf_beginCommand (h : s.params.Unbounded) (sch : Scheme) :
    ruleOf (desOf sch) (beginCommand (desOf sch) s) = desWork sch (desStart sch s) := by
  obtain ⟨-, hlen, -, -, -, -, -, hcap⟩ := h
  have hunpack := unpackPhase_of_noLimit (s := beginCommand (desOf sch) s) hcap hlen
  rw [ruleOf_desOf, desRule, hunpack, Run.bind_ok]
  rfl

theorem exec_desOf_of_desWork_ok (h : s.params.Unbounded) (hwork : desWork sch (desStart sch s) = .ok t) :
    exec (desOf sch) s = .next (endRun t) ∧ (endRun t).status = 0x02 ∧ t.bs = unpackBits s.ib ∧ t.ib = s.ib := by
  have kept := (phaseWork_touches sch .des).untouched hwork
  exact ⟨exec_of_rule_ok ((ruleOf_desOf_beginCommand h sch).trans hwork),
    endRun_status_of_started (kept .status (by decide)), kept .bs (by decide), kept .ib (by decide)⟩

theorem exec_desOf_of_desWork_raised {e : ErrKind} (h : s.params.Unbounded)
    (hwork : desWork sch (desStart sch s) = .raised e t) :
    exec (desOf sch) s = .next (errorState (encode (desOf sch)) [.bs, .tk, .bp] e s) := by
  rw [← writeSet_desOf sch]
  exact exec_of_rule_raised ((ruleOf_desOf_beginCommand h sch).trans hwork)

/-- Settles O37: the tokens of the stream are read back, and the header counts what was read. -/
theorem deserializeReadsTheStream : Obligations.DeserializeReadsTheStream := by
  intro sch s tokens bits rest h hne hunpacked hbits
  obtain rfl := eq_unpackBits hunpacked
  obtain ⟨t, ht, -, rfl, hbp⟩ := desWork_stream (s := desStart sch s) h hne rfl hbits
  obtain ⟨hexec, hst, hbs, hib⟩ := exec_desOf_of_desWork_ok h ht
  have hread := desWork_post (sch := sch) (s := desStart sch s) h rfl
  rw [ht] at hread
  exact ⟨_, hexec, hst, rfl, hread.hv, hread.cnt, hbp.trans (Nat.zero_add _), hbs, hib⟩

/-- Settles O38: the parameter decides what a header of count 0 is. -/
theorem zeroCountHeaderIsCorrupt : Obligations.ZeroCountHeaderIsCorrupt := by
  intro sch s bits rest h hunpacked hbits
  obtain rfl := eq_unpackBits hunpacked
  have hwork := desWork_zeroCount (sch := sch) (s := desStart sch s) h hbits
  refine ⟨fun hzero => ?_, fun hzero => ?_⟩
  · exact exec_desOf_of_desWork_raised h (hwork.trans (if_pos hzero))
  · obtain ⟨hexec, hst, -⟩ := exec_desOf_of_desWork_ok h (hwork.trans (if_neg (ne_true_of_eq_false hzero)))
    exact ⟨_, hexec, hst, by simp [afterZeroHeader, desStart], by simp [afterZeroHeader, desStart]⟩

/-- Settles O39: a run that ends normally, or by a header of count 0, has read a whole stream. -/
theorem deserializeTruncation : Obligations.DeserializeTruncation := by
  intro sch s bits h hunpacked hnone
  obtain rfl := eq_unpackBits hunpacked
  have hread := desWork_post (sch := sch) (s := desStart sch s) h rfl
  cases hwork : desWork sch (desStart sch s) with
  | ok t =>
    rw [hwork] at hread
    obtain ⟨-, -, rest, hrest⟩ := hread
    exact absurd hrest (hnone t.tk rest)
  | raised e t =>
    rw [hwork] at hread
    obtain rfl | ⟨-, rest, hrest⟩ := hread
    · exact exec_desOf_of_desWork_raised h hwork
    · exact absurd hrest (hnone [] rest)

/-- Settles O40: what `MOVE` hands over expands into the stream and its pad, which is not read. -/
theorem serializeDeserializeRoundTrip : Obligations.SerializeDeserializeRoundTrip := by
  intro sch s h hne
  obtain ⟨t, ht, -, hst, -, hbs, hpacked⟩ := serializeWritesTheStream sch s h
  have hparams : t.params = s.params := (params_keptByEvents s.params).exec _ s t rfl ht
  have hidle : t.busy = false := by rw [State.busy, hst]; decide
  have hmove : hostMoveObIb t = { hostRead .ob t with ib := t.ob } := by
    obtain ⟨-, hlen, -, -, hcap, -⟩ : t.params.Unbounded := hparams ▸ h
    exact hostMoveObIb_of_noLimit hidle hcap hlen
  have hunpacked := isUnpacked_append_pad hpacked
  obtain ⟨u, hu, hust, hutk, -, -, hubp, -⟩ := deserializeReadsTheStream sch { hostRead .ob t with ib := t.ob } s.tk _ _
    (hparams ▸ h) hne hunpacked (congrArg (· ++ _) hbs)
  exact ⟨t, u, ht, hmove ▸ hu, hust, hutk, by rw [hubp, hbs]⟩

end Sys2Proof.Machine
end

section
/-! SUPPORT. `COMPRESS.s` and `DECOMPRESS.s` as whole runs: the empty input and the round trip (44_pipeline.md R222,
R227, R230). -/

namespace Sys2Proof.Machine

open Sys2Proof.Claims

variable {i : Instr} {sch : Scheme} {s t : State}

/-! ## The move between two runs -/

/-- After a run the engine is idle. -/
theorem exec_idle (h : exec i s = .next t) : t.busy = false := by
  rw [exec_eq_runCommand] at h
  cases h
  exact finishRun_idle _ _

/-- No command changes the build. -/
theorem exec_params (h : exec i s = .next t) : t.params = s.params :=
  (params_keptByEvents s.params).exec i s t rfl h

/-- Without limits `MOVE OB, IB` after a run hands over the whole output. -/
theorem hostMoveObIb_after_exec (hs : s.params.Unbounded) (h : exec i s = .next t) :
    hostMoveObIb t = { hostRead .ob t with ib := t.ob } := by
  obtain ⟨-, hlen, -, -, hcap, -⟩ : t.params.Unbounded := exec_params h ▸ hs
  exact hostMoveObIb_of_noLimit (exec_idle h) hcap hlen

/-! ## The empty input -/

theorem writeSet_compressOf (sch : Scheme) : writeSet (compressOf sch) = [.tk, .bs, .ob, .dict, .nc] := by
  cases sch <;> rfl

theorem writeSet_decompressOf (sch : Scheme) : writeSet (decompressOf sch) = [.bs, .tk, .ob, .dict, .nc, .bp] := by
  cases sch <;> rfl

/-- Settles O45: the rule sets `NTD` and leaves the cleared buffers. -/
theorem compressEmptyInput : Obligations.CompressEmptyInput := by
  intro sch s hib
  have hrule : ruleOf (compressOf sch) (beginCommand (compressOf sch) s) =
      .ok { beginCommand (compressOf sch) s with status := setNtd statusStarted } := by
    rw [ruleOf_compressOf, compressRule]
    exact if_pos hib
  have hstatus : statusEnded (setNtd statusStarted) = 0x0A := by decide
  refine ⟨_, exec_of_rule_ok hrule, hstatus, ?_, ?_, ?_, ?_⟩ <;>
    simp [State.obLen, State.tkLen, State.bsLen, State.nc, writeSet_compressOf]

/-- Settles O46: the rule does nothing with the cleared buffers. -/
theorem decompressEmptyInput : Obligations.DecompressEmptyInput := by
  intro sch s hib
  have hrule : ruleOf (decompressOf sch) (beginCommand (decompressOf sch) s) =
      .ok (beginCommand (decompressOf sch) s) := by
    rw [ruleOf_decompressOf, decompressRule, beginCommand_ib, if_pos hib]
  refine ⟨_, exec_of_rule_ok hrule, endRun_status_of_started rfl, ?_, ?_, ?_⟩ <;>
    simp [State.obLen, State.tkLen, State.bsLen, writeSet_decompressOf]

/-! ## The round trip -/

/-- `COMPRESS.s` of a non-empty input writes the packed stream of the tokens that `LZWE` finds. -/
theorem exec_compressOf (hs : s.params.Unbounded) (hib : s.ib ≠ []) :
    ∃ t u, exec (compressOf sch) s = .next t ∧ exec .lzwe s = .next u ∧ t.status = 0x02 ∧
      IsPacked (streamBits sch u.tk) t.ob := by
  obtain ⟨t, u, v, ht, hu, hv, hst, -, -, -, hob⟩ := compressIsLzweThenSer sch s hs hib
  obtain ⟨v', hv', -, -, -, hbs, hpacked⟩ := serializeWritesTheStream sch u (exec_params hu ▸ hs)
  cases hv.symm.trans hv'
  exact ⟨t, u, ht, hu, hst, hob ▸ hbs ▸ hpacked⟩

/-- Settles O51: `DES.s` reads back the tokens of `LZWE`, and `LZWD` builds from them the dictionary that spells the
input; the pad is not read. -/
theorem compressDecompressRoundTrip : Obligations.CompressDecompressRoundTrip := by
  intro sch s hs
  by_cases hib : s.ib = []
  · obtain ⟨t, ht, hst, hob, -⟩ := compressEmptyInput sch s hib
    have hnil : t.ob = [] := List.length_eq_zero_iff.1 hob
    obtain ⟨u, hu, hust, huob, -⟩ := decompressEmptyInput sch { hostRead .ob t with ib := t.ob } hnil
    have huNil : u.ob = [] := List.length_eq_zero_iff.1 huob
    exact ⟨t, u, ht, hostMoveObIb_after_exec hs ht ▸ hu, (absurd hib ·), fun _ => ⟨hst, hnil⟩, hust,
      huNil.trans hib.symm⟩
  · obtain ⟨t, e, ht, he, hst, hpacked⟩ := exec_compressOf (sch := sch) hs hib
    obtain ⟨e', he', -, -, hempty, hflat, hbuilt, hvalid, -⟩ := lzwEncodeResult s hs
    cases he.symm.trans he'
    obtain ⟨u, hu, hust, -, hbuilt', huob, -⟩ := decompressReadsTheStream sch
      { hostRead .ob t with ib := t.ob } e.tk _ _ (exec_params ht ▸ hs) (mt hempty.1 hib) hvalid (isUnpacked_append_pad hpacked) rfl
    refine ⟨t, u, ht, hostMoveObIb_after_exec hs ht ▸ hu, fun _ => hst, (absurd · hib), hust, ?_⟩
    rw [huob, builtBy_unique hbuilt' hbuilt hvalid, hflat]

end Sys2Proof.Machine
end

section
/-! SUPPORT. A piece of a run does the same in two states that differ in nothing it reads or writes: it commutes with
every exchange of the other fields. `DES.s` and `LZWD` do so as phases of `DECOMPRESS.s` (44_pipeline.md R226). -/

namespace Sys2Proof.Machine

open Sys2Proof.Claims

/-- The piece does the same to a state before and after the update `g`. -/
def Run.Commutes (g : State → State) (f : State → Run) : Prop := ∀ s, f (g s) = (f s).map g

namespace Run.Commutes

variable {g u : State → State} {f h : State → Run}

theorem update (hu : ∀ s, u (g s) = g (u s)) : Run.Commutes g fun s => .ok (u s) := fun s => congrArg Run.ok (hu s)

theorem seq (hf : Run.Commutes g f) (hh : Run.Commutes g h) : Run.Commutes g fun s => (f s).bind h := by
  intro s
  simp only [hf s]
  cases f s with
  | ok t => exact hh t
  | raised e t => rfl

theorem loop (hf : Run.Commutes g f) (m : Nat) : Run.Commutes g (Run.times m f) := by
  induction m with
  | zero => exact update fun _ => rfl
  | succ m ih => exact hf.seq ih

/-- An update behind a test of the build's limits. -/
theorem limited {c : State → Bool} (hc : ∀ s, c (g s) = c s) (hu : ∀ s, u (g s) = g (u s)) :
    Run.Commutes g fun s => if c s then .ok (u s) else .raised .capacityExceeded s := by
  intro s
  simp only [hc s, hu s, apply_ite (Run.map g)]
  rfl

end Run.Commutes

/-! ## DES.s -/

/-- `d` with what `DES.s` reads or writes from `s`. -/
def desPart (d s : State) : State :=
  { d with
    params := s.params, phase := s.phase, ib := s.ib, ip := s.ip, bs := s.bs, bp := s.bp, tk := s.tk
    hv := s.hv, cnt := s.cnt, acc := s.acc, l := s.l }

variable {sch : Scheme} {d s : State}

theorem unpackByte_desPart : Run.Commutes (desPart d) unpackByte := by
  intro s
  have hnext : (desPart d s).ib[(desPart d s).ip]? = s.ib[s.ip]? := rfl
  unfold unpackByte
  rw [hnext]
  cases s.ib[s.ip]? with
  | none => rfl
  | some b =>
    have happend : Run.Commutes (desPart d) (appendBS (byteBits b)) := .limited (fun _ => rfl) fun _ => rfl
    exact happend { s with ip := s.ip + 1 }

theorem readCode_desPart (sch : Scheme) {f : Nat → State → Run} (hf : ∀ v, Run.Commutes (desPart d) (f v)) :
    Run.Commutes (desPart d) (readCode sch f) := by
  intro s
  have hdec : dec (desPart d s).params.tokenW sch (desPart d s).bs (desPart d s).bp =
      dec s.params.tokenW sch s.bs s.bp := rfl
  unfold readCode
  rw [hdec]
  cases dec s.params.tokenW sch s.bs s.bp with
  | error e => rfl
  | ok vp =>
    obtain ⟨v, p⟩ := vp
    have hnote : noteDecoded sch v { desPart d s with bp := p } = desPart d (noteDecoded sch v { s with bp := p }) := by
      cases sch <;> rfl
    exact (congrArg (f v) hnote).trans (hf v _)

theorem desHeader_desPart (sch : Scheme) : Run.Commutes (desPart d) (desHeader sch) := by
  refine readCode_desPart sch fun v s => ?_
  simp only [apply_ite (Run.map (desPart d))]
  rfl

theorem desToken_desPart (sch : Scheme) : Run.Commutes (desPart d) (desToken sch) :=
  readCode_desPart sch fun _ => .limited (fun _ => rfl) fun _ => rfl

/-- `DES.s` neither reads nor writes the rest of the state. -/
theorem desRule_desPart (sch : Scheme) : Run.Commutes (desPart d) (desRule sch) := by
  have hunpack : Run.Commutes (desPart d) unpackPhase := fun s =>
    unpackByte_desPart.loop (s.ibLen - 0) { s with phase := .unpack, bs := [], ip := 0 }
  have hwork : Run.Commutes (desPart d) (desWork sch) :=
    (desHeader_desPart sch).seq fun s => (desToken_desPart sch).loop s.cnt s
  have hdes : Run.Commutes (desPart d) (desPhase sch) := fun s => hwork { s with phase := .des, tk := [], bp := 0 }
  exact hunpack.seq hdes

/-! ## LZWD -/

/-- `d` with what `LZWD` reads or writes, and `STATUS`, from `s`. -/
def lzwdPart (d s : State) : State :=
  { d with
    status := s.status, params := s.params, phase := s.phase, tk := s.tk, tp := s.tp, ob := s.ob, dict := s.dict
    prev := s.prev, entry := s.entry }

theorem appendOB_lzwdPart (v : List Byte) : Run.Commutes (lzwdPart d) (appendOB v) :=
  .limited (fun _ => rfl) fun _ => rfl

theorem lzwdFirst_lzwdPart : Run.Commutes (lzwdPart d) lzwdFirst := by
  intro s
  have hnext : (lzwdPart d s).tk[(lzwdPart d s).tp]? = s.tk[s.tp]? := rfl
  unfold lzwdFirst
  rw [hnext]
  cases s.tk[s.tp]? with
  | none => rfl
  | some x =>
    have hdict : (lzwdPart d s).dict[x]? = s.dict[x]? := rfl
    simp only [hdict]
    cases s.dict[x]? with
    | none => rfl
    | some p => exact appendOB_lzwdPart p { s with tp := s.tp + 1, prev := p }

theorem lzwdNext_lzwdPart : Run.Commutes (lzwdPart d) lzwdNext := by
  intro s
  have hnext : (lzwdPart d s).tk[(lzwdPart d s).tp]? = s.tk[s.tp]? := rfl
  unfold lzwdNext
  rw [hnext]
  cases s.tk[s.tp]? with
  | none => rfl
  | some x =>
    have hphrase : tokenPhrase (lzwdPart d s).dict (lzwdPart d s).prev x = tokenPhrase s.dict s.prev x := rfl
    simp only [hphrase]
    cases tokenPhrase s.dict s.prev x with
    | none => rfl
    | some p =>
      have hinsert : Run.Commutes (lzwdPart d) (insertPhrase (s.prev ++ p.take 1)) :=
        .limited (fun _ => rfl) fun _ => rfl
      have hlast : Run.Commutes (lzwdPart d) fun s => .ok { s with prev := s.entry } := .update fun _ => rfl
      exact (((appendOB_lzwdPart p).seq hinsert).seq hlast) { s with tp := s.tp + 1, entry := p }

/-- `LZWD` neither reads nor writes the rest of the state. -/
theorem lzwdPhase_lzwdPart : Run.Commutes (lzwdPart d) lzwdPhase := by
  have hinit : Run.Commutes (lzwdPart d) initDict := .limited (fun _ => rfl) fun _ => rfl
  have hlast : Run.Commutes (lzwdPart d) fun s => .ok { s with tp := 0 } := .update fun _ => rfl
  have henter : Run.Commutes (lzwdPart d) enterLzwd := fun s => (hinit.seq hlast) { s with phase := .lzwd, ob := [] }
  have hwork : Run.Commutes (lzwdPart d) lzwdWork := fun s =>
    lzwdFirst_lzwdPart.seq (lzwdNext_lzwdPart.loop (s.tkLen - 1)) s
  exact henter.seq hwork

/-! ## DECOMPRESS.s -/

/-- Where `DES.s` ends as the first half of `DECOMPRESS.s` that began in `s`; `t` is where it ends as a command. -/
def desHalf (sch : Scheme) (s t : State) : State := desPart (beginCommand (decompressOf sch) s) t

/-- `DECOMPRESS.s` begins with the `DES.s` that the command runs. -/
theorem desRule_in_decompressOf (sch : Scheme) (s : State) :
    desRule sch (beginCommand (decompressOf sch) s) =
      (desRule sch (beginCommand (desOf sch) s)).map (desHalf sch s) := by
  have hbegin : beginCommand (decompressOf sch) s = desHalf sch s (beginCommand (desOf sch) s) := by cases sch <;> rfl
  exact (congrArg (desRule sch) hbegin).trans (desRule_desPart sch _)

/-- `LZWD` follows in it as the command does that is run after `DES.s`. -/
theorem lzwdPhase_in_decompressOf (sch : Scheme) (s t : State) :
    lzwdPhase (desHalf sch s t) =
      (lzwdPhase (beginCommand .lzwd (endRun t))).map (lzwdPart (desHalf sch s t)) := by
  have hbegin : lzwdPhase (desHalf sch s t) =
      lzwdPhase (lzwdPart (desHalf sch s t) (beginCommand .lzwd (endRun t))) := by cases sch <;> rfl
  exact hbegin.trans (lzwdPhase_lzwdPart _)

theorem statusErr_errorState (c : Word8) (ws : List Dest) (e : ErrKind) (s : State) :
    statusErr (errorState c ws e s).status = true := by
  have hcode : statusErr (statusError e) = true := by cases e <;> decide
  exact hcode

theorem errorState_ob {ws : List Dest} (h : .ob ∈ ws) (c : Word8) (e : ErrKind) (s : State) :
    (errorState c ws e s).ob = [] := if_pos h

/-- An error of `DES.s` is one of `DECOMPRESS.s`. -/
theorem ruleOf_decompressOf_of_des_raised {e : ErrKind} {x : State} (hib : s.ib ≠ [])
    (h : desRule sch (beginCommand (desOf sch) s) = .raised e x) :
    ruleOf (decompressOf sch) (beginCommand (decompressOf sch) s) = .raised e (desHalf sch s x) := by
  rw [ruleOf_decompressOf, decompressRule, beginCommand_ib, if_neg hib, desRule_in_decompressOf, h]
  rfl

/-- After `DES.s` without an error `DECOMPRESS.s` ends as `LZWD` does. -/
theorem ruleOf_decompressOf_of_des_ok {x : State} (hib : s.ib ≠ [])
    (h : desRule sch (beginCommand (desOf sch) s) = .ok x) :
    ruleOf (decompressOf sch) (beginCommand (decompressOf sch) s) =
      (lzwdPhase (beginCommand .lzwd (endRun x))).map (lzwdPart (desHalf sch s x)) := by
  rw [ruleOf_decompressOf, decompressRule, beginCommand_ib, if_neg hib, desRule_in_decompressOf, h]
  exact lzwdPhase_in_decompressOf sch s x

/-- Settles O48: the two phases do in `DECOMPRESS.s` what they do as commands, and a run ends with the status of what
it raises. -/
theorem decompressIsDesThenLzwd : Obligations.DecompressIsDesThenLzwd := by
  intro sch s hib
  cases hdes : desRule sch (beginCommand (desOf sch) s) with
  | raised e x =>
    have hu := exec_of_rule_raised ((congrFun (ruleOf_desOf sch) _).trans hdes)
    have ht := exec_of_rule_raised (ruleOf_decompressOf_of_des_raised hib hdes)
    refine ⟨_, _, _, ht, hu, exec_eq_runCommand .lzwd _, fun _ => rfl, fun hclean => ?_⟩
    exact absurd (statusErr_errorState _ _ _ _) (ne_true_of_eq_false hclean)
  | ok x =>
    have hu := exec_of_rule_ok ((congrFun (ruleOf_desOf sch) _).trans hdes)
    have hx := (desRule_touches (i := .desG) sch (by decide) (by decide)).untouched hdes
    have hust : (endRun x).status = 0x02 := endRun_status_of_started (hx .status (by decide))
    have hclean : statusErr (endRun x).status ≠ true := by rw [hust]; decide
    have hrule := ruleOf_decompressOf_of_des_ok hib hdes
    cases hlzwd : lzwdPhase (beginCommand .lzwd (endRun x)) with
    | raised e y =>
      rw [hlzwd] at hrule
      have hv := exec_of_rule_raised (i := .lzwd) hlzwd
      have hob : .ob ∈ writeSet (decompressOf sch) := by simp [writeSet_decompressOf]
      refine ⟨_, _, _, exec_of_rule_raised hrule, hu, hv, (absurd · hclean), fun _ => ⟨rfl, ?_, rfl, fun hvClean => ?_⟩⟩
      · rw [errorState_ob hob, errorState_ob (by decide)]
      · exact absurd (statusErr_errorState _ _ _ _) (ne_true_of_eq_false hvClean)
    | ok y =>
      rw [hlzwd] at hrule
      have hy := (wholePhase_touches .gamma .lzwd).untouched hlzwd
      exact ⟨_, _, _, exec_of_rule_ok hrule, hu, exec_of_rule_ok (i := .lzwd) hlzwd, (absurd · hclean),
        fun _ => ⟨rfl, rfl, rfl, fun _ => ⟨hy .tk (by decide), rfl, rfl⟩⟩⟩

end Sys2Proof.Machine
end

section
/-! SUPPORT. The host's moves in an idle state, `RESET` in every state, and what a finite build refuses
(45_host_interface.md R241 to R248; 70_reset_and_hazards.md R300; 60_exceptions.md R283). -/

namespace Sys2Proof.Machine

open Sys2Proof.Claims

variable {busy fits : Bool} {s u : State}

/-- A `LOAD` or `SET` by an idle engine's host that the build can carry out. -/
theorem idleWrite_done (hidle : busy = false) (hfits : fits = true) :
    (if busy then s else if fits then u else s) = u := by
  rw [hidle, hfits]
  rfl

/-- One that the build cannot carry out, by a host of any engine. -/
theorem idleWrite_refused (hfits : fits = false) : (if busy then s else if fits then u else s) = s := by
  rw [hfits]
  exact ite_self s

/-- Settles O4: the pending `START` is the event, and the state without it is idle and in the same build. -/
theorem stepRunsDecodedCommand : Obligations.StepRunsDecodedCommand := fun s _ _ rest hidle hgrain hc =>
  hostStart_legal (s := afterMove rest s) hidle hgrain hc

/-- Settles O8: `RESET` asks nothing of the state it is obeyed in. -/
theorem resetMovePutsResetValues : Obligations.ResetMovePutsResetValues := fun _ _ => rfl

/-- Settles O9: the build's test of each `LOAD` is the move's well-formedness. -/
theorem loadReplacesTheBuffer : Obligations.LoadReplacesTheBuffer := fun _ _ hidle =>
  ⟨fun _ hd => congrArg Host.Outcome.next (idleWrite_done hidle hd),
    fun _ hd => congrArg Host.Outcome.next (idleWrite_done hidle hd),
    fun _ hd => congrArg Host.Outcome.next (idleWrite_done hidle hd)⟩

/-- Settles O10: only the three `LOAD`s and `SET N` can be more than the build holds. -/
theorem loadBeyondTheBuildDoesNotHappen : Obligations.LoadBeyondTheBuildDoesNotHappen := by
  intro s rest m h
  cases m with
  | loadIB d | loadTK d | loadBS d => exact congrArg Host.Outcome.next (idleWrite_refused h)
  | set r v =>
    cases r with
    | n => exact congrArg Host.Outcome.next (idleWrite_refused h)
    | cmd | status | ibLen | obLen | tkLen | bsLen | bp | nc => cases h
  | reset | start c | wait | read x | moveObIb => cases h

/-- Settles O11: the engine is idle and the value within the build's tokens. -/
theorem setNWritesNAlone : Obligations.SetNWritesNAlone := fun _ _ _ hidle hfits =>
  congrArg Host.Outcome.next (idleWrite_done hidle hfits)

/-- `READ` by an idle engine's host returns the value and uses no unspecified one. -/
theorem hostRead_idle (hidle : s.busy = false) (x : Target) :
    hostRead x s = { s with hostOut := s.hostOut ++ [targetValue x s] } := by
  simp [hostRead, readResult, hidle]

/-- Settles O13: what the idle engine returns of a register or a buffer is its value. -/
theorem readReturnsTheValue : Obligations.ReadReturnsTheValue := by
  intro s rest x hidle
  refine (congrArg Host.Outcome.next (hostRead_idle (s := afterMove rest s) hidle x)).trans ?_
  cases x with
  | reg r =>
    cases r with
    | cmd | status | ibLen | obLen | tkLen | bsLen | n | bp | nc => rfl
  | ib | ob | tk | bs => rfl

end Sys2Proof.Machine
end

section
/-! SUPPORT. The engine neither reads nor writes the host's pending moves, so that it makes the same step with `WAIT`
pending as without it (45_host_interface.md R247; log 4). A piece of a run that is blind to the host's side and leaves
it alone commutes with every exchange of the pending moves. -/

namespace Sys2Proof.Machine

open Sys2Proof.Claims

variable {moves : List HostMove} {ph : Phase} {s t t' : State}

/-- The buffers, and `N`: all that `blot` may hide besides the host's side. -/
def everyBuffer : List Field := [.ib, .ob, .tk, .bs, .n]

theorem buffers_subset_everyBuffer (ph : Phase) : ph.buffers ⊆ everyBuffer := by cases ph <;> decide

/-! ## The pieces of a run -/

/-- One element of any phase. -/
theorem phaseUnit_blind (sch : Scheme) (ph : Phase) : Run.Blind everyBuffer (phaseUnit sch ph) := by
  have hib : .ib ∈ everyBuffer := by decide
  have hob : .ob ∈ everyBuffer := by decide
  have htk : .tk ∈ everyBuffer := by decide
  have hbs : .bs ∈ everyBuffer := by decide
  have hn : .n ∈ everyBuffer := by decide
  have hcode {m : State → Nat} (hm : ∀ s, m (blot everyBuffer s) = m s) :
      Run.Blind everyBuffer fun s => appendCode sch (m s) s :=
    .counted m hm (appendCode_blind hbs sch)
  cases ph with
  | idle => exact .done
  | lzwe => exact lzweByte_blind hib htk
  | lzwd => exact .branch (fun _ => Iff.rfl) (lzwdFirst_blind htk hob) (lzwdNext_blind htk hob)
  | ser => exact .branch (fun s => by rw [blot_bs hbs]) (hcode fun _ => rfl) (serToken_blind htk hbs sch)
  | des => exact .branch (fun _ => Iff.rfl) (desHeader_blind hbs sch) (desToken_blind htk hbs sch)
  | pack => exact packByte_blind hbs hob
  | unpack => exact unpackByte_blind hib hbs
  | uenc => exact hcode (blot_n hn)
  | udec => exact udecNumber_blind hbs hn sch

theorem leavePhase_blind (ph : Phase) : Run.Blind everyBuffer (leavePhase ph) := by
  cases ph with
  | lzwe => exact lzweFlush_blind (by decide)
  | idle | lzwd | ser | des | pack | unpack | uenc | udec => exact .done

theorem leavePhase_touches (ph : Phase) : Run.Touches ph.touches (leavePhase ph) := by
  cases ph with
  | lzwe => exact lzweFlush_touches
  | idle | lzwd | ser | des | pack | unpack | uenc | udec => exact .done

/-- Two ends that agree but for the host's side, which each has from its start. -/
theorem eq_afterMove (hblot : blot everyBuffer t' = blot everyBuffer t) (h : Untouched (.phase :: ph.touches) s t)
    (h' : Untouched (.phase :: ph.touches) (afterMove moves s) t') : t' = afterMove moves t := by
  have hno (f : Field) (hf : f ∈ [.hostIn, .hostOut, .freeCtr]) : f ∉ .phase :: ph.touches := by
    revert hf
    cases ph <;> revert f <;> decide
  have hin : t'.hostIn = moves := h' .hostIn (hno _ (by decide))
  have hout : t'.hostOut = t.hostOut := Eq.trans (h' .hostOut (hno _ (by decide))) (h .hostOut (hno _ (by decide))).symm
  have hctr : t'.freeCtr = t.freeCtr := Eq.trans (h' .freeCtr (hno _ (by decide))) (h .freeCtr (hno _ (by decide))).symm
  calc t' = { blot everyBuffer t' with hostIn := t'.hostIn, hostOut := t'.hostOut, freeCtr := t'.freeCtr } := rfl
    _ = { blot everyBuffer t with hostIn := moves, hostOut := t.hostOut, freeCtr := t.freeCtr } := by
      rw [hblot, hin, hout, hctr]
    _ = afterMove moves t := rfl

/-- A piece of a run that is blind to the host's side and leaves it alone. -/
theorem Run.Commutes.of_blind {f : State → Run} (hf : Run.Blind everyBuffer f)
    (htouch : Run.Touches (.phase :: ph.touches) f) : Run.Commutes (afterMove moves) f := by
  intro s
  have hblot : (f (afterMove moves s)).map (blot everyBuffer) = (f s).map (blot everyBuffer) :=
    (hf (afterMove moves s)).symm.trans (hf s)
  have h := htouch s
  have h' := htouch (afterMove moves s)
  generalize f s = r at hblot h ⊢
  generalize f (afterMove moves s) = r' at hblot h' ⊢
  cases r with
  | ok t =>
    cases r' with
    | ok t' => exact congrArg Run.ok (eq_afterMove (Run.ok.inj hblot) h h')
    | raised e' t' => cases hblot
  | raised e t =>
    cases r' with
    | ok t' => cases hblot
    | raised e' t' =>
      obtain ⟨rfl, hb⟩ := Run.raised.inj hblot
      obtain ⟨-, hu⟩ := h
      obtain ⟨-, hu'⟩ := h'
      exact congrArg (Run.raised e') (eq_afterMove hb hu hu')

theorem enterPhase_afterMove (ph : Phase) : Run.Commutes (afterMove moves) (enterPhase ph) :=
  .of_blind (enterPhase_blind ph) (enterPhase_touches ph)

theorem phaseWork_afterMove (sch : Scheme) (ph : Phase) : Run.Commutes (afterMove moves) (phaseWork sch ph) :=
  .of_blind (phaseWork_blind sch (buffers_subset_everyBuffer ph))
    ((phaseWork_touches sch ph).mono (List.subset_cons_self _ _))

theorem phaseUnit_afterMove (sch : Scheme) (ph : Phase) : Run.Commutes (afterMove moves) (phaseUnit sch ph) :=
  .of_blind (phaseUnit_blind sch ph) ((phaseUnit_touches sch ph).mono (List.subset_cons_self _ _))

theorem leavePhase_afterMove (ph : Phase) : Run.Commutes (afterMove moves) (leavePhase ph) :=
  .of_blind (leavePhase_blind ph) ((leavePhase_touches ph).mono (List.subset_cons_self _ _))

/-! ## The engine's step -/

theorem settle_afterMove (ws : List Dest) (r : Run) :
    settle ws (r.map (afterMove moves)) = afterMove moves (settle ws r) := by
  cases r <;> rfl

theorem finishRun_afterMove (ws : List Dest) (r : Run) :
    finishRun ws (r.map (afterMove moves)) = afterMove moves (finishRun ws r) := by
  cases r <;> rfl

theorem advance_afterMove (i : Instr) (ph : Phase) (r : Run) :
    advance i ph (r.map (afterMove moves)) = afterMove moves (advance i ph r) := by
  unfold advance
  split
  · exact finishRun_afterMove _ r
  · rename_i ph' _
    have hbind : (r.map (afterMove moves)).bind (enterPhase ph') = (r.bind (enterPhase ph')).map (afterMove moves) := by
      cases r with
      | ok t => exact enterPhase_afterMove ph' t
      | raised e t => rfl
    rw [hbind, settle_afterMove]

theorem phaseMore_afterMove (ph : Phase) (s : State) : phaseMore ph (afterMove moves s) = phaseMore ph s := by
  cases ph <;> rfl

theorem runStep_afterMove (i : Instr) (s : State) : runStep i (afterMove moves s) = afterMove moves (runStep i s) := by
  have hgrain : (afterMove moves s).params.grain = s.params.grain := rfl
  have hphase : (afterMove moves s).phase = s.phase := rfl
  have hscheme : runScheme (afterMove moves s) = runScheme s := rfl
  unfold runStep
  rw [hgrain, hphase, hscheme, phaseMore_afterMove, phaseWork_afterMove, phaseUnit_afterMove, leavePhase_afterMove,
    advance_afterMove, advance_afterMove, settle_afterMove]
  split
  · rfl
  · exact (apply_ite (afterMove moves) _ _ _).symm

theorem engineStep_afterMove (h : engineStep s = .next t) :
    engineStep (afterMove moves s) = .next (afterMove moves t) := by
  have hcmd : (afterMove moves s).cmd = s.cmd := rfl
  have hphase : (afterMove moves s).phase = s.phase := rfl
  unfold engineStep at h ⊢
  rw [hcmd, hphase]
  split at h
  · split at h
    · cases h
      rw [if_pos ‹_›, runStep_afterMove]
    · cases h
  · cases h

/-! ## WAIT -/

/-- `WAIT` with `DONE = 0` leaves the event to the engine. -/
theorem step_wait_polling (rest : List HostMove) (hdone : statusDone s.status = false) :
    step (nextMove .wait rest s) = engineTurn (nextMove .wait rest s) := if_neg (ne_true_of_eq_false hdone)

theorem engineTurn_idle (hidle : s.busy = false) : engineTurn s = .next s := if_neg (ne_true_of_eq_false hidle)

theorem engineTurn_busy (hbusy : s.busy = true) : engineTurn s = engineStep s := if_pos hbusy

/-- Settles O15: with `DONE = 0` the event is the engine's, and it takes no notice of the pending `WAIT`. -/
theorem waitPollsUntilDone : Obligations.WaitPollsUntilDone := by
  intro s rest
  refine ⟨fun hdone => if_pos hdone, fun hidle hdone => ?_, fun hidle => step_idle (s := afterMove [] s) hidle rfl,
    fun t hbusy hdone hstep => ?_⟩
  · exact (step_wait_polling rest hdone).trans (engineTurn_idle (s := nextMove .wait rest s) hidle)
  · have hengine : engineStep (afterMove [] s) = .next t :=
      (engineTurn_busy (s := afterMove [] s) hbusy).symm.trans hstep
    calc step (nextMove .wait rest s) = engineTurn (nextMove .wait rest s) := step_wait_polling rest hdone
      _ = engineStep (nextMove .wait rest s) := engineTurn_busy (s := nextMove .wait rest s) hbusy
      _ = .next (nextMove .wait rest t) := engineStep_afterMove (s := afterMove [] s) hengine

end Sys2Proof.Machine
end

section
/-! SUPPORT. How a run stops with an error (60_exceptions.md R266 to R268): an illegal word and a rule that raises both
leave the error state, and what the rules can raise in a build without limits. -/

namespace Sys2Proof.Machine

open Sys2Proof.Claims

variable {i : Instr} {s t u : State}

/-! ## An illegal word (R266) -/

/-- `START` of an illegal word by an idle engine, in every granularity. -/
theorem hostStart_illegal {c : Word8} {why : IllegalWord} (hidle : s.busy = false) (hc : decode c = .error why) :
    hostStart c s = .next (errorState c [] .illegalCommand s) := by
  rw [hostStart, hidle, hc]
  rfl

/-- Settles O5: the pending `START` is the event, and the state without it is idle. -/
theorem illegalWordStopsWithCodeFive : Obligations.IllegalWordStopsWithCodeFive := fun s _ _ rest hidle hc =>
  ⟨hostStart_illegal (s := afterMove rest s) hidle hc, rfl⟩

/-! ## A run that ends with an error (R268) -/

/-- No rule that ends normally has set `ERR`. -/
theorem statusErr_of_rule_ok (h : ruleOf i (beginCommand i s) = .ok u) : statusErr u.status = false := by
  have started (hst : u.status = statusStarted) : statusErr u.status = false := by rw [hst]; decide
  by_cases hc : ∃ sch, i = compressOf sch
  · obtain ⟨sch, rfl⟩ := hc
    rw [ruleOf_compressOf, compressRule] at h
    split at h
    · cases h
      have hst : statusErr (setNtd statusStarted) = false := by decide
      exact hst
    · exact started ((compressPhases_touches sch).untouched h .status (not_touched [] (by simp)))
  · exact started ((ruleOf_touches hc).untouched h .status (not_touched [] (by simp)))

theorem statusErr_statusEnded (st : Word8) : statusErr (statusEnded st) = statusErr st := by
  simp [statusErr, statusEnded]

/-- A run that ends with `ERR` raised an error in its rule, and left the error state. -/
theorem exec_statusErr (h : exec i s = .next t) (herr : statusErr t.status = true) :
    ∃ e u, ruleOf i (beginCommand i s) = .raised e u ∧ t = errorState (encode i) (writeSet i) e s := by
  cases hrule : ruleOf i (beginCommand i s) with
  | ok u =>
    rw [exec_of_rule_ok hrule] at h
    cases h
    rw [endRun_status, statusErr_statusEnded, statusErr_of_rule_ok hrule] at herr
    cases herr
  | raised e u =>
    rw [exec_of_rule_raised hrule] at h
    cases h
    exact ⟨e, u, rfl, rfl⟩

/-- Settles O19: the error is that of the command's rule, or of the word itself. -/
theorem errorStopLeavesTheErrorState : Obligations.ErrorStopLeavesTheErrorState := by
  refine ⟨fun i s t h herr => ?_, fun c s t hillegal hidle h => ?_⟩
  · obtain ⟨e, -, -, ht⟩ := exec_statusErr h herr
    exact ⟨e, ht⟩
  · cases hc : decode c with
    | ok i => exact absurd hc (hillegal i)
    | error why =>
      rw [hostStart_illegal hidle hc] at h
      cases h
      rfl

/-! ## What the rules raise without limits (R267) -/

/-- Begun in a build without limits, the piece of a run raises no error but those listed. -/
def Run.RaisesOnly (errs : List ErrKind) (f : State → Run) : Prop :=
  ∀ s e u, s.params.Unbounded → f s = .raised e u → e ∈ errs

namespace Run.RaisesOnly

variable {errs errs' : List ErrKind} {f g : State → Run}

theorem mono (hf : Run.RaisesOnly errs f) (hsub : errs ⊆ errs') : Run.RaisesOnly errs' f :=
  fun s e u h hr => hsub (hf s e u h hr)

theorem of_ok (hf : ∀ s : State, s.params.Unbounded → ∃ t, f s = .ok t) : Run.RaisesOnly [] f := by
  intro s e u h hr
  obtain ⟨t, ht⟩ := hf s h
  rw [ht] at hr
  cases hr

theorem of_post (hf : ∀ s : State, s.params.Unbounded → (f s).Post (fun _ => True) fun e _ => e ∈ errs) :
    Run.RaisesOnly errs f := by
  intro s e u h hr
  have hs := hf s h
  rwa [hr] at hs

/-- The second piece is begun in the build of the first. -/
theorem seq (hf : Run.RaisesOnly errs f) (hkeeps : Run.Keeps SameCommand f) (hg : Run.RaisesOnly errs g) :
    Run.RaisesOnly errs fun s => (f s).bind g := by
  intro s e u h hr
  obtain hr | ⟨t, ht, hr⟩ := Run.bind_eq_raised.1 hr
  · exact hf s e u h hr
  · obtain ⟨-, -, hparams, -⟩ := hkeeps s t (.inl ht)
    exact hg t e u (hparams ▸ h) hr

end Run.RaisesOnly

theorem lzwePhase_raises : Run.RaisesOnly [] lzwePhase :=
  .of_ok fun _ h => (lzwePhase_unbounded h).exists_ok.imp fun _ ht => ht.1

theorem lzwdPhase_raises : Run.RaisesOnly [.invalidCode] lzwdPhase :=
  .of_post fun _ h => (lzwdPhase_decoded h).mono (fun _ _ => trivial) fun _ _ hbad => List.mem_singleton.2 hbad.1

theorem packPhase_raises : Run.RaisesOnly [] packPhase :=
  .of_ok fun _ ⟨_, hlen, _, _, _, hcap, _⟩ => ⟨_, packPhase_of_noLimit hcap hlen⟩

theorem unpackPhase_raises : Run.RaisesOnly [] unpackPhase :=
  .of_ok fun _ ⟨_, hlen, _, _, _, _, _, hcap⟩ => ⟨_, unpackPhase_of_noLimit hcap hlen⟩

theorem serRule_raises (sch : Scheme) : Run.RaisesOnly [] (serRule sch) :=
  .of_ok fun _ h => (serRule_unbounded sch h).imp fun _ ht => ht.1

theorem desPhase_raises (sch : Scheme) : Run.RaisesOnly [.truncatedStream, .corruptHeader] (desPhase sch) := by
  refine .of_post fun s h => (desWork_post (s := { s with phase := .des, tk := [], bp := 0 }) h rfl).mono
    (fun _ _ => trivial) fun e _ hstop => ?_
  obtain rfl | ⟨rfl, -⟩ := hstop <;> simp

theorem desRule_raises (sch : Scheme) : Run.RaisesOnly [.truncatedStream, .corruptHeader] (desRule sch) :=
  (unpackPhase_raises.mono (List.nil_subset _)).seq unpackPhase_keeps (desPhase_raises sch)

theorem uencNumber_raises (sch : Scheme) : Run.RaisesOnly [.invalidArgument] (uencNumber sch) := by
  intro s e u h hr
  obtain hn | hn := Nat.eq_zero_or_pos s.n
  · rw [uencNumber_zero hn] at hr
    cases hr
    exact List.mem_singleton_self _
  · rw [uencNumber, appendCode_unbounded h sch hn] at hr
    cases hr

theorem uencPhase_raises (sch : Scheme) : Run.RaisesOnly [.invalidArgument] (uencPhase sch) :=
  fun s => uencNumber_raises sch { s with phase := .uenc, bs := [] }

theorem udecNumber_raises (sch : Scheme) : Run.RaisesOnly [.truncatedStream] (udecNumber sch) := by
  intro s e u h hr
  obtain ⟨hw, -⟩ := h
  cases hdec : dec s.params.tokenW sch s.bs s.bp with
  | ok a =>
    rw [udecNumber_of_dec_ok hdec] at hr
    cases hr
  | error e' =>
    rw [udecNumber_of_dec_error hdec] at hr
    cases hr
    exact List.mem_singleton.2 (dec_none_error (hw ▸ hdec))

theorem udecPhase_raises (sch : Scheme) : Run.RaisesOnly [.truncatedStream] (udecPhase sch) :=
  fun s => udecNumber_raises sch { s with phase := .udec }

theorem compressRule_raises (sch : Scheme) : Run.RaisesOnly [] (compressRule sch) := by
  intro s e u h hr
  unfold compressRule at hr
  split at hr
  · cases hr
  · exact lzwePhase_raises.seq lzwePhase_keeps (serRule_raises sch) s e u h hr

theorem decompressRule_raises (sch : Scheme) :
    Run.RaisesOnly [.invalidCode, .truncatedStream, .corruptHeader] (decompressRule sch) := by
  intro s e u h hr
  unfold decompressRule at hr
  split at hr
  · cases hr
  · exact ((desRule_raises sch).mono (by simp)).seq (desRule_keeps sch) (lzwdPhase_raises.mono (by simp)) s e u h hr

/-- The table of 60_exceptions.md R267. -/
theorem ruleOf_raises (i : Instr) : Run.RaisesOnly (errorsOf i) (ruleOf i) := by
  cases i with
  | compressG | compressD | compressO | compressF => exact compressRule_raises _
  | decompressG | decompressD | decompressO | decompressF => exact decompressRule_raises _
  | lzwe => exact lzwePhase_raises
  | lzwd => exact lzwdPhase_raises
  | serG | serD | serO | serF => exact serRule_raises _
  | desG | desD | desO | desF => exact desRule_raises _
  | uencG | uencD | uencO | uencF => exact uencPhase_raises _
  | udecG | udecD | udecO | udecF => exact udecPhase_raises _
  | pack => exact packPhase_raises
  | unpack => exact unpackPhase_raises

/-- Settles O21: the error is one that the command's rule raised. -/
theorem commandRaisesOnlyItsErrors : Obligations.CommandRaisesOnlyItsErrors := by
  intro i s t h hexec herr
  obtain ⟨e, u, hrule, rfl⟩ := exec_statusErr hexec herr
  exact ⟨e, ruleOf_raises i (beginCommand i s) e u h hrule, rfl⟩

end Sys2Proof.Machine
end

section
/-! SUPPORT. `PACK` in every build (42_bit_byte_packer.md R191; 60_exceptions.md R283): it writes the whole packing, or
the build cannot hold it. -/

namespace Sys2Proof.Machine

open Sys2Proof.Claims

variable {s t : State}

/-- A buffer that can hold a sequence can hold a shorter one. -/
theorem lengthFits_of_le {cap lenW : Option Nat} {x y : Nat} (hxy : x ≤ y) (hy : lengthFits cap lenW y = true) :
    lengthFits cap lenW x = true := by
  obtain ⟨hcap, hlen⟩ : atMost cap y = true ∧ fitsWidth lenW y = true := by simpa [lengthFits] using hy
  have hx : atMost cap x = true := by
    cases cap with
    | none => rfl
    | some c =>
      simp only [atMost, decide_eq_true_eq] at hcap ⊢
      exact hxy.trans hcap
  rw [lengthFits, hx, fitsWidth_of_le hxy hlen]
  rfl

/-- The build of `s` can hold `len` bytes in `OB`. -/
def HoldsOB (s : State) (len : Nat) : Prop := lengthFits s.params.obCap s.params.lenW len = true

/-- In the loop of `PACK` begun in `s`: a part of the packing is written. -/
structure Packing (s t : State) : Prop where
  bs : t.bs = s.bs
  params : t.params = s.params
  ob : t.ob <+: packBytes s.bs
  held : HoldsOB s t.ob.length

theorem packBytes_length (bs : Bits) : (packBytes bs).length = packedLen bs.length := by simp [packBytes]

/-- One byte more of the packing, or the build cannot hold it. -/
theorem packByte_packing {k : Nat} (h : Packing s t) (hleft : PackLeft (k + 1) t) :
    (packByte t).Post (Packing s) fun e _ => e = .capacityExceeded ∧ ¬ HoldsOB s (packedLen s.bs.length) := by
  obtain ⟨hbs, hparams, hob, -⟩ := h
  have hlt : t.ob.length < (packBytes s.bs).length := by
    simp only [PackLeft, State.bsLen, State.obLen, hbs] at hleft
    rw [packBytes_length]
    omega
  have hbyte : byteOfBits (paddedGroup t.bs t.obLen) = (packBytes s.bs)[t.ob.length] := by
    simp [packBytes, hbs, State.obLen]
  have hnext : t.ob ++ [(packBytes s.bs)[t.ob.length]] <+: packBytes s.bs := by
    have htake := List.take_concat_get' _ _ hlt
    rw [← List.prefix_iff_eq_take.1 hob] at htake
    exact htake ▸ List.take_prefix _ _
  rw [packByte, hbyte]
  obtain ⟨hfits, hrun⟩ | ⟨hfull, hrun⟩ := appendOB_cases [(packBytes s.bs)[t.ob.length]] t <;> rw [hrun]
  · exact ⟨hbs, hparams, hnext, by simpa [HoldsOB, hparams] using hfits⟩
  · refine ⟨rfl, fun hheld => ?_⟩
    rw [packBytes_length] at hlt
    have hfits : HoldsOB s (t.ob.length + 1) := lengthFits_of_le hlt hheld
    rw [hparams] at hfull
    exact ne_true_of_eq_false hfull hfits

/-- `PACK` writes the packing exactly when the build can hold it. -/
theorem packPhase_post (s : State) : (packPhase s).Post
    (fun t => t.ob = packBytes s.bs ∧ HoldsOB s (packedLen s.bs.length))
    fun e _ => e = .capacityExceeded ∧ ¬ HoldsOB s (packedLen s.bs.length) := by
  have hstart : Packing s { s with phase := .pack, ob := [] } :=
    ⟨rfl, rfl, List.nil_prefix, lengthFits_zero _ _⟩
  refine (Run.Post.countdown PackLeft (fun _ _ => packByte_packing) (fun _ _ => packByte_left) hstart rfl).mono
    (fun t ht => ?_) fun _ _ => id
  obtain ⟨⟨hbs, -, hob, hheld⟩, hleft⟩ := ht
  simp only [PackLeft, State.bsLen, State.obLen, hbs] at hleft
  have hwhole : t.ob = packBytes s.bs := hob.eq_of_length_le (by rw [packBytes_length]; omega)
  rw [hwhole, packBytes_length] at hheld
  exact ⟨hwhole, hheld⟩

/-- Settles O35: with that capacity and lengths without limit, what `OB` can hold is `cap` bytes. -/
theorem packStopsAtCapacity : Obligations.PackStopsAtCapacity := by
  intro s cap hcap hlen
  have hholds : HoldsOB (beginCommand .pack s) (packedLen s.bs.length) ↔ (s.bs.length + 7) / 8 ≤ cap := by
    rw [HoldsOB, beginCommand_params, lengthFits, hcap, hlen, fitsWidth_none, Bool.and_true]
    exact decide_eq_true_iff
  have hpack := packPhase_post (beginCommand .pack s)
  cases hrun : packPhase (beginCommand .pack s) with
  | ok t =>
    rw [hrun] at hpack
    obtain ⟨hob, hheld⟩ := hpack
    have hstatus : t.status = statusStarted := (wholePhase_touches .gamma .pack).untouched hrun .status (by decide)
    have hpacked : IsPacked s.bs (endRun t).ob := by
      rw [endRun_ob, hob]
      exact isPacked_packBytes s.bs
    exact ⟨⟨_, exec_of_rule_ok (i := .pack) hrun, fun _ => ⟨endRun_status_of_started hstatus, hpacked⟩⟩,
      fun hbeyond => absurd (hholds.1 hheld) hbeyond.not_ge⟩
  | raised e t =>
    rw [hrun] at hpack
    obtain ⟨rfl, hbeyond⟩ := hpack
    have hexec := exec_of_rule_raised (i := .pack) hrun
    exact ⟨⟨_, hexec, fun hle => absurd (hholds.2 hle) hbeyond⟩, fun _ => hexec⟩

end Sys2Proof.Machine
end

section
/-! SUPPORT. The host's access to CORE while a run is in progress (70_reset_and_hazards.md R310; log 5): one lemma for
each kind of move, in any busy state. -/

namespace Sys2Proof.Machine

open Sys2Proof.Claims

section

variable {s u : State} (hbusy : s.busy = true)

include hbusy

/-- A `LOAD` or `SET` by a busy engine's host, whatever an idle engine would make of it. -/
theorem idleWrite_busy : (if s.busy then s else u) = s := if_pos hbusy

theorem hostStart_busy (c : Word8) : hostStart c s = .next s := if_pos hbusy

/-- `N` and `CMD`, writable while idle, are held; every other register is read-only. -/
theorem hostSet_busy (r : Reg) (v : Nat) : hostSet r v s = .next s := by
  cases r with
  | n => exact congrArg Host.Outcome.next (idleWrite_busy hbusy)
  | cmd => exact hostStart_busy hbusy _
  | status | ibLen | obLen | tkLen | bsLen | bp | nc => rfl

/-- `READ` of anything but `STATUS` returns the next unspecified value. -/
theorem hostRead_busy {x : Target} (hx : x ≠ .reg .status) :
    hostRead x s =
      { s with hostOut := s.hostOut ++ [unspecifiedValue x s.freeCtr], freeCtr := s.freeCtr + 1 } := by
  simp [hostRead, readResult, hbusy, hx]

end

/-- `STATUS` is readable at any time. -/
theorem hostRead_status (s : State) :
    hostRead (.reg .status) s = { s with hostOut := s.hostOut ++ [.word s.status] } := by
  simp [hostRead, readResult, targetValue]

/-- Settles O16: the state without the pending move is busy too, and coherence gives the status it reads. -/
theorem busyHostAccess : Obligations.BusyHostAccess := by
  intro s rest hcoh hb
  have hbusy : (afterMove rest s).busy = true := hb
  have hwrite {u : State} : Host.Outcome.next (if (afterMove rest s).busy then afterMove rest s else u) =
      (.next (afterMove rest s) : Host.Outcome State Fault Refusal) :=
    congrArg Host.Outcome.next (idleWrite_busy hbusy)
  obtain ⟨hstatus, -⟩ := hcoh.busy hb
  refine ⟨fun _ => hwrite, fun _ => hwrite, fun _ => hwrite, hostSet_busy hbusy, hostStart_busy hbusy, ?_, ?_, rfl⟩
  · exact fun x hx => ⟨_, _, congrArg Host.Outcome.next (hostRead_busy hbusy hx)⟩
  · have hread : (afterMove rest s).status = 0x01 := hstatus
    rw [← hread]
    exact congrArg Host.Outcome.next (hostRead_status (afterMove rest s))

end Sys2Proof.Machine
end
